-- ==== Sys2Proof/Word.lean ====
section
/-! DEFINITION. The word types of the K2-SWD: bytes (00_scope.md R7) and the 32-bit data path (R6). -/

namespace Sys2Proof

/-- A byte is 8 bits (00_scope.md R7). -/
abbrev Byte := BitVec 8

/-- A data-path register is 32 bits (00_scope.md R6). -/
abbrev Word := BitVec 32

/-- A window capacity, pre-buffer count or displacement is a 24-bit field (00_scope.md R6). -/
abbrev Field24 := BitVec 24

end Sys2Proof
end

