-- ==== Sys2Proof/Config.lean ====
section
/-! DEFINITION. What one K2-SWD is built with (00_scope.md R5; 20_memory.md R61) and the free values: the values the spec
leaves open, opaque so that no proof can see one. -/

namespace Sys2Proof

/-- The parameters of one block: the five capacities of 00_scope.md R5 and the platform's base address (20_memory.md
R61). State holds one `Params` that no step changes, so a statement about every state is about every block (log 3, log 4:
DESIGN CHOICE). -/
structure Params where
  /-- `WIN_MAX`: the largest window capacity a session may use. -/
  winMax : Nat
  /-- `IN_MAX`: bytes of input memory. -/
  inMax : Nat
  /-- `OUT_MAX`: bytes of output memory. -/
  outMax : Nat
  /-- `HUF_NODES_MAX`: the most trie nodes one `HBUILD` may create. -/
  hufNodesMax : Nat
  /-- `HUF_DEPTH_MAX`: the greatest node depth one `HBUILD` may create, the root being at depth 0. -/
  hufDepthMax : Nat
  /-- `SWD_BASE`: where the platform maps the block. -/
  swdBase : Nat
  deriving DecidableEq, Repr

/-- The reference values of 00_scope.md R5; `SWD_BASE` is OPEN and stands at 0 (log 4: DESIGN CHOICE). -/
def Params.reference : Params where
  winMax := 0x10000
  inMax := 0x1000
  outMax := 0x1000
  hufNodesMax := 4095
  hufDepthMax := 32
  swdBase := 0

/-- The constraints of 00_scope.md R5. That the two Huffman limits fit their 32-bit `P_*` registers is DEDUCED from
10_state.md R40 (log 12). -/
abbrev Params.wf (p : Params) : Prop :=
  0xFFFF ≤ p.winMax ∧ p.winMax ≤ 0x1000000 ∧
  1 ≤ p.inMax ∧ p.inMax ≤ 0x1000000 ∧
  1 ≤ p.outMax ∧ p.outMax ≤ 0x1000000 ∧
  3 ≤ p.hufNodesMax ∧ p.hufNodesMax < 2 ^ 32 ∧
  1 ≤ p.hufDepthMax ∧ p.hufDepthMax < 2 ^ 32

/-- The three byte memories whose contents the spec leaves open until something writes them (20_memory.md R69). -/
inductive Space where
  | input
  | window
  | output
  deriving DecidableEq, Repr

/-- FREE VALUE (93_implementation_defined.md I1-I3; log 5, log 6, log 7): byte `index` of a memory that nothing has
written since its contents last became unspecified, `stamp` counting those times. -/
opaque Config.freeByte : Space → (stamp : Nat) → (index : Nat) → Byte

/-- FREE VALUE (log 9): what `REMAIN` reads where `INPOS` is above `IN_LEN`, a difference the spec does not state. -/
opaque Config.freeRemain : (inLen : Word) → (inPos : Word) → Word

end Sys2Proof
end

