-- ==== Sys2Proof/Syntax.lean ====
section
/-! DEFINITION. The command set of the K2-SWD: one constructor of `Instr` per row of spec/opcode_table.json
(30_encoding.md R94), with its operand fields as the table names them. -/

namespace Sys2Proof

/-- Bit order of the bit reader (42_bit_reader.md R141): code 0 and code 1 of `BITORD`. -/
inductive BitOrder where
  | msbFirst
  | lsbFirst
  deriving DecidableEq, Repr

/-- Byte order of the data stream (42_bit_reader.md R142): code 0 and code 1 of `BYTEORD`. -/
inductive ByteOrder where
  | little
  | big
  deriving DecidableEq, Repr

/-- The 21 assigned opcodes, in the order of 30_encoding.md R94. -/
inductive Opcode where
  | nop | begin | start | finish | fail
  | cfgwin | cfgbits | cfglen
  | rdbytes | magic | seek
  | getbit | getbits | align | getbyte
  | liti | litr | litb | copy
  | hbuild | hwalk
  deriving DecidableEq, Repr

/-- A command with its operands (30_encoding.md R94, R100). Counts, kinds and the unit code keep their raw field, whose
legal values WellFormed.lean checks. -/
inductive Instr where
  /-- `NOP`, 46_dispatch.md R231. -/
  | nop
  /-- `BEGIN`, R232. -/
  | begin
  /-- `START`, R233. -/
  | start
  /-- `FINISH`, R236. -/
  | finish
  /-- `FAIL kind, diag`, R237. -/
  | fail (kind : BitVec 3) (diag : Word)
  /-- `CFGWIN cap, prebuf, fill`, 43_window.md R174. -/
  | cfgwin (cap : Field24) (prebuf : Field24) (fill : Byte)
  /-- `CFGBITS bitord, byteord, unit`, 42_bit_reader.md R149. -/
  | cfgbits (bitord : BitOrder) (byteord : ByteOrder) (unitcode : BitVec 2)
  /-- `CFGLEN n`, 46_dispatch.md R234. -/
  | cfglen (n : Word)
  /-- `RDBYTES n`, 41_byte_cursor.md R124. -/
  | rdbytes (n : BitVec 3)
  /-- `MAGIC n, value`, R125. -/
  | magic (n : BitVec 3) (value : Word)
  /-- `SEEK pos`, R126. -/
  | seek (pos : Word)
  /-- `GETBIT`, 42_bit_reader.md R150. -/
  | getbit
  /-- `GETBITS count`, R151. -/
  | getbits (count : BitVec 6)
  /-- `ALIGN`, R152. -/
  | align
  /-- `GETBYTE`, R153. -/
  | getbyte
  /-- `LITI byte`, 43_window.md R177. -/
  | liti (byte : Byte)
  /-- `LITR`, R178. -/
  | litr
  /-- `LITB`, R179. -/
  | litb
  /-- `COPY disp, len`, R180. -/
  | copy (disp : Field24) (len : Word)
  /-- `HBUILD width`, 45_huffman.md R202. -/
  | hbuild (width : BitVec 6)
  /-- `HWALK`, R204. -/
  | hwalk
  deriving DecidableEq, Repr

end Sys2Proof
end

