-- ==== Sys2Proof/WellFormed.lean ====
section
/-! DEFINITION. Which commands are well-formed: the "legal values" column of 30_encoding.md R94, as far as it is about the
command alone (its last two entries, about the trie, are about the state and stand in Machine/Legality.lean). -/

namespace Sys2Proof

/-- Every field lies in the range that 30_encoding.md R94 gives it. -/
abbrev Instr.WellFormed : Instr → Prop
  | .fail kind _ => 1 ≤ kind.toNat ∧ kind.toNat ≤ 4
  | .cfgbits _ _ unitcode => unitcode.toNat ≤ 2
  | .rdbytes n => 1 ≤ n.toNat ∧ n.toNat ≤ 4
  | .magic n _ => 1 ≤ n.toNat ∧ n.toNat ≤ 4
  | .getbits count => count.toNat ≤ 32
  | .hbuild width => 1 ≤ width.toNat ∧ width.toNat ≤ 32
  | .nop | .begin | .start | .finish | .cfgwin _ _ _ | .cfglen _ | .seek _ | .getbit | .align | .getbyte
  | .liti _ | .litr | .litb | .copy _ _ | .hwalk => True

end Sys2Proof
end

