-- ==== Sys2Proof/Decode.lean ====
section
/-! DEFINITION. The decoder and the encoder of the 64-bit command word (30_encoding.md R90-R99). The decoder is total: it
gives an instruction or names the first test of R98 that fails. -/

namespace Sys2Proof

/-- The 64-bit command word `W` (30_encoding.md R90). -/
abbrev CmdWord := BitVec 64

/-- Field `OPC`, bits [63:56] of `W` (30_encoding.md R91). -/
def opcField (w : CmdWord) : Byte := w.extractLsb' 56 8

/-- Field `X`, bits [55:32] of `W` (30_encoding.md R91). -/
def xField (w : CmdWord) : Field24 := w.extractLsb' 32 24

/-- Field `A`, bits [31:0] of `W` (30_encoding.md R91). -/
def aField (w : CmdWord) : Word := w.extractLsb' 0 32

/-- `W = {OPC, X, A}` (30_encoding.md R91). -/
def packWord (opc : Byte) (x : Field24) (a : Word) : CmdWord := opc ++ x ++ a

/-- The opcode numbers of 30_encoding.md R94. -/
def Opcode.code : Opcode → Byte
  | .nop => 0x00
  | .begin => 0x01
  | .start => 0x02
  | .finish => 0x03
  | .fail => 0x04
  | .cfgwin => 0x08
  | .cfgbits => 0x09
  | .cfglen => 0x0A
  | .rdbytes => 0x10
  | .magic => 0x11
  | .seek => 0x12
  | .getbit => 0x18
  | .getbits => 0x19
  | .align => 0x1A
  | .getbyte => 0x1B
  | .liti => 0x20
  | .litr => 0x21
  | .litb => 0x22
  | .copy => 0x23
  | .hbuild => 0x28
  | .hwalk => 0x29

/-- Every assigned opcode, in the order of 30_encoding.md R94. -/
def Opcode.all : List Opcode :=
  [.nop, .begin, .start, .finish, .fail, .cfgwin, .cfgbits, .cfglen, .rdbytes, .magic, .seek, .getbit, .getbits, .align,
    .getbyte, .liti, .litr, .litb, .copy, .hbuild, .hwalk]

/-- The opcode with a given number; the 235 other values are unassigned (30_encoding.md R96). -/
def Opcode.ofCode (opc : Byte) : Option Opcode := Opcode.all.find? fun o => o.code == opc

/-- The must-be-zero bits of field `X` (30_encoding.md R94). -/
def Opcode.zeroX : Opcode → Field24
  | .cfgwin | .copy => 0
  | .fail | .rdbytes | .magic => 0xFFFFF8
  | .getbits | .hbuild => 0xFFFFC0
  | .nop | .begin | .start | .finish | .cfgbits | .cfglen | .seek | .getbit | .align | .getbyte | .liti | .litr | .litb
  | .hwalk => 0xFFFFFF

/-- The must-be-zero bits of field `A` (30_encoding.md R94). -/
def Opcode.zeroA : Opcode → Word
  | .fail | .cfgwin | .cfglen | .magic | .seek | .copy => 0
  | .cfgbits => 0xFFFFFFF0
  | .liti => 0xFFFFFF00
  | .nop | .begin | .start | .finish | .rdbytes | .getbit | .getbits | .align | .getbyte | .litr | .litb | .hbuild
  | .hwalk => 0xFFFFFFFF

/-- The `mask` of an opcode (30_encoding.md R95): the opcode byte and the must-be-zero bits. -/
def Opcode.mask (o : Opcode) : CmdWord := packWord 0xFF o.zeroX o.zeroA

/-- The `match` of an opcode (30_encoding.md R95). -/
def Opcode.pattern (o : Opcode) : CmdWord := packWord o.code 0 0

/-- `BITORD` from its bit (10_state.md R39). -/
def BitOrder.ofBit (b : Bool) : BitOrder := if b then .lsbFirst else .msbFirst

/-- The bit of `BITORD` (10_state.md R39). -/
def BitOrder.bit : BitOrder → Bool
  | .msbFirst => false
  | .lsbFirst => true

/-- `BYTEORD` from its bit (10_state.md R39). -/
def ByteOrder.ofBit (b : Bool) : ByteOrder := if b then .big else .little

/-- The bit of `BYTEORD` (10_state.md R39). -/
def ByteOrder.bit : ByteOrder → Bool
  | .little => false
  | .big => true

/-- The command an opcode and its operand fields stand for, each operand taken from the bits 30_encoding.md R94 gives it,
with no extension, scaling or bias (R93). -/
def Opcode.withFields (o : Opcode) (x : Field24) (a : Word) : Instr :=
  match o with
  | .nop => .nop
  | .begin => .begin
  | .start => .start
  | .finish => .finish
  | .fail => .fail (x.extractLsb' 0 3) a
  | .cfgwin => .cfgwin (a.extractLsb' 0 24) x (a.extractLsb' 24 8)
  | .cfgbits => .cfgbits (BitOrder.ofBit (a.getLsbD 0)) (ByteOrder.ofBit (a.getLsbD 1)) (a.extractLsb' 2 2)
  | .cfglen => .cfglen a
  | .rdbytes => .rdbytes (x.extractLsb' 0 3)
  | .magic => .magic (x.extractLsb' 0 3) a
  | .seek => .seek a
  | .getbit => .getbit
  | .getbits => .getbits (x.extractLsb' 0 6)
  | .align => .align
  | .getbyte => .getbyte
  | .liti => .liti (a.extractLsb' 0 8)
  | .litr => .litr
  | .litb => .litb
  | .copy => .copy x a
  | .hbuild => .hbuild (x.extractLsb' 0 6)
  | .hwalk => .hwalk

/-- The value check of the decoder (30_encoding.md R94 "legal values", third test of R98). -/
def Instr.legalValues : Instr → Bool
  | .fail kind _ => kind != 0 && kind.ule 4
  | .cfgbits _ _ unitcode => unitcode != 3
  | .rdbytes n => n != 0 && n.ule 4
  | .magic n _ => n != 0 && n.ule 4
  | .getbits count => count.ule 32
  | .hbuild width => width != 0 && width.ule 32
  | .nop | .begin | .start | .finish | .cfgwin _ _ _ | .cfglen _ | .seek _ | .getbit | .align | .getbyte
  | .liti _ | .litr | .litb | .copy _ _ | .hwalk => true

/-- Why a word is no instruction: the first test of 30_encoding.md R98 that fails. -/
inductive DecodeError where
  /-- The opcode value is not in 30_encoding.md R94. -/
  | unassignedOpcode (opc : Byte)
  /-- A must-be-zero bit of this opcode is set. -/
  | mustBeZero (o : Opcode)
  /-- A field of this command is outside its legal values. -/
  | illegalValue (i : Instr)
  deriving DecidableEq, Repr

/-- The state-independent tests of 30_encoding.md R98, in its order. -/
def decode (w : CmdWord) : Except DecodeError Instr :=
  match Opcode.ofCode (opcField w) with
  | none => .error (.unassignedOpcode (opcField w))
  | some o =>
    if xField w &&& o.zeroX = 0 ∧ aField w &&& o.zeroA = 0 then
      if (o.withFields (xField w) (aField w)).legalValues then .ok (o.withFields (xField w) (aField w))
      else .error (.illegalValue (o.withFields (xField w) (aField w)))
    else .error (.mustBeZero o)

/-- The opcode of a command. -/
def Instr.op : Instr → Opcode
  | .nop => .nop
  | .begin => .begin
  | .start => .start
  | .finish => .finish
  | .fail _ _ => .fail
  | .cfgwin _ _ _ => .cfgwin
  | .cfgbits _ _ _ => .cfgbits
  | .cfglen _ => .cfglen
  | .rdbytes _ => .rdbytes
  | .magic _ _ => .magic
  | .seek _ => .seek
  | .getbit => .getbit
  | .getbits _ => .getbits
  | .align => .align
  | .getbyte => .getbyte
  | .liti _ => .liti
  | .litr => .litr
  | .litb => .litb
  | .copy _ _ => .copy
  | .hbuild _ => .hbuild
  | .hwalk => .hwalk

/-- Field `X` of a command's word (30_encoding.md R100). -/
def Instr.x : Instr → Field24
  | .fail kind _ => (0 : BitVec 21) ++ kind
  | .cfgwin _ prebuf _ => prebuf
  | .rdbytes n => (0 : BitVec 21) ++ n
  | .magic n _ => (0 : BitVec 21) ++ n
  | .getbits count => (0 : BitVec 18) ++ count
  | .copy disp _ => disp
  | .hbuild width => (0 : BitVec 18) ++ width
  | .nop | .begin | .start | .finish | .cfgbits _ _ _ | .cfglen _ | .seek _ | .getbit | .align | .getbyte | .liti _
  | .litr | .litb | .hwalk => 0

/-- Field `A` of a command's word (30_encoding.md R100). -/
def Instr.a : Instr → Word
  | .fail _ diag => diag
  | .cfgwin cap _ fill => fill ++ cap
  | .cfgbits bitord byteord unitcode =>
    (0 : BitVec 28) ++ unitcode ++ BitVec.ofBool byteord.bit ++ BitVec.ofBool bitord.bit
  | .cfglen n => n
  | .magic _ value => value
  | .seek pos => pos
  | .liti byte => (0 : BitVec 24) ++ byte
  | .copy _ len => len
  | .nop | .begin | .start | .finish | .rdbytes _ | .getbit | .getbits _ | .align | .getbyte | .litr | .litb | .hbuild _
  | .hwalk => 0

/-- The command word of a command (30_encoding.md R91, R100). -/
def encode (i : Instr) : CmdWord := packWord i.op.code i.x i.a

/-- What the decoder reads from a word of spec/opcode_table.json's numbering: a command is one 64-bit word (30_encoding.md
R90) and the bits from `nbits` up are 0. -/
def decodeTableWord (nbits w : Nat) : Option Instr := (decode (BitVec.ofNat 64 (w % 2 ^ nbits))).toOption

end Sys2Proof
end

