-- ==== Sys2Proof/Machine/State.lean ====
section
/-! DEFINITION. The state of one K2-SWD (10_state.md R20), the reasons a step can stop, and the state after reset
(10_state.md R49). State is plain data. -/

namespace Sys2Proof.Machine

/-- `STATE` (10_state.md R20, R24): the session state of K2S3 §4.6 and `Idle`. -/
inductive SessionState where
  | idle
  | headerPending
  | decoding
  | complete
  | failed
  deriving DecidableEq, Repr

/-- The error kinds of 60_exceptions.md R261; code 0 (none recorded) is the absence of a kind. -/
inductive ErrorKind where
  | invalidHeader
  | truncatedStream
  | displacementOutOfRange
  | unsupportedConfiguration
  | illegalCommand
  deriving DecidableEq, Repr

/-- `UNIT` (10_state.md R20; 42_bit_reader.md R143): 1, 2 or 4 bytes. -/
inductive RefillUnit where
  | one
  | two
  | four
  deriving DecidableEq, Repr

/-- `TREE` when it is not none (10_state.md R46): every node is a leaf with a value or a branch with two children. -/
inductive Trie where
  | leaf (value : Word)
  | branch (left right : Trie)
  deriving DecidableEq, Repr

/-- The bytes of a memory that hold a value, as (index, byte) pairs in rising order of index. -/
abbrev Memory := List Host.Cell

/-- What the world outside the block does to it (20_memory.md R60, R62; 70_reset_and_hazards.md R300). `addr` is a
platform byte address and `bits` the width of the access; an access of another width than 32 carries no data that the
block uses (20_memory.md R66). -/
inductive HostEvent where
  | read (addr : Nat) (bits : Nat)
  | write (addr : Nat) (bits : Nat) (data : Word)
  /-- Reset between two accesses. -/
  | reset
  /-- Reset while an access is in progress (70_reset_and_hazards.md R300). -/
  | resetDuringAccess
  deriving DecidableEq, Repr

/-- The state of the machine. The fields up to `hwidth` are the elements of 10_state.md R20 (`TRIE` is derived, R27);
`params` holds the constants of the block; the last six are the model's own (log 1, log 2, log 5, log 6). -/
structure State where
  /-- `STATE`, R24. -/
  state : SessionState
  /-- `IGN`, R26. -/
  ign : Bool
  /-- `CMD_A`, R28. -/
  cmdA : Word
  /-- `RES`, R30. -/
  res : Word
  /-- `ERR_KIND`, R31; `none` is code 0. -/
  errKind : Option ErrorKind
  /-- `ERR_OPC`, R31. -/
  errOpc : Byte
  /-- `ERR_DISP`, R32. -/
  errDisp : Word
  /-- `ERR_OUTLEN`, R33. -/
  errOutLen : Word
  /-- `ERR_INPOS`, R34. -/
  errInPos : Word
  /-- `IN`, R48: the bytes the host has written since reset. -/
  inMem : Memory
  /-- `IN_LEN`, R35. -/
  inLen : Word
  /-- `INPOS`, R36. -/
  inPos : Word
  /-- `BITORD`, R39. -/
  bitOrd : BitOrder
  /-- `BYTEORD`, R39. -/
  byteOrd : ByteOrder
  /-- `UNIT`, R39. -/
  unit : RefillUnit
  /-- `BUF`, R45. -/
  buf : Word
  /-- `USED`, R45. -/
  used : Nat
  /-- `CAP`, R38. -/
  cap : Field24
  /-- `PREBUF`, R38. -/
  prebuf : Field24
  /-- `FILL`, R38. -/
  fill : Byte
  /-- `WIN`, R44: the bytes that differ from the byte the ring was filled with. -/
  win : Memory
  /-- `WPTR`, R41. -/
  wptr : Field24
  /-- `OUT`, R47: the bytes appended since reset. -/
  outMem : Memory
  /-- `OUTLEN`, R37. -/
  outLen : Word
  /-- `DECLEN`, R37. -/
  declen : Word
  /-- `TREE`, R46. -/
  tree : Option Trie
  /-- `HNODES`, R41. -/
  hnodes : Word
  /-- `HWIDTH`, R41. -/
  hwidth : BitVec 6
  /-- The constants of the block (00_scope.md R5); no step changes them (log 3). -/
  params : Params
  /-- The model's own: the byte `START` filled `WIN` with, `none` while its contents are unspecified (log 6). -/
  winFill : Option Byte
  /-- The model's own: how often `WIN` has become unspecified; numbers its free values (log 6). -/
  winStamp : Nat
  /-- The model's own: how often the block has been reset; numbers the free values of `IN` and `OUT` (log 5, log 7). -/
  memStamp : Nat
  /-- The model's own: the pending host events, the first to be performed first (log 1). -/
  bus : List HostEvent
  /-- The model's own: the word the block last answered a host read with (log 2). -/
  rdata : Word
  deriving DecidableEq, Repr

/-- Why the machine would stop with a fault. There is NO constructor: every command word has a defined outcome
(30_encoding.md R96), every access has one (20_memory.md R66, R67), and an error of the block is a next state, not a stop
(60_exceptions.md R260). Nobody raises a fault, which is safe. -/
inductive Fault where
  deriving DecidableEq, Repr

/-- Why the machine gives no meaning to a step. -/
inductive Refusal where
  /-- Raised by an arm of `exec` whose command has no meaning yet (none is left); safe. -/
  | notModelled (mnemonic : String)
  /-- Raised by the event `resetDuringAccess`: 93_implementation_defined.md I8 says to refuse such a run, since a host
  access in progress when reset occurs "has no defined effect" (70_reset_and_hazards.md R300); safe. -/
  | resetDuringAccess
  deriving DecidableEq, Repr

/-- The machine right after reset (10_state.md R49), a block of the reference parameters (log 3), with no host event
pending (log 1). -/
def State.reset : State where
  state := .idle
  ign := false
  cmdA := 0
  res := 0
  errKind := none
  errOpc := 0
  errDisp := 0
  errOutLen := 0
  errInPos := 0
  inMem := []
  inLen := 0
  inPos := 0
  bitOrd := .msbFirst
  byteOrd := .little
  unit := .one
  buf := 0
  used := 8
  cap := 0x1000
  prebuf := 0
  fill := 0
  win := []
  wptr := 0
  outMem := []
  outLen := 0
  declen := 0
  tree := none
  hnodes := 0
  hwidth := 0
  params := Params.reference
  winFill := none
  winStamp := 0
  memStamp := 0
  bus := []
  rdata := 0

end Sys2Proof.Machine
end

