-- ==== Sys2Proof/Machine/Operands.lean ====
section
/-! DEFINITION. The operand forms and coded values of the commands: refill units, error kind codes, state codes, byte
assembly and signature bytes. -/

namespace Sys2Proof.Machine

/-- The state codes of `STATUS[2:0]` (10_state.md R23). -/
def SessionState.code : SessionState → BitVec 3
  | .idle => 0
  | .headerPending => 1
  | .decoding => 2
  | .complete => 3
  | .failed => 4

/-- A rest state is Idle, Complete or Failed; the others are the call states (00_scope.md §7). -/
def SessionState.isRest : SessionState → Bool
  | .idle | .complete | .failed => true
  | .headerPending | .decoding => false

/-- The kind codes of 60_exceptions.md R261. -/
def ErrorKind.code : ErrorKind → Byte
  | .invalidHeader => 1
  | .truncatedStream => 2
  | .displacementOutOfRange => 3
  | .unsupportedConfiguration => 4
  | .illegalCommand => 5

/-- `ERR_KIND` as it is read: 0 when no error is recorded (10_state.md R31). -/
def errKindCode : Option ErrorKind → Byte
  | none => 0
  | some k => k.code

/-- The kind that operand `kind` of `FAIL` names, where it is 1 to 4 (60_exceptions.md R261). -/
def failKind (kind : BitVec 3) : Option ErrorKind :=
  match kind.toNat with
  | 1 => some .invalidHeader
  | 2 => some .truncatedStream
  | 3 => some .displacementOutOfRange
  | 4 => some .unsupportedConfiguration
  | _ => none

/-- `UNIT` in bytes (42_bit_reader.md R143). -/
def RefillUnit.bytes : RefillUnit → Nat
  | .one => 1
  | .two => 2
  | .four => 4

/-- `UB = 8 * UNIT` (42_bit_reader.md R144). -/
def RefillUnit.bits (u : RefillUnit) : Nat := 8 * u.bytes

/-- `UCODE` (10_state.md R39). -/
def RefillUnit.ucode : RefillUnit → BitVec 2
  | .one => 0
  | .two => 1
  | .four => 2

/-- The unit a legal `UCODE` stands for (42_bit_reader.md R149). -/
def RefillUnit.ofUcode (u : BitVec 2) : Option RefillUnit :=
  match u.toNat with
  | 0 => some .one
  | 1 => some .two
  | 2 => some .four
  | _ => none

/-- `Assemble(list, LE)`: the first byte is the least significant (41_byte_cursor.md R123). -/
def assembleLittle : List Byte → Nat
  | [] => 0
  | b :: bs => b.toNat + 256 * assembleLittle bs

/-- `Assemble(list, ord)` (41_byte_cursor.md R123); big-endian has the first byte most significant. -/
def assemble (ord : ByteOrder) (bytes : List Byte) : Nat :=
  match ord with
  | .little => assembleLittle bytes
  | .big => assembleLittle bytes.reverse

/-- Expected byte `k` of a signature, `A[8k+7:8k]` (41_byte_cursor.md R125). -/
def sigByte (value : Word) (k : Nat) : Byte := value.extractLsb' (8 * k) 8

/-- Byte lane `j` of a bus word, bits `[8j+7:8j]` (20_memory.md R62). -/
def laneByte (v : Word) (j : Nat) : Byte := v.extractLsb' (8 * j) 8

/-- `zext_32` of a single bit (00_scope.md R8). -/
def bitWord (b : Bool) : Word := (BitVec.ofBool b).setWidth 32

end Sys2Proof.Machine
end

