-- ==== Sys2Proof/Machine/Flags.lean ====
section
/-! DEFINITION. The fields of `STATUS` (10_state.md R23), which are all derived from state when read. -/

namespace Sys2Proof.Machine

/-- `STATUS.LENREACHED` (10_state.md R25). -/
def State.lenReached (s : State) : Bool :=
  (s.state == .decoding || s.state == .complete) && decide (s.declen.toNat ≤ s.outLen.toNat)

/-- `STATUS.TRIE` (10_state.md R27). -/
def State.trieBit (s : State) : Bool := s.tree.isSome && s.state != .failed

/-- `STATUS` (10_state.md R23): `STATE` in bits [2:0], `LENREACHED` in [3], `IGN` in [4], `TRIE` in [5], the rest 0. -/
def State.status (s : State) : Word :=
  (0 : BitVec 26) ++ BitVec.ofBool s.trieBit ++ BitVec.ofBool s.ign ++ BitVec.ofBool s.lenReached ++ s.state.code

end Sys2Proof.Machine
end

