-- ==== Sys2Proof/Machine/Ops.lean ====
section
/-! DEFINITION. The named operations over memories and registers that the meanings share: the byte memories, failure entry
and the new session (60_exceptions.md R266; 46_dispatch.md R232), the byte cursor, the bit reader, the window, and the trie
builder and walker. -/

namespace Sys2Proof.Machine

/-! ### Byte memories

A memory lists the bytes that hold a value of their own, in rising order of index. `dflt` is what an unlisted byte holds:
`none` for `IN` and `OUT` (nothing: the machine then reads a free value, log 5, log 7), the fill byte for `WIN` once
`START` has filled it (log 6). -/

/-- The listed byte at an index. -/
def Memory.get? : Memory → Nat → Option Byte
  | [], _ => none
  | (c, b) :: m, a => if c = a then some b else Memory.get? m a

/-- List byte `b` at index `a`, in place of what was listed there. -/
def Memory.set : Memory → Nat → Byte → Memory
  | [], a, b => [(a, b)]
  | (c, d) :: m, a, b =>
    if a < c then (a, b) :: (c, d) :: m
    else if a = c then (a, b) :: m
    else (c, d) :: Memory.set m a b

/-- List nothing at index `a`. -/
def Memory.erase : Memory → Nat → Memory
  | [], _ => []
  | (c, d) :: m, a => if c = a then m else (c, d) :: Memory.erase m a

/-- Write byte `b` at index `a`, keeping the canonical form: a byte equal to what an unlisted byte holds is not listed. -/
def Memory.write (dflt : Option Byte) (m : Memory) (a : Nat) (b : Byte) : Memory :=
  if dflt = some b then m.erase a else m.set a b

/-- The canonical form: indices strictly rising, and no byte equal to what an unlisted byte holds. -/
abbrev Memory.wf (dflt : Option Byte) (m : Memory) : Prop :=
  m.Pairwise (fun c d => c.1 < d.1) ∧ ∀ c ∈ m, dflt ≠ some c.2

/-- `IN[i]` (10_state.md R48): an unwritten byte is a free value (93_implementation_defined.md I1; log 5). -/
def State.inByte (s : State) (i : Nat) : Byte := (s.inMem.get? i).getD (Config.freeByte .input s.memStamp i)

/-- `OUT[i]` (10_state.md R47): an unwritten byte is a free value (93_implementation_defined.md I3; log 7). -/
def State.outByte (s : State) (i : Nat) : Byte := (s.outMem.get? i).getD (Config.freeByte .output s.memStamp i)

/-- `WIN[i]` (10_state.md R44): an unlisted byte is what `START` filled the ring with, or a free value while the contents
are unspecified (93_implementation_defined.md I2; log 6). -/
def State.winByte (s : State) (i : Nat) : Byte :=
  (s.win.get? i).getD (s.winFill.getD (Config.freeByte .window s.winStamp i))

/-! ### Failure entry, illegal commands, the new session -/

/-- `raise K(d)` from within the command with opcode `opc` (60_exceptions.md R266). `start` is the state the command began
in, `s` the state at the raise: what the command had written stays (log 8). -/
def raiseError (opc : Byte) (start : State) (k : ErrorKind) (d : Word) (s : State) : State :=
  { s with
    errKind := some k
    errOpc := opc
    errDisp := d
    errOutLen := start.outLen
    errInPos := start.inPos
    state := .failed }

/-- An illegal command (60_exceptions.md R264, R265): ignored with `IGN` set in a rest state, else it fails the session. -/
def illegalCommand (opc : Byte) (s : State) : State :=
  if s.state.isRest then { s with ign := true } else raiseError opc s .illegalCommand 0 s

/-- The new session that `BEGIN` starts before its one check (46_dispatch.md R232). It is the return from `Failed`
(60_exceptions.md R270). `WIN` becomes unspecified (log 6). -/
def newSession (s : State) : State :=
  { s with
    state := .headerPending
    inPos := 0
    buf := 0
    used := s.unit.bits
    outLen := 0
    wptr := 0
    win := []
    winFill := none
    winStamp := s.winStamp + 1
    tree := none
    hnodes := 0
    hwidth := 0
    res := 0
    errKind := none
    errOpc := 0
    errDisp := 0
    errOutLen := 0
    errInPos := 0
    ign := false }

/-- What a command's primitive comes to: a value, or a raise (00_scope.md R9), each with the state it leaves. -/
inductive Attempt (α : Type) where
  | done (value : α) (s : State)
  | raised (k : ErrorKind) (s : State)
  deriving DecidableEq, Repr

/-- Go on with the value, or pass the raise on: "a `raise` stops it" (00_scope.md R9). -/
def Attempt.andThen {α β : Type} (r : Attempt α) (next : α → State → Attempt β) : Attempt β :=
  match r with
  | .done v s => next v s
  | .raised k s => .raised k s

/-- The state a command leaves whose primitive came to `r`: `finish` of its value, or failure entry (60_exceptions.md
R266) with diagnostic displacement 0 (R263). -/
def conclude {α : Type} (o : Opcode) (start : State) (r : Attempt α) (finish : α → State → State) : State :=
  match r with
  | .done v s => finish v s
  | .raised k s => raiseError o.code start k 0 s

/-! ### Byte cursor -/

/-- The availability check of 41_byte_cursor.md R122: `n` bytes at `INPOS` are there. -/
def State.available (s : State) (n : Nat) : Bool := decide (s.inPos.toNat + n ≤ s.inLen.toNat)

/-- `MemRead(IN, p, n)` (00_scope.md R9). -/
def State.inBytes (s : State) (p n : Nat) : List Byte := (List.range n).map fun k => s.inByte (p + k)

/-- `INPOS <- INPOS + n`. -/
def State.advance (n : Nat) (s : State) : State := { s with inPos := s.inPos + BitVec.ofNat 32 n }

/-- `RES <- v`. -/
def State.setRes (v : Word) (s : State) : State := { s with res := v }

/-! ### Bit reader -/

/-- `USED <- 8 * UNIT`: the buffer is exhausted (42_bit_reader.md R144). -/
def State.exhaust (s : State) : State := { s with used := s.unit.bits }

/-- What a refill that finds a whole unit does (42_bit_reader.md R146). -/
def State.loadUnit (s : State) : State :=
  { s with
    buf := BitVec.ofNat 32 (assemble s.byteOrd (s.inBytes s.inPos.toNat s.unit.bytes))
    inPos := s.inPos + BitVec.ofNat 32 s.unit.bytes
    used := 0 }

/-- `Refill()` (42_bit_reader.md R146). -/
def refill (s : State) : Attempt Unit :=
  if s.available s.unit.bytes then .done () s.loadUnit else .raised .truncatedStream s

/-- The next unread bit of the buffer in consumption order (42_bit_reader.md R141, R147). -/
def State.nextBit (s : State) : Bool :=
  match s.bitOrd with
  | .msbFirst => s.buf.getLsbD (s.unit.bits - 1 - s.used)
  | .lsbFirst => s.buf.getLsbD s.used

/-- The second half of `ReadBit()`: take the next bit of a buffer that holds one. -/
def takeBit (s : State) : Attempt Bool := .done s.nextBit { s with used := s.used + 1 }

/-- `ReadBit()` (42_bit_reader.md R147): a refill only when a bit is needed and the buffer is exhausted. -/
def readBit (s : State) : Attempt Bool :=
  if s.used = s.unit.bits then (refill s).andThen fun _ t => takeBit t else takeBit s

/-- Bit `i` read joins the value read so far (42_bit_reader.md R148). -/
def joinBit (ord : BitOrder) (v : Word) (i : Nat) (b : Bool) : Word :=
  match ord with
  | .msbFirst => v <<< 1 ||| bitWord b
  | .lsbFirst => v ||| bitWord b <<< i

/-- The loop of `ReadBits(c)` (42_bit_reader.md R148): `left` bits still to read, the next being bit `i`. -/
def readBitsFrom : (left i : Nat) → Word → State → Attempt Word
  | 0, _, v, s => .done v s
  | left + 1, i, v, s => (readBit s).andThen fun b t => readBitsFrom left (i + 1) (joinBit t.bitOrd v i b) t

/-- `ReadBits(c)` (42_bit_reader.md R148). -/
def readBits (c : Nat) (s : State) : Attempt Word := readBitsFrom c 0 0 s

/-! ### Window and output -/

/-- `OutAppend(b)` (43_window.md R172). -/
def outAppend (b : Byte) (s : State) : State :=
  { s with
    outMem := s.outMem.write none s.outLen.toNat b
    outLen := s.outLen + 1 }

/-- The ring's half of `Emit(b)` (43_window.md R173). -/
def ringAppend (b : Byte) (s : State) : State :=
  { s with
    win := s.win.write s.winFill s.wptr.toNat b
    wptr := BitVec.ofNat 24 ((s.wptr.toNat + 1) % s.cap.toNat) }

/-- `Emit(b)` (43_window.md R173): ring and output together. -/
def emit (b : Byte) (s : State) : State := outAppend b (ringAppend b s)

/-- `WinInit()` (43_window.md R175). -/
def winInit (s : State) : State :=
  { s with
    win := []
    winFill := some s.fill
    wptr := BitVec.ofNat 24 (s.prebuf.toNat % s.cap.toNat) }

/-- The output memory has room for `n` more bytes (43_window.md R182). -/
def State.outRoom (s : State) (n : Nat) : Bool := decide (s.outLen.toNat + n ≤ s.params.outMax)

/-- Displacement validity (43_window.md R176). -/
def State.displacementOk (s : State) (d : Nat) : Bool :=
  decide (1 ≤ d ∧ d ≤ s.prebuf.toNat + s.outLen.toNat ∧ d ≤ s.cap.toNat)

/-- The ring index `d` bytes behind the write cursor (43_window.md R180). -/
def State.sourceIndex (s : State) (d : Nat) : Nat := (s.wptr.toNat + s.cap.toNat - d) % s.cap.toNat

/-- The loop of `COPY` (43_window.md R180): one byte at a time, each read after the previous one is written. -/
def copyBytes (d : Nat) : (len : Nat) → State → State
  | 0, s => s
  | len + 1, s => copyBytes d len (emit (s.winByte (s.sourceIndex d)) s)

/-! ### Trie -/

/-- How many nodes a trie has (10_state.md R46). -/
def Trie.nodes : Trie → Nat
  | .leaf _ => 1
  | .branch l r => 1 + l.nodes + r.nodes

/-- The depth of the deepest node of a trie, its root being at depth 0 (45_huffman.md R201). -/
def Trie.depth : Trie → Nat
  | .leaf _ => 0
  | .branch l r => 1 + max l.depth r.depth

/-- `BuildNode(k)` (45_huffman.md R203) for `k = HUF_DEPTH_MAX + 1 - levels`: `levels` levels may still be created, so
the depth check fails exactly at `levels = 0`. `count` is the number of nodes created so far, returned with the node. -/
def buildNode : (levels count : Nat) → State → Attempt (Trie × Nat)
  | 0, _, s => .raised .unsupportedConfiguration s
  | levels + 1, count, s =>
    if count = s.params.hufNodesMax then .raised .unsupportedConfiguration s
    else
      (readBit s).andThen fun b t =>
        if b then
          (buildNode levels (count + 1) t).andThen fun l u =>
            (buildNode levels l.2 u).andThen fun r v => .done (.branch l.1 r.1, r.2) v
        else (readBits t.hwidth.toNat t).andThen fun v u => .done (.leaf v, count + 1) u

/-- The walk of `HWALK` from a node (45_huffman.md R204): the node is tested before a bit is read (R205); 0 is left. -/
def walk : Trie → State → Attempt Word
  | .leaf v, s => .done v s
  | .branch l r, s => (readBit s).andThen fun b t => if b then walk r t else walk l t

end Sys2Proof.Machine
end

