-- ==== Sys2Proof/Machine/Legality.lean ====
section
/-! DEFINITION. Whether a command is legal in a state (30_encoding.md R98), and the one form every meaning has: the
command's effect if it is legal, else the illegal command of 60_exceptions.md R264, R265. -/

namespace Sys2Proof.Machine

/-- The state table of 46_dispatch.md R238. -/
def Opcode.allowedIn : Opcode → SessionState → Bool
  | .nop, _ | .begin, _ => true
  | .cfgwin, st | .cfgbits, st | .cfglen, st => st != .decoding
  | .start, st | .magic, st | .seek, st => st == .headerPending
  | .finish, st | .liti, st | .litr, st | .litb, st | .copy, st => st == .decoding
  | .fail, st | .rdbytes, st | .getbit, st | .getbits, st | .align, st | .getbyte, st | .hbuild, st | .hwalk, st =>
    st == .headerPending || st == .decoding

/-- The last two tests of 30_encoding.md R98: `HBUILD` needs no trie yet, `HWALK` needs one. -/
def Opcode.trieOk : Opcode → Option Trie → Bool
  | .hbuild, t => t.isNone
  | .hwalk, t => t.isSome
  | .nop, _ | .begin, _ | .start, _ | .finish, _ | .fail, _ | .cfgwin, _ | .cfgbits, _ | .cfglen, _ | .rdbytes, _
  | .magic, _ | .seek, _ | .getbit, _ | .getbits, _ | .align, _ | .getbyte, _ | .liti, _ | .litr, _ | .litb, _
  | .copy, _ => true

/-- The tests of 30_encoding.md R98 from the third on, for a decoded command. -/
def legal (i : Instr) (s : State) : Bool :=
  i.legalValues && Opcode.allowedIn i.op s.state && Opcode.trieOk i.op s.tree

/-- Issue a command: legality is decided before anything executes (60_exceptions.md R267). -/
def issue (i : Instr) (s effect : State) : Host.Outcome State Fault Refusal :=
  .next (if legal i s then effect else illegalCommand i.op.code s)

end Sys2Proof.Machine
end

