-- ==== Sys2Proof/Machine/BitReader.lean ====
section
/-! DEFINITION. The meanings of the bit reader commands (42_bit_reader.md §3). -/

namespace Sys2Proof.Machine

/-- Set the bit-reader configuration; in HeaderPending the buffered bits are discarded (42_bit_reader.md R149). Elsewhere
`USED` and `BUF` stay (log 15). -/
def setBitConfig (bitord : BitOrder) (byteord : ByteOrder) (u : RefillUnit) (s : State) : State :=
  if s.state = .headerPending then
    { s with bitOrd := bitord, byteOrd := byteord, unit := u, used := u.bits, buf := 0 }
  else { s with bitOrd := bitord, byteOrd := byteord, unit := u }

/-- `CFGBITS bitord, byteord, unit` (42_bit_reader.md R149). -/
def execCfgbits (bitord : BitOrder) (byteord : ByteOrder) (unitcode : BitVec 2) (s : State) :
    Host.Outcome State Fault Refusal :=
  issue (.cfgbits bitord byteord unitcode) s
    (match RefillUnit.ofUcode unitcode with
     | some u => setBitConfig bitord byteord u s
     | none => illegalCommand (Opcode.code .cfgbits) s)

/-- `GETBIT` (42_bit_reader.md R150). -/
def execGetbit (s : State) : Host.Outcome State Fault Refusal :=
  issue .getbit s (conclude .getbit s (readBit s) fun b t => t.setRes (bitWord b))

/-- `GETBITS c` (42_bit_reader.md R151). -/
def execGetbits (count : BitVec 6) (s : State) : Host.Outcome State Fault Refusal :=
  issue (.getbits count) s (conclude .getbits s (readBits count.toNat s) fun v t => t.setRes v)

/-- `ALIGN` (42_bit_reader.md R152). -/
def execAlign (s : State) : Host.Outcome State Fault Refusal := issue .align s s.exhaust

/-- `GETBYTE` (42_bit_reader.md R153): the buffer is discarded before the availability check. -/
def execGetbyte (s : State) : Host.Outcome State Fault Refusal :=
  issue .getbyte s
    (if s.available 1 then (s.exhaust.setRes ((s.inByte s.inPos.toNat).setWidth 32)).advance 1
     else raiseError (Opcode.code .getbyte) s .truncatedStream 0 s.exhaust)

end Sys2Proof.Machine
end

