-- ==== Sys2Proof/Machine/ByteCursor.lean ====
section
/-! DEFINITION. The meanings of the byte cursor commands (41_byte_cursor.md §2). -/

namespace Sys2Proof.Machine

/-- `RDBYTES n` (41_byte_cursor.md R124). -/
def execRdbytes (n : BitVec 3) (s : State) : Host.Outcome State Fault Refusal :=
  issue (.rdbytes n) s
    (if s.available n.toNat then
       (s.setRes (BitVec.ofNat 32 (assemble s.byteOrd (s.inBytes s.inPos.toNat n.toNat)))).advance n.toNat
     else raiseError (Opcode.code .rdbytes) s .truncatedStream 0 s)

/-- The byte comparison of `MAGIC` (41_byte_cursor.md R125): the next `n` input bytes are the signature. -/
def State.magicMatches (s : State) (n : Nat) (value : Word) : Bool :=
  (List.range n).all fun k => s.inByte (s.inPos.toNat + k) == sigByte value k

/-- `MAGIC n, value` (41_byte_cursor.md R125). -/
def execMagic (n : BitVec 3) (value : Word) (s : State) : Host.Outcome State Fault Refusal :=
  issue (.magic n value) s
    (if s.available n.toNat then
       if s.magicMatches n.toNat value then s.advance n.toNat
       else raiseError (Opcode.code .magic) s .invalidHeader 0 s
     else raiseError (Opcode.code .magic) s .truncatedStream 0 s)

/-- `SEEK pos` (41_byte_cursor.md R126). -/
def execSeek (pos : Word) (s : State) : Host.Outcome State Fault Refusal :=
  issue (.seek pos) s
    (if pos.toNat ≤ s.inLen.toNat then { s.exhaust with inPos := pos }
     else raiseError (Opcode.code .seek) s .truncatedStream 0 s)

end Sys2Proof.Machine
end

