-- ==== Sys2Proof/Machine/Huffman.lean ====
section
/-! DEFINITION. The meanings of the Huffman commands (45_huffman.md §2). -/

namespace Sys2Proof.Machine

/-- `HBUILD w` (45_huffman.md R202): `HWIDTH` is written before the build, `TREE` and `HNODES` after it. -/
def execHbuild (width : BitVec 6) (s : State) : Host.Outcome State Fault Refusal :=
  issue (.hbuild width) s
    (conclude .hbuild s (buildNode (s.params.hufDepthMax + 1) 0 { s with hwidth := width }) fun r t =>
      { t with tree := some r.1, hnodes := BitVec.ofNat 32 r.2 })

/-- `HWALK` (45_huffman.md R204). With no trie the command is illegal (30_encoding.md R98). -/
def execHwalk (s : State) : Host.Outcome State Fault Refusal :=
  issue .hwalk s
    (match s.tree with
     | some t => conclude .hwalk s (walk t s) fun v u => u.setRes v
     | none => illegalCommand (Opcode.code .hwalk) s)

end Sys2Proof.Machine
end

