-- ==== Sys2Proof/Machine/Session.lean ====
section
/-! DEFINITION. The meanings of the session control commands (46_dispatch.md §2). -/

namespace Sys2Proof.Machine

/-- `NOP` (46_dispatch.md R231). -/
def execNop (s : State) : Host.Outcome State Fault Refusal := issue .nop s s

/-- `BEGIN` (46_dispatch.md R232): the record of a failing `BEGIN` has the values after the session reset
(60_exceptions.md R263). -/
def execBegin (s : State) : Host.Outcome State Fault Refusal :=
  issue .begin s
    (if s.inLen.toNat ≤ s.params.inMax then newSession s
     else raiseError (Opcode.code .begin) (newSession s) .unsupportedConfiguration 0 (newSession s))

/-- The configuration checks of `START`, in the order of 46_dispatch.md R233: each raises the same kind. -/
def State.startOk (s : State) : Bool :=
  decide (1 ≤ s.cap.toNat ∧ s.cap.toNat ≤ s.params.winMax) && decide (s.prebuf.toNat ≤ s.cap.toNat)
    && decide (s.declen.toNat ≤ s.params.outMax)

/-- `START` (46_dispatch.md R233). -/
def execStart (s : State) : Host.Outcome State Fault Refusal :=
  issue .start s
    (if s.startOk then { winInit s with state := .decoding }
     else raiseError (Opcode.code .start) s .unsupportedConfiguration 0 s)

/-- `FINISH` (46_dispatch.md R236). -/
def execFinish (s : State) : Host.Outcome State Fault Refusal := issue .finish s { s with state := .complete }

/-- `FAIL kind, diag` (46_dispatch.md R237): the recorded displacement is the `A` operand (60_exceptions.md R263). -/
def execFail (kind : BitVec 3) (diag : Word) (s : State) : Host.Outcome State Fault Refusal :=
  issue (.fail kind diag) s
    (match failKind kind with
     | some k => raiseError (Opcode.code .fail) s k diag s
     | none => illegalCommand (Opcode.code .fail) s)

/-- `CFGLEN n` (46_dispatch.md R234). -/
def execCfglen (n : Word) (s : State) : Host.Outcome State Fault Refusal := issue (.cfglen n) s { s with declen := n }

end Sys2Proof.Machine
end

