-- ==== Sys2Proof/Machine/Window.lean ====
section
/-! DEFINITION. The meanings of the circular window commands (43_window.md). -/

namespace Sys2Proof.Machine

/-- `CFGWIN cap, prebuf, fill` (43_window.md R174): the values are checked by `START`, not here. -/
def execCfgwin (cap prebuf : Field24) (fill : Byte) (s : State) : Host.Outcome State Fault Refusal :=
  issue (.cfgwin cap prebuf fill) s { s with cap := cap, prebuf := prebuf, fill := fill }

/-- `LITI b` (43_window.md R177). -/
def execLiti (byte : Byte) (s : State) : Host.Outcome State Fault Refusal :=
  issue (.liti byte) s
    (if s.outRoom 1 then emit byte s else raiseError (Opcode.code .liti) s .unsupportedConfiguration 0 s)

/-- `LITR` (43_window.md R178): the low byte of `RES`. -/
def execLitr (s : State) : Host.Outcome State Fault Refusal :=
  issue .litr s
    (if s.outRoom 1 then emit (s.res.extractLsb' 0 8) s
     else raiseError (Opcode.code .litr) s .unsupportedConfiguration 0 s)

/-- `LITB` (43_window.md R179): output capacity is checked before input availability. -/
def execLitb (s : State) : Host.Outcome State Fault Refusal :=
  issue .litb s
    (if s.outRoom 1 then
       if s.available 1 then
         emit (s.inByte s.inPos.toNat) ((s.advance 1).setRes ((s.inByte s.inPos.toNat).setWidth 32))
       else raiseError (Opcode.code .litb) s .truncatedStream 0 s
     else raiseError (Opcode.code .litb) s .unsupportedConfiguration 0 s)

/-- `COPY d, len` (43_window.md R180): displacement before output capacity, both before any byte is written. -/
def execCopy (disp : Field24) (len : Word) (s : State) : Host.Outcome State Fault Refusal :=
  issue (.copy disp len) s
    (if s.displacementOk disp.toNat then
       if s.outRoom len.toNat then copyBytes disp.toNat len.toNat s
       else raiseError (Opcode.code .copy) s .unsupportedConfiguration 0 s
     else raiseError (Opcode.code .copy) s .displacementOutOfRange (disp.setWidth 32) s)

end Sys2Proof.Machine
end

