-- ==== Sys2Proof/Machine/Dispatch.lean ====
section
/-! DEFINITION. The dispatch: one arm per command, each one call of its meaning. -/

namespace Sys2Proof.Machine

/-- Execute a decoded command. -/
def exec (i : Instr) (s : State) : Host.Outcome State Fault Refusal :=
  match i with
  | .nop => Sys2Proof.Machine.execNop s
  | .begin => Sys2Proof.Machine.execBegin s
  | .start => Sys2Proof.Machine.execStart s
  | .finish => Sys2Proof.Machine.execFinish s
  | .fail kind diag => Sys2Proof.Machine.execFail kind diag s
  | .cfgwin cap prebuf fill => Sys2Proof.Machine.execCfgwin cap prebuf fill s
  | .cfgbits bitord byteord unitcode => Sys2Proof.Machine.execCfgbits bitord byteord unitcode s
  | .cfglen n => Sys2Proof.Machine.execCfglen n s
  | .rdbytes n => Sys2Proof.Machine.execRdbytes n s
  | .magic n value => Sys2Proof.Machine.execMagic n value s
  | .seek pos => Sys2Proof.Machine.execSeek pos s
  | .getbit => Sys2Proof.Machine.execGetbit s
  | .getbits count => Sys2Proof.Machine.execGetbits count s
  | .align => Sys2Proof.Machine.execAlign s
  | .getbyte => Sys2Proof.Machine.execGetbyte s
  | .liti byte => Sys2Proof.Machine.execLiti byte s
  | .litr => Sys2Proof.Machine.execLitr s
  | .litb => Sys2Proof.Machine.execLitb s
  | .copy disp len => Sys2Proof.Machine.execCopy disp len s
  | .hbuild width => Sys2Proof.Machine.execHbuild width s
  | .hwalk => Sys2Proof.Machine.execHwalk s

end Sys2Proof.Machine
end

