-- ==== Sys2Proof/Machine/Bus.lean ====
section
/-! DEFINITION. The host interface: the address map and the register map (20_memory.md §1-§4; 10_state.md §2), host reads
and writes, and the platform's reset (70_reset_and_hazards.md §1). -/

namespace Sys2Proof.Machine

/-- The registers of 10_state.md R22-R41. -/
inductive Reg where
  | id | status | cmdA | cmdOp | res | errInfo | errDisp | errOutLen | errInPos | inLen | inPos | remain | outLen | declen
  | wcap | wpre | bcfg | wptr | bstate | buf | hnodes | hwidth | pWinMax | pInMax | pOutMax | pHufNodesMax | pHufDepthMax
  deriving DecidableEq, Repr

/-- The offset of each register in the register window (10_state.md R22-R41). -/
def Reg.offset : Reg → Nat
  | .id => 0x00
  | .status => 0x04
  | .cmdA => 0x08
  | .cmdOp => 0x0C
  | .res => 0x10
  | .errInfo => 0x14
  | .errDisp => 0x18
  | .errOutLen => 0x1C
  | .errInPos => 0x20
  | .inLen => 0x24
  | .inPos => 0x28
  | .remain => 0x2C
  | .outLen => 0x30
  | .declen => 0x34
  | .wcap => 0x38
  | .wpre => 0x3C
  | .bcfg => 0x40
  | .wptr => 0x44
  | .bstate => 0x48
  | .buf => 0x4C
  | .hnodes => 0x50
  | .hwidth => 0x54
  | .pWinMax => 0x60
  | .pInMax => 0x64
  | .pOutMax => 0x68
  | .pHufNodesMax => 0x6C
  | .pHufDepthMax => 0x70

/-- Every register. -/
def Reg.all : List Reg :=
  [.id, .status, .cmdA, .cmdOp, .res, .errInfo, .errDisp, .errOutLen, .errInPos, .inLen, .inPos, .remain, .outLen, .declen,
    .wcap, .wpre, .bcfg, .wptr, .bstate, .buf, .hnodes, .hwidth, .pWinMax, .pInMax, .pOutMax, .pHufNodesMax,
    .pHufDepthMax]

/-- The register at an offset of the register window; every other offset is reserved (10_state.md R43). -/
def Reg.ofOffset (off : Nat) : Option Reg := Reg.all.find? fun r => r.offset == off

/-- The data-path registers that read 0 in Failed (10_state.md R42). -/
def Reg.hiddenInFailed : Reg → Bool
  | .res | .inPos | .remain | .outLen | .wptr | .bstate | .buf | .hnodes | .hwidth => true
  | .id | .status | .cmdA | .cmdOp | .errInfo | .errDisp | .errOutLen | .errInPos | .inLen | .declen | .wcap | .wpre
  | .bcfg | .pWinMax | .pInMax | .pOutMax | .pHufNodesMax | .pHufDepthMax => false

/-- `REMAIN` (10_state.md R36): `IN_LEN - INPOS`; a free value where `INPOS` is above `IN_LEN` (log 9). -/
def State.remain (s : State) : Word :=
  if s.inPos.toNat ≤ s.inLen.toNat then BitVec.ofNat 32 (s.inLen.toNat - s.inPos.toNat)
  else Config.freeRemain s.inLen s.inPos

/-- `BCFG` (10_state.md R39). -/
def State.bcfg (s : State) : Word :=
  (0 : BitVec 28) ++ s.unit.ucode ++ BitVec.ofBool s.byteOrd.bit ++ BitVec.ofBool s.bitOrd.bit

/-- What a register reads outside Failed (10_state.md R22-R41). -/
def regValue (s : State) : Reg → Word
  | .id => 0x4B320001
  | .status => s.status
  | .cmdA => s.cmdA
  | .cmdOp => 0
  | .res => s.res
  | .errInfo => (0 : BitVec 16) ++ s.errOpc ++ errKindCode s.errKind
  | .errDisp => s.errDisp
  | .errOutLen => s.errOutLen
  | .errInPos => s.errInPos
  | .inLen => s.inLen
  | .inPos => s.inPos
  | .remain => s.remain
  | .outLen => s.outLen
  | .declen => s.declen
  | .wcap => (0 : BitVec 8) ++ s.cap
  | .wpre => s.fill ++ s.prebuf
  | .bcfg => s.bcfg
  | .wptr => if s.state = .idle ∨ s.state = .headerPending then 0 else (0 : BitVec 8) ++ s.wptr
  | .bstate => (BitVec.ofNat 6 s.used).setWidth 32
  | .buf => s.buf
  | .hnodes => if s.tree = none then 0 else s.hnodes
  | .hwidth => if s.tree = none then 0 else s.hwidth.setWidth 32
  | .pWinMax => BitVec.ofNat 32 s.params.winMax
  | .pInMax => BitVec.ofNat 32 s.params.inMax
  | .pOutMax => BitVec.ofNat 32 s.params.outMax
  | .pHufNodesMax => BitVec.ofNat 32 s.params.hufNodesMax
  | .pHufDepthMax => BitVec.ofNat 32 s.params.hufDepthMax

/-- What a host read of a register returns (10_state.md R42 in Failed). -/
def readReg (s : State) (r : Reg) : Word := if r.hiddenInFailed ∧ s.state = .failed then 0 else regValue s r

/-- Where a local offset lies (20_memory.md R61); `k` is the index of the window's word, `4k` its first byte (R62). -/
inductive Region where
  | reg (r : Reg)
  | inWord (k : Nat)
  | outWord (k : Nat)
  | reserved
  deriving DecidableEq, Repr

/-- The map of 20_memory.md R61 over the 26-bit local offsets. -/
def regionOf (p : Params) (off : Nat) : Region :=
  if off < 0x100 then
    match Reg.ofOffset off with
    | some r => .reg r
    | none => .reserved
  else if 0x1000000 ≤ off ∧ off < 0x1000000 + p.inMax then .inWord ((off - 0x1000000) / 4)
  else if 0x2000000 ≤ off ∧ off < 0x2000000 + p.outMax then .outWord ((off - 0x2000000) / 4)
  else .reserved

/-- The local offset of a platform address, or none where the address is not the block's (20_memory.md R61; log 4). -/
def localOffset (p : Params) (addr : Nat) : Option Nat :=
  if p.swdBase ≤ addr ∧ addr < p.swdBase + 2 ^ 26 then some (addr - p.swdBase) else none

/-- An aligned 32-bit access (20_memory.md R62, R66). -/
def accessOk (off bits : Nat) : Bool := decide (off % 4 = 0 ∧ bits = 32)

/-- A bus word from its four byte lanes, lane `j` holding byte `4k + j` (20_memory.md R62). -/
def laneWord (byteAt : Nat → Byte) (k : Nat) : Word :=
  byteAt (4 * k + 3) ++ byteAt (4 * k + 2) ++ byteAt (4 * k + 1) ++ byteAt (4 * k)

/-- What a host read sees of byte `i` of the IN window (20_memory.md R62, R64). -/
def State.inWindowByte (s : State) (i : Nat) : Byte := if i < s.params.inMax then s.inByte i else 0

/-- What a host read sees of byte `i` of the OUT window (20_memory.md R62, R65). -/
def State.outWindowByte (s : State) (i : Nat) : Byte :=
  if s.state = .complete ∧ i < s.outLen.toNat ∧ i < s.params.outMax then s.outByte i else 0

/-- What a host read at a local offset returns (20_memory.md R61-R67). -/
def hostRead (s : State) (off bits : Nat) : Word :=
  if accessOk off bits then
    match regionOf s.params off with
    | .reg r => readReg s r
    | .inWord k => laneWord s.inWindowByte k
    | .outWord k => laneWord s.outWindowByte k
    | .reserved => 0
  else 0

/-- Store lane `j` of a word written to word `k` of the IN window (20_memory.md R63). -/
def storeLane (k : Nat) (v : Word) (j : Nat) (s : State) : State :=
  if 4 * k + j < s.params.inMax then { s with inMem := s.inMem.write none (4 * k + j) (laneByte v j) } else s

/-- A host write to word `k` of the IN window in a rest state (20_memory.md R63). -/
def storeWord (k : Nat) (v : Word) (s : State) : State :=
  storeLane k v 3 (storeLane k v 2 (storeLane k v 1 (storeLane k v 0 s)))

/-- Execute a command word (30_encoding.md R92, R98): an illegal word is the illegal command of 60_exceptions.md R264,
R265. -/
def execWord (w : CmdWord) (s : State) : Host.Outcome State Fault Refusal :=
  match decode w with
  | .ok i => exec i s
  | .error _ => .next (illegalCommand (opcField w) s)

/-- A host write to a register (10_state.md R22-R43): only `CMD_A`, `CMD_OP` and `IN_LEN` have an effect (20_memory.md
R68). -/
def writeReg (r : Reg) (v : Word) (s : State) : Host.Outcome State Fault Refusal :=
  match r with
  | .cmdA => .next { s with cmdA := v }
  | .cmdOp => execWord (v ++ s.cmdA) s
  | .inLen => .next (if s.state.isRest then { s with inLen := v } else s)
  | .id | .status | .res | .errInfo | .errDisp | .errOutLen | .errInPos | .inPos | .remain | .outLen | .declen | .wcap
  | .wpre | .bcfg | .wptr | .bstate | .buf | .hnodes | .hwidth | .pWinMax | .pInMax | .pOutMax | .pHufNodesMax
  | .pHufDepthMax => .next s

/-- A host write at a local offset (20_memory.md R61-R67). -/
def hostWrite (off bits : Nat) (v : Word) (s : State) : Host.Outcome State Fault Refusal :=
  if accessOk off bits then
    match regionOf s.params off with
    | .reg r => writeReg r v s
    | .inWord k => .next (if s.state.isRest then storeWord k v s else s)
    | .outWord _ => .next s
    | .reserved => .next s
  else .next s

/-- Reset by the platform (70_reset_and_hazards.md R300, R301): every element takes its value of 10_state.md R49 and the
three byte memories become unspecified. The block's constants, the pending host events and the host's last read stay
(log 10). -/
def platformReset (s : State) : State :=
  { State.reset with
    params := s.params
    winStamp := s.winStamp + 1
    memStamp := s.memStamp + 1
    bus := s.bus
    rdata := s.rdata }

/-- Perform one host event. An access to an address that is not the block's does nothing to it (log 4). -/
def serve (e : HostEvent) (s : State) : Host.Outcome State Fault Refusal :=
  match e with
  | .read addr bits =>
    match localOffset s.params addr with
    | some off => .next { s with rdata := hostRead s off bits }
    | none => .next s
  | .write addr bits data =>
    match localOffset s.params addr with
    | some off => hostWrite off bits data s
    | none => .next s
  | .reset => .next (platformReset s)
  | .resetDuringAccess => .refused .resetDuringAccess

/-- The state whose next host event writes the high half of command word `w` to `CMD_OP`, with the low half in `CMD_A`
(30_encoding.md R92). -/
def placeCommand (w : CmdWord) (s : State) : State :=
  { s with
    cmdA := aField w
    bus := .write (s.params.swdBase + Reg.offset .cmdOp) 32 (w.extractLsb' 32 32) :: s.bus }

end Sys2Proof.Machine
end

