-- ==== Sys2Proof/Machine/Step.lean ====
section
/-! DEFINITION. One step of the machine: the first pending host event is performed, a command running to completion within
it (70_reset_and_hazards.md R310; 20_memory.md R72). -/

namespace Sys2Proof.Machine

/-- One step. With no event pending the block holds its state (60_exceptions.md R279). -/
def step (s : State) : Host.Outcome State Fault Refusal :=
  match s.bus with
  | [] => .next s
  | e :: rest => serve e { s with bus := rest }

/-- `s` about to execute the command word whose bits are `w`, the bits from `nbits` up being 0: `CMD_A` holds the word's
low half and the next host event writes its high half to `CMD_OP` (30_encoding.md R92; log 1). -/
def State.withFetchWord (s : State) (nbits w : Nat) : State := placeCommand (BitVec.ofNat 64 (w % 2 ^ nbits)) s

end Sys2Proof.Machine
end

