-- ==== Sys2Proof/Safety.lean ====
section
/-! DEFINITION. What counts as a good state: the facts the spec states of a K2-SWD at every moment, as one invariant that
names each with its rule. -/

namespace Sys2Proof.Machine

/-- A memory lists only bytes below a bound (10_state.md R20: `IN[0..IN_MAX-1]` and so on). -/
abbrev Memory.below (m : Memory) (bound : Nat) : Prop := ∀ c ∈ m, c.1 < bound

/-- Every leaf value of a trie fits in `w` bits (10_state.md R46). -/
def Trie.fits (w : Nat) : Trie → Prop
  | .leaf v => v.toNat < 2 ^ w
  | .branch l r => l.fits w ∧ r.fits w

/-- The configuration that `START` checked holds throughout Decoding (46_dispatch.md R233; 43_window.md R170), and the
ring is filled and indexed within `CAP` (10_state.md R44; 43_window.md R175). -/
structure State.DecodingOk (s : State) : Prop where
  capPos : 1 ≤ s.cap.toNat
  capMax : s.cap.toNat ≤ s.params.winMax
  prebufLe : s.prebuf.toNat ≤ s.cap.toNat
  declenLe : s.declen.toNat ≤ s.params.outMax
  wptrLt : s.wptr.toNat < s.cap.toNat
  filled : s.winFill = some s.fill
  ring : s.win.below s.cap.toNat

/-- The cursors of a running session (10_state.md R36, R45; 41_byte_cursor.md R121; 46_dispatch.md R232). -/
structure State.CursorsOk (s : State) : Prop where
  inPosLe : s.inPos.toNat ≤ s.inLen.toNat
  inLenLe : s.inLen.toNat ≤ s.params.inMax
  usedLe : s.used ≤ s.unit.bits
  bufLt : s.buf.toNat < 2 ^ s.unit.bits

/-- The built trie is within its limits and agrees with its registers (10_state.md R41, R46; 45_huffman.md R201, R206). -/
structure State.TrieOk (s : State) (t : Trie) : Prop where
  count : t.nodes = s.hnodes.toNat
  nodesLe : t.nodes ≤ s.params.hufNodesMax
  depthLe : t.depth ≤ s.params.hufDepthMax
  fits : t.fits s.hwidth.toNat
  widthPos : 1 ≤ s.hwidth.toNat
  widthLe : s.hwidth.toNat ≤ 32

/-- The invariant of the machine: it holds at reset and every step keeps it (Obligations.lean states both). -/
structure State.Inv (s : State) : Prop where
  /-- The block is one the spec admits (00_scope.md R5). -/
  params : s.params.wf
  /-- `IN` is canonical and within `IN_MAX` (10_state.md R48). -/
  inWf : s.inMem.wf none ∧ s.inMem.below s.params.inMax
  /-- `OUT` is canonical and within `OUT_MAX` (10_state.md R47). -/
  outWf : s.outMem.wf none ∧ s.outMem.below s.params.outMax
  /-- `WIN` is canonical over what it was filled with (10_state.md R44). -/
  winWf : s.win.wf s.winFill
  /-- `OUTLEN` never exceeds `OUT_MAX` (00_scope.md R6; 43_window.md R182). -/
  outLenLe : s.outLen.toNat ≤ s.params.outMax
  /-- `USED` is 0..32 (10_state.md R20). -/
  usedLe : s.used ≤ 32
  /-- A running session keeps its cursors in range. -/
  cursors : s.state.isRest = false → s.CursorsOk
  /-- Decoding runs under a checked configuration. -/
  decoding : s.state = .decoding → s.DecodingOk
  /-- `WPTR` is 0 in Idle and HeaderPending (10_state.md R41). -/
  wptrIdle : s.state = .idle ∨ s.state = .headerPending → s.wptr = 0
  /-- In Idle no session exists (10_state.md R24, R49). -/
  idle : s.state = .idle → s.tree = none ∧ s.inPos = 0 ∧ s.outLen = 0 ∧ s.res = 0
  /-- A built trie is within its limits. -/
  trie : ∀ t, s.tree = some t → s.TrieOk t
  /-- `HNODES` and `HWIDTH` are 0 with no trie (10_state.md R41). -/
  noTrie : s.tree = none → s.state ≠ .failed → s.hnodes = 0 ∧ s.hwidth = 0
  /-- An error kind is recorded exactly in Failed (60_exceptions.md R261, R266). -/
  record : s.errKind = none ↔ s.state ≠ .failed
  /-- With no error recorded the rest of the record is 0 (10_state.md R31-R34). -/
  noRecord : s.errKind = none → s.errOpc = 0 ∧ s.errDisp = 0 ∧ s.errOutLen = 0 ∧ s.errInPos = 0

/-! ### The unread bit stream, as claims speak of it

The bits a session still has to read, in consumption order (42_bit_reader.md R141, R144): first the unread bits of the
buffer, then those of the refill units that follow at `INPOS`. Unit 0 is the buffer; unit `k + 1` is the `k`-th one after
it. -/

/-- Bit `p`, in consumption order, of a refill unit of `ub` bits (42_bit_reader.md R141). -/
def unitBit (ord : BitOrder) (ub : Nat) (v : Word) (p : Nat) : Bool :=
  match ord with
  | .msbFirst => v.getLsbD (ub - 1 - p)
  | .lsbFirst => v.getLsbD p

/-- Refill unit `k` of the stream (42_bit_reader.md R146). -/
def State.unitNo (s : State) : Nat → Word
  | 0 => s.buf
  | k + 1 => BitVec.ofNat 32 (assemble s.byteOrd (s.inBytes (s.inPos.toNat + k * s.unit.bytes) s.unit.bytes))

/-- The `i`-th unread bit. -/
def State.streamBit (s : State) (i : Nat) : Bool :=
  unitBit s.bitOrd s.unit.bits (s.unitNo ((s.used + i) / s.unit.bits)) ((s.used + i) % s.unit.bits)

/-- How many refills reading `c` bits takes: a refill only when a bit is needed (42_bit_reader.md R147). -/
def State.unitsFor (s : State) (c : Nat) : Nat := (s.used + c - 1) / s.unit.bits

/-- The input holds every whole unit that reading `c` bits takes (42_bit_reader.md R146). -/
abbrev State.streamHas (s : State) (c : Nat) : Prop :=
  s.inPos.toNat + s.unitsFor c * s.unit.bytes ≤ s.inLen.toNat

/-- The state with the next `c` bits consumed. -/
def State.skipBits (s : State) (c : Nat) : State :=
  { s with
    inPos := s.inPos + BitVec.ofNat 32 (s.unitsFor c * s.unit.bytes)
    buf := s.unitNo (s.unitsFor c)
    used := s.used + c - s.unitsFor c * s.unit.bits }

/-- The next `c` bits, first read first. -/
def State.nextBits (s : State) (c : Nat) : List Bool := (List.range c).map s.streamBit

/-- The number a group of bits stands for: MSB-first, the first bit read is the most significant; LSB-first, the least
(42_bit_reader.md R148). -/
def bitsValue (ord : BitOrder) (bits : List Bool) : Nat :=
  match ord with
  | .msbFirst => bits.foldl (fun v b => 2 * v + b.toNat) 0
  | .lsbFirst => bits.foldr (fun b v => b.toNat + 2 * v) 0

/-- The `w` bits that describe a leaf value, first read first (42_bit_reader.md R148). -/
def valueBits (ord : BitOrder) (w : Nat) (v : Word) : List Bool :=
  match ord with
  | .msbFirst => (List.range w).map fun i => v.getLsbD (w - 1 - i)
  | .lsbFirst => (List.range w).map fun i => v.getLsbD i

/-- The bits that describe a trie with `w`-bit leaves in pre-order (45_huffman.md R203): 1 and the two children for a
branch, 0 and the value for a leaf. -/
def Trie.describe (ord : BitOrder) (w : Nat) : Trie → List Bool
  | .leaf v => false :: valueBits ord w v
  | .branch l r => true :: (l.describe ord w ++ r.describe ord w)

/-- Node `j` of a trie, counted from 0 in pre-order, is at depth `k`, and its description begins at bit `n` of the trie's
(45_huffman.md R201, R203): `j` nodes are created and `n` bits consumed before it. -/
def Trie.NodeAt (ord : BitOrder) (w : Nat) : Trie → (j n k : Nat) → Prop
  | .leaf _, j, n, k => j = 0 ∧ n = 0 ∧ k = 0
  | .branch l r, j, n, k =>
    (j = 0 ∧ n = 0 ∧ k = 0) ∨
    (∃ j' n' k', l.NodeAt ord w j' n' k' ∧ j = 1 + j' ∧ n = 1 + n' ∧ k = 1 + k') ∨
    (∃ j' n' k', r.NodeAt ord w j' n' k' ∧ j = 1 + l.nodes + j' ∧ n = 1 + (l.describe ord w).length + n' ∧ k = 1 + k')

/-- The leaf value a path leads to, 0 being left and 1 right (45_huffman.md R204). -/
def Trie.follow : Trie → List Bool → Option Word
  | .leaf v, [] => some v
  | .branch l r, b :: p => if b then r.follow p else l.follow p
  | .leaf _, _ :: _ => none
  | .branch _ _, [] => none

/-- `t` is `s` with byte `b` appended to ring and output (43_window.md R172, R173), and nothing else changed. -/
structure Appended (s t : State) (b : Byte) : Prop where
  frame : t = { s with win := t.win, wptr := t.wptr, outMem := t.outMem, outLen := t.outLen }
  ringByte : t.winByte s.wptr.toNat = b
  ringElse : ∀ i, i ≠ s.wptr.toNat → t.winByte i = s.winByte i
  wptr : t.wptr.toNat = (s.wptr.toNat + 1) % s.cap.toNat
  outByte : t.outByte s.outLen.toNat = b
  outElse : ∀ i, i ≠ s.outLen.toNat → t.outByte i = s.outByte i
  outLen : t.outLen.toNat = s.outLen.toNat + 1

/-- `t` is `s` in Failed with the error record of 60_exceptions.md R266 and nothing else changed. -/
abbrev FailedWith (s t : State) (k : ErrorKind) (opc : Byte) (disp : Word) : Prop :=
  t = { s with
        state := .failed
        errKind := some k
        errOpc := opc
        errDisp := disp
        errOutLen := s.outLen
        errInPos := s.inPos }

/-- The kind that operand `kind` of `FAIL` names (60_exceptions.md R261). -/
abbrev NamesKind (kind : BitVec 3) (k : ErrorKind) : Prop :=
  (kind.toNat = 1 ∧ k = .invalidHeader) ∨ (kind.toNat = 2 ∧ k = .truncatedStream) ∨
  (kind.toNat = 3 ∧ k = .displacementOutOfRange) ∨ (kind.toNat = 4 ∧ k = .unsupportedConfiguration)

/-- Byte `k` of the `d` bytes that precede the write cursor, taken round (43_window.md R181). -/
def State.behind (s : State) (d k : Nat) : Byte :=
  s.winByte ((s.wptr.toNat + s.cap.toNat - d + k % d) % s.cap.toNat)

/-- `t` is `s` with `n` bytes copied from `d` bytes behind the write cursor (43_window.md R180, R181): the `k`-th copied byte
is byte `k mod d` of the `d` bytes that preceded the copy, in the output and in the ring (where a byte of the same copy has
not taken its place), and nothing else changed. -/
structure Copied (s t : State) (d n : Nat) : Prop where
  frame : t = { s with win := t.win, wptr := t.wptr, outMem := t.outMem, outLen := t.outLen }
  wptr : t.wptr.toNat = (s.wptr.toNat + n) % s.cap.toNat
  outLen : t.outLen.toNat = s.outLen.toNat + n
  outNew : ∀ k, k < n → t.outByte (s.outLen.toNat + k) = s.behind d k
  outElse : ∀ i, i < s.outLen.toNat ∨ s.outLen.toNat + n ≤ i → t.outByte i = s.outByte i
  ringNew : ∀ k, k < n → n ≤ k + s.cap.toNat → t.winByte ((s.wptr.toNat + k) % s.cap.toNat) = s.behind d k
  ringElse : ∀ i, (∀ k, k < n → (s.wptr.toNat + k) % s.cap.toNat ≠ i) → t.winByte i = s.winByte i

/-- A call state: a session is running (00_scope.md §7). -/
abbrev State.InSession (s : State) : Prop := s.state = .headerPending ∨ s.state = .decoding

/-- Command `i` is handled in `s` as an illegal command (60_exceptions.md R264, R265): in a rest state it is ignored and
`IGN` is set; in a call state it fails the session and nothing of it executes. -/
abbrev HandledAsIllegal (i : Instr) (s : State) : Prop :=
  (¬ s.InSession → exec i s = .next { s with ign := true }) ∧
  (s.InSession → ∃ t, exec i s = .next t ∧ FailedWith s t .illegalCommand i.op.code 0)

/-- Two states that a host cannot tell apart after a failure: the same but for the session data that 60_exceptions.md R266
lists; outside Failed the same but for stale bytes of `OUT` that the session has not produced (10_state.md R47). -/
structure Indistinct (s t : State) : Prop where
  same : t = { s with
    res := t.res
    inPos := t.inPos
    buf := t.buf
    used := t.used
    win := t.win
    winFill := t.winFill
    wptr := t.wptr
    outMem := t.outMem
    outLen := t.outLen
    tree := t.tree
    hnodes := t.hnodes
    hwidth := t.hwidth }
  live : s.state ≠ .failed → t = { s with outMem := t.outMem } ∧ ∀ i, i < s.outLen.toNat → t.outByte i = s.outByte i

/-- Every element of 10_state.md R20 has its reset value (10_state.md R49). The contents of `IN`, `WIN` and `OUT` are
unspecified: none of their bytes is listed. -/
abbrev ResetValues (t : State) : Prop :=
  t.state = .idle ∧ t.ign = false ∧ t.tree = none ∧ t.trieBit = false ∧ t.cmdA = 0 ∧ t.res = 0 ∧
  t.errKind = none ∧ t.errOpc = 0 ∧ t.errDisp = 0 ∧ t.errOutLen = 0 ∧ t.errInPos = 0 ∧
  t.inLen = 0 ∧ t.inPos = 0 ∧ t.bitOrd = .msbFirst ∧ t.byteOrd = .little ∧ t.unit = .one ∧ t.buf = 0 ∧ t.used = 8 ∧
  t.cap = 0x1000 ∧ t.prebuf = 0 ∧ t.fill = 0 ∧ t.wptr = 0 ∧ t.outLen = 0 ∧ t.declen = 0 ∧ t.hnodes = 0 ∧ t.hwidth = 0 ∧
  t.inMem = [] ∧ t.win = [] ∧ t.winFill = none ∧ t.outMem = []

/-- The next host event writes command word `w`, whose low half is in `CMD_A` (30_encoding.md R92). -/
abbrev Issues (s : State) (w : CmdWord) : Prop :=
  ∃ v rest, s.bus = .write (s.params.swdBase + 0x0C) 32 v :: rest ∧ w = v ++ s.cmdA

/-- `t` is `s` with a new session begun (46_dispatch.md R232), whatever `WIN` now holds. -/
abbrev NewSession (s t : State) : Prop :=
  t = { s with
    state := .headerPending
    inPos := 0
    buf := 0
    used := 8 * s.unit.bytes
    outLen := 0
    wptr := 0
    tree := none
    hnodes := 0
    hwidth := 0
    res := 0
    errKind := none
    errOpc := 0
    errDisp := 0
    errOutLen := 0
    errInPos := 0
    ign := false
    win := t.win
    winFill := t.winFill
    winStamp := t.winStamp }

end Sys2Proof.Machine
end

