-- ==== Sys2Proof/Certificates/Slice0/Obligations.lean ====
section
/-! DEFINITION. The statements for the provers. Each docstring names the rule of spec/ it formalises. -/

open Sys2Proof Sys2Proof.Machine

/-! ### Encoding (30_encoding.md) -/

/-- 30_encoding.md R91, R94, R100: the decoder gives back every well-formed command from its word, with every operand at
every value the encoding admits. -/
def Obligations.DecodeOfEncodeIsTheCommand : Prop :=
  ∀ i : Instr, i.WellFormed → decode (encode i) = .ok i

/-- 30_encoding.md R90, R91, R94: each word has at most one meaning; a decoded word is the word of its command, which is
well-formed. -/
def Obligations.EncodeOfDecodeIsTheWord : Prop :=
  ∀ (w : CmdWord) (i : Instr), decode w = .ok i → encode i = w ∧ i.WellFormed

/-- 30_encoding.md R95, R96, R98: the decoder refuses exactly the words that match no opcode's pattern under its mask or
whose fields are outside the legal values, and no word matches two patterns. -/
def Obligations.DecoderRefusesExactlyTheIllegalWords : Prop :=
  (∀ w : CmdWord, (∃ e, decode w = .error e) ↔
    ∀ o : Opcode, w &&& o.mask = o.pattern → ¬ (o.withFields (xField w) (aField w)).WellFormed) ∧
  (∀ (w : CmdWord) (o p : Opcode), w &&& o.mask = o.pattern → w &&& p.mask = p.pattern → o = p)

/-- Words written out in 95_test_vectors.md decode to the commands they stand for, one of each family at least. -/
def Obligations.SampleWordsDecode : Prop :=
  decode 0x0000000000000000 = .ok .nop ∧
  decode 0x0100000000000000 = .ok .begin ∧
  decode 0x0400000100000007 = .ok (.fail 1 7) ∧
  decode 0x08000FEE20001000 = .ok (.cfgwin 0x1000 0xFEE 0x20) ∧
  decode 0x0900000000000007 = .ok (.cfgbits .lsbFirst .big 1) ∧
  decode 0x11000004307A6159 = .ok (.magic 4 0x307A6159) ∧
  decode 0x1900000C00000000 = .ok (.getbits 12) ∧
  decode 0x2000000000000041 = .ok (.liti 0x41) ∧
  decode 0x2300000100000005 = .ok (.copy 1 5) ∧
  decode 0x2800000800000000 = .ok (.hbuild 8) ∧
  decode 0x2000000000000141 = .error (.mustBeZero .liti) ∧
  decode 0x1000000500000000 = .error (.illegalValue (.rdbytes 5)) ∧
  decode 0xFF00000000000000 = .error (.unassignedOpcode 0xFF)

/-- 30_encoding.md R96: the listed opcode values are unassigned; a word with one is an illegal command in every state. -/
def Obligations.UnassignedOpcodesAreIllegalCommands : Prop :=
  ∀ w : CmdWord,
    (let n := (opcField w).toNat
     (0x05 ≤ n ∧ n ≤ 0x07) ∨ (0x0B ≤ n ∧ n ≤ 0x0F) ∨ (0x13 ≤ n ∧ n ≤ 0x17) ∨ (0x1C ≤ n ∧ n ≤ 0x1F) ∨
     (0x24 ≤ n ∧ n ≤ 0x27) ∨ 0x2A ≤ n) →
    decode w = .error (.unassignedOpcode (opcField w)) ∧
    (∀ s : State, ¬ s.InSession → execWord w s = .next { s with ign := true }) ∧
    (∀ s : State, s.InSession → ∃ t, execWord w s = .next t ∧ FailedWith s t .illegalCommand (opcField w) 0)

/-! ### The step and the host interface (20_memory.md, 70_reset_and_hazards.md) -/

/-- 30_encoding.md R92: the host writes `A` to `CMD_A`, which stores it; its write of `v` to `CMD_OP` executes the word
`{v, CMD_A}`, and the step is then exactly `exec` of the decoded command. -/
def Obligations.CommandIssueExecutesTheWord : Prop :=
  (∀ (s : State) (a : Word) (rest : List HostEvent),
    s.bus = .write (s.params.swdBase + 0x08) 32 a :: rest → step s = .next { s with bus := rest, cmdA := a }) ∧
  (∀ (s : State) (v : Word) (rest : List HostEvent) (i : Instr),
    s.bus = .write (s.params.swdBase + 0x0C) 32 v :: rest → decode (v ++ s.cmdA) = .ok i →
    step s = exec i { s with bus := rest }) ∧
  (∀ (s : State) (v : Word) (rest : List HostEvent) (e : DecodeError),
    s.bus = .write (s.params.swdBase + 0x0C) 32 v :: rest → decode (v ++ s.cmdA) = .error e →
    step s = .next (illegalCommand (opcField (v ++ s.cmdA)) { s with bus := rest }))

/-- 60_exceptions.md R279; the event list is the model's own (log 1): with no host event pending the block holds its state. -/
def Obligations.QuietBlockHoldsItsState : Prop :=
  ∀ s : State, s.bus = [] → step s = .next s

/-- 30_encoding.md R96 and 20_memory.md R66, R67: no step stops, but for a reset during an access, which the model refuses
(log 10). -/
def Obligations.OnlyATornResetStopsTheMachine : Prop :=
  ∀ s : State, (∃ t, step s = .next t) ∨
    (step s = .refused .resetDuringAccess ∧ ∃ rest, s.bus = .resetDuringAccess :: rest)

/-- 10_state.md R49: the reset values, in the state after reset and after a reset that the platform makes at any time, which
keeps the block's parameters. -/
def Obligations.ResetGivesTheResetValues : Prop :=
  ResetValues State.reset ∧
  ∀ (s : State) (rest : List HostEvent), s.bus = .reset :: rest →
    ∃ t, step s = .next t ∧ ResetValues t ∧ t.params = s.params ∧ t.bus = rest ∧
      ∀ r : Reg, r = .id ∨ r = .pWinMax ∨ r = .pInMax ∨ r = .pOutMax ∨ r = .pHufNodesMax ∨ r = .pHufDepthMax →
        readReg t r = readReg s r

/-- 20_memory.md R68, R72: a step performs the pending read as `hostRead`, with no side effects, and the pending write as
`hostWrite`, with effects only at `CMD_OP`, `CMD_A`, `IN_LEN` and the IN window. -/
def Obligations.OnlyFourKindsOfAccessHaveEffects : Prop :=
  (∀ (s : State) (off bits : Nat) (rest : List HostEvent), off < 2 ^ 26 →
    s.bus = .read (s.params.swdBase + off) bits :: rest →
    step s = .next { s with bus := rest, rdata := hostRead s off bits }) ∧
  (∀ (s : State) (off bits : Nat) (v : Word) (rest : List HostEvent), off < 2 ^ 26 →
    s.bus = .write (s.params.swdBase + off) bits v :: rest →
    step s = hostWrite off bits v { s with bus := rest }) ∧
  (∀ (s : State) (off bits : Nat) (v : Word) (rest : List HostEvent), off < 2 ^ 26 →
    s.bus = .write (s.params.swdBase + off) bits v :: rest →
    off ≠ 0x08 → off ≠ 0x0C → off ≠ 0x24 → ¬ (0x1000000 ≤ off ∧ off < 0x1000000 + s.params.inMax) →
    step s = .next { s with bus := rest })

/-- 20_memory.md R66: a misaligned access, or one that is not 32 bits wide, has no effect and reads 0. -/
def Obligations.MisalignedAccessesHaveNoEffect : Prop :=
  ∀ (s : State) (off bits : Nat), off % 4 ≠ 0 ∨ bits ≠ 32 →
    hostRead s off bits = 0 ∧ ∀ v : Word, hostWrite off bits v s = .next s

/-- 10_state.md R43, 20_memory.md R67: reserved offsets read 0 and ignore writes. -/
def Obligations.ReservedOffsetsReadZeroAndIgnoreWrites : Prop :=
  ∀ (s : State) (off bits : Nat) (v : Word),
    off ∉ [0x00, 0x04, 0x08, 0x0C, 0x10, 0x14, 0x18, 0x1C, 0x20, 0x24, 0x28, 0x2C, 0x30, 0x34, 0x38, 0x3C, 0x40, 0x44, 0x48,
      0x4C, 0x50, 0x54, 0x60, 0x64, 0x68, 0x6C, 0x70] →
    ¬ (0x1000000 ≤ off ∧ off < 0x1000000 + s.params.inMax) →
    ¬ (0x2000000 ≤ off ∧ off < 0x2000000 + s.params.outMax) →
    hostRead s off bits = 0 ∧ hostWrite off bits v s = .next s

/-- 20_memory.md R63, R62: a host write to the IN window stores its lanes in a rest state, below `IN_MAX` only, and is
ignored in a session. -/
def Obligations.InWindowWriteStoresItsLanes : Prop :=
  ∀ (s : State) (k : Nat) (v : Word), s.Inv → 4 * k < s.params.inMax →
    (¬ s.InSession → ∃ t, hostWrite (0x1000000 + 4 * k) 32 v s = .next t ∧ t = { s with inMem := t.inMem } ∧
      (∀ j, j < 4 → 4 * k + j < s.params.inMax → t.inByte (4 * k + j) = v.extractLsb' (8 * j) 8) ∧
      (∀ i, i < 4 * k ∨ 4 * k + 4 ≤ i ∨ s.params.inMax ≤ i → t.inByte i = s.inByte i)) ∧
    (s.InSession → hostWrite (0x1000000 + 4 * k) 32 v s = .next s)

/-- 20_memory.md R64, R62: a host read of the IN window returns the bytes in little-endian lanes, 0 past `IN_MAX`, in every
state. -/
def Obligations.InWindowReadReturnsItsLanes : Prop :=
  ∀ (s : State) (k j : Nat), 4 * k < 0x1000000 → j < 4 →
    (hostRead s (0x1000000 + 4 * k) 32).extractLsb' (8 * j) 8 =
      if 4 * k + j < s.params.inMax then s.inByte (4 * k + j) else 0

/-- 20_memory.md R65: the OUT window shows output bytes only in Complete and only below `OUTLEN`; writes to it are
ignored. -/
def Obligations.OutWindowShowsOnlyCompletedOutput : Prop :=
  ∀ (s : State) (k j : Nat) (v : Word), s.Inv → 4 * k < 0x2000000 → j < 4 →
    (hostRead s (0x2000000 + 4 * k) 32).extractLsb' (8 * j) 8 =
      (if s.state = .complete ∧ 4 * k + j < s.outLen.toNat then s.outByte (4 * k + j) else 0) ∧
    hostWrite (0x2000000 + 4 * k) 32 v s = .next s

/-- 10_state.md R28, R35: `CMD_A` and `IN_LEN` store what the host writes, `IN_LEN` only in a rest state; both read back
what is stored, in every state. -/
def Obligations.WritableRegistersStore : Prop :=
  ∀ (s : State) (v : Word),
    hostWrite 0x08 32 v s = .next { s with cmdA := v } ∧ hostRead s 0x08 32 = s.cmdA ∧
    (¬ s.InSession → hostWrite 0x24 32 v s = .next { s with inLen := v }) ∧
    (s.InSession → hostWrite 0x24 32 v s = .next s) ∧ hostRead s 0x24 32 = s.inLen

/-- 10_state.md R22, R29-R34, R36-R41: what each register reads outside Failed. -/
def Obligations.RegistersReadTheirState : Prop :=
  ∀ s : State, s.Inv → s.state ≠ .failed →
    hostRead s 0x00 32 = 0x4B320001 ∧ hostRead s 0x0C 32 = 0 ∧ hostRead s 0x10 32 = s.res ∧
    hostRead s 0x14 32 = 0 ∧ hostRead s 0x18 32 = 0 ∧ hostRead s 0x1C 32 = 0 ∧ hostRead s 0x20 32 = 0 ∧
    hostRead s 0x28 32 = s.inPos ∧
    (s.inPos.toNat ≤ s.inLen.toNat → hostRead s 0x2C 32 = s.inLen - s.inPos) ∧
    hostRead s 0x30 32 = s.outLen ∧ hostRead s 0x34 32 = s.declen ∧
    hostRead s 0x38 32 = s.cap.setWidth 32 ∧ hostRead s 0x3C 32 = s.fill ++ s.prebuf ∧
    hostRead s 0x44 32 = s.wptr.setWidth 32 ∧
    (hostRead s 0x48 32).toNat = s.used ∧ hostRead s 0x4C 32 = s.buf ∧
    hostRead s 0x50 32 = s.hnodes ∧ hostRead s 0x54 32 = s.hwidth.setWidth 32 ∧
    (hostRead s 0x60 32).toNat = s.params.winMax ∧ (hostRead s 0x64 32).toNat = s.params.inMax ∧
    (hostRead s 0x68 32).toNat = s.params.outMax ∧ (hostRead s 0x6C 32).toNat = s.params.hufNodesMax ∧
    (hostRead s 0x70 32).toNat = s.params.hufDepthMax

/-- 10_state.md R39: `BCFG` shows the bit-reader configuration. -/
def Obligations.BcfgShowsTheBitReaderConfiguration : Prop :=
  ∀ s : State,
    ((hostRead s 0x40 32).getLsbD 0 = true ↔ s.bitOrd = .lsbFirst) ∧
    ((hostRead s 0x40 32).getLsbD 1 = true ↔ s.byteOrd = .big) ∧
    2 ^ ((hostRead s 0x40 32).extractLsb' 2 2).toNat = s.unit.bytes ∧
    (hostRead s 0x40 32).extractLsb' 4 28 = 0

/-- 10_state.md R23, R25, R27: the fields of `STATUS`. -/
def Obligations.StatusShowsItsFields : Prop :=
  ∀ s : State,
    ((hostRead s 0x04 32).extractLsb' 0 3).toNat =
      (match s.state with
       | .idle => 0
       | .headerPending => 1
       | .decoding => 2
       | .complete => 3
       | .failed => 4) ∧
    ((hostRead s 0x04 32).getLsbD 3 = true ↔
      (s.state = .decoding ∨ s.state = .complete) ∧ s.declen.toNat ≤ s.outLen.toNat) ∧
    (hostRead s 0x04 32).getLsbD 4 = s.ign ∧
    ((hostRead s 0x04 32).getLsbD 5 = true ↔ s.tree ≠ none ∧ s.state ≠ .failed) ∧
    (hostRead s 0x04 32).extractLsb' 6 26 = 0

/-- 10_state.md R42, R31, 60_exceptions.md R261, R269: in Failed the data-path registers, `LENREACHED`, `TRIE` and every OUT word read
0, while the error record and the configuration registers read what is stored. -/
def Obligations.FailedHidesTheDataPath : Prop :=
  ∀ s : State, s.params.wf → s.state = .failed →
    (∀ off ∈ [0x10, 0x28, 0x2C, 0x30, 0x44, 0x48, 0x4C, 0x50, 0x54], hostRead s off 32 = 0) ∧
    (hostRead s 0x04 32).getLsbD 3 = false ∧ (hostRead s 0x04 32).getLsbD 5 = false ∧
    (∀ k, 4 * k < 0x2000000 → hostRead s (0x2000000 + 4 * k) 32 = 0) ∧
    (hostRead s 0x14 32).extractLsb' 0 8 =
      (match s.errKind with
       | none => 0
       | some .invalidHeader => 1
       | some .truncatedStream => 2
       | some .displacementOutOfRange => 3
       | some .unsupportedConfiguration => 4
       | some .illegalCommand => 5) ∧
    (hostRead s 0x14 32).extractLsb' 8 8 = s.errOpc ∧ (hostRead s 0x14 32).extractLsb' 16 16 = 0 ∧
    hostRead s 0x18 32 = s.errDisp ∧ hostRead s 0x1C 32 = s.errOutLen ∧ hostRead s 0x20 32 = s.errInPos ∧
    hostRead s 0x24 32 = s.inLen ∧ hostRead s 0x34 32 = s.declen ∧ hostRead s 0x38 32 = s.cap.setWidth 32 ∧
    hostRead s 0x3C 32 = s.fill ++ s.prebuf ∧
    hostRead s 0x40 32 = 0#28 ++ s.unit.ucode ++ BitVec.ofBool (s.byteOrd == .big) ++ BitVec.ofBool (s.bitOrd == .lsbFirst)

/-- 60_exceptions.md R266, R269, 10_state.md R42: a failed session leaks nothing. Two blocks that differ only in the session
data a failure leaves (and, once a new session has begun, in stale bytes of `OUT`) read alike everywhere and stay so under
every step. -/
def Obligations.FailedSessionLeaksNothing : Prop :=
  ∀ s t : State, s.Inv → t.Inv → Indistinct s t →
    (∀ off bits, hostRead s off bits = hostRead t off bits) ∧
    ∀ s', step s = .next s' → ∃ t', step t = .next t' ∧ Indistinct s' t'

/-! ### The whole machine -/

/-- The invariant of the machine holds at reset (10_state.md R49; the parameters are the model's choice, log 3). -/
def Obligations.InvHoldsAtReset : Prop := State.reset.Inv

/-- The invariant of the machine is kept by every step, from every state that meets it. -/
def Obligations.EveryStepKeepsInv : Prop :=
  ∀ s s' : State, s.Inv → step s = .next s' → s'.Inv

/-- 46_dispatch.md R230, 10_state.md R24: the transitions of the session state machine; no command makes another. -/
def Obligations.CommandsMakeOnlyTheListedTransitions : Prop :=
  ∀ (i : Instr) (s t : State), exec i s = .next t →
    (i = .begin → t.state = if s.inLen.toNat ≤ s.params.inMax then .headerPending else .failed) ∧
    (i ≠ .begin → ¬ s.InSession → t.state = s.state) ∧
    (i = .start → s.state = .headerPending →
      1 ≤ s.cap.toNat ∧ s.cap.toNat ≤ s.params.winMax ∧ s.prebuf.toNat ≤ s.cap.toNat ∧
        s.declen.toNat ≤ s.params.outMax → t.state = .decoding) ∧
    (i = .finish → s.state = .decoding → t.state = .complete) ∧
    (i ≠ .begin → s.InSession → legal i s = false ∨ i.op = .fail → t.state = .failed) ∧
    (i ≠ .begin → s.InSession → t.state = s.state ∨ t.state = .failed ∨
      (i = .start ∧ s.state = .headerPending ∧ t.state = .decoding) ∨
      (i = .finish ∧ s.state = .decoding ∧ t.state = .complete))

/-- 10_state.md R26: `IGN` is set exactly by an illegal command in a rest state, and cleared only by `BEGIN` and reset. -/
def Obligations.IgnIsStickyUntilBeginOrReset : Prop :=
  ∀ s t : State, step s = .next t →
    (s.ign = true → t.ign = false →
      (∃ rest, s.bus = .reset :: rest) ∨ ∃ w, Issues s w ∧ decode w = .ok .begin) ∧
    (s.ign = false → t.ign = true →
      ¬ s.InSession ∧ ∃ w, Issues s w ∧ ∀ i, decode w = .ok i → legal i s = false) ∧
    (∀ w, Issues s w → ¬ s.InSession → (∀ i, decode w = .ok i → legal i s = false) → t.ign = true) ∧
    (∀ w, Issues s w → decode w = .ok .begin → t.ign = false)

/-- 10_state.md R30: six commands write `RES`, `BEGIN` sets it to 0, and every other command leaves it unchanged. -/
def Obligations.OnlySixCommandsAndBeginWriteRes : Prop :=
  ∀ (i : Instr) (s t : State), exec i s = .next t →
    (i.op ∉ [.rdbytes, .getbit, .getbits, .getbyte, .litb, .hwalk, .begin] → t.res = s.res) ∧
    (i = .begin → t.res = 0)

/-- 10_state.md R28, R48, R20: executing a command changes neither `CMD_A` nor `IN` nor `IN_LEN` nor the block's constants,
nor what the host has pending. -/
def Obligations.CommandsKeepHostOwnedState : Prop :=
  ∀ (i : Instr) (s t : State), exec i s = .next t →
    t.cmdA = s.cmdA ∧ t.inMem = s.inMem ∧ t.inLen = s.inLen ∧ t.params = s.params ∧ t.memStamp = s.memStamp ∧
    t.bus = s.bus ∧ t.rdata = s.rdata

/-- 10_state.md R37-R39, 42_bit_reader.md R145, 43_window.md R170: each configuration register is written only by its
command, and none is written in Decoding. -/
def Obligations.ConfigurationHasOneWriterEach : Prop :=
  ∀ (i : Instr) (s t : State), exec i s = .next t →
    (i.op ≠ .cfgwin ∨ s.state = .decoding → t.cap = s.cap ∧ t.prebuf = s.prebuf ∧ t.fill = s.fill) ∧
    (i.op ≠ .cfgbits ∨ s.state = .decoding → t.bitOrd = s.bitOrd ∧ t.byteOrd = s.byteOrd ∧ t.unit = s.unit) ∧
    (i.op ≠ .cfglen ∨ s.state = .decoding → t.declen = s.declen)

/-- 41_byte_cursor.md R121, R122: no command moves `INPOS` above `IN_LEN`. -/
def Obligations.NoCommandMovesInposPastInLen : Prop :=
  ∀ (i : Instr) (s t : State), s.inPos.toNat ≤ s.inLen.toNat → exec i s = .next t → t.inPos.toNat ≤ t.inLen.toNat

/-- 46_dispatch.md R239: in Complete only `BEGIN` changes session data; configuration commands change configuration only. -/
def Obligations.CompletedSessionIsFrozen : Prop :=
  ∀ (i : Instr) (s t : State), s.state = .complete → i ≠ .begin → exec i s = .next t →
    t = { s with
      ign := t.ign
      cap := t.cap
      prebuf := t.prebuf
      fill := t.fill
      bitOrd := t.bitOrd
      byteOrd := t.byteOrd
      unit := t.unit
      declen := t.declen } ∧
    (i.op ∉ [.cfgwin, .cfgbits, .cfglen] → t = { s with ign := t.ign }) ∧
    (i.op ∈ [.cfgwin, .cfgbits, .cfglen] → i.WellFormed → t.ign = s.ign)

/-- 43_window.md R183, 46_dispatch.md R235: no command but `START` looks at `DECLEN`; nothing clamps to it. -/
def Obligations.DeclaredLengthIsNotEnforced : Prop :=
  ∀ (i : Instr) (s t : State) (n : Word), i.op ≠ .start → i.op ≠ .cfglen → exec i s = .next t →
    exec i { s with declen := n } = .next { t with declen := n }

/-! ### Errors (60_exceptions.md) -/

/-- 60_exceptions.md R264, R265, 46_dispatch.md R238: a word that does not decode, a command in a state the table does not
allow it in, or with a field outside its legal values, or against the trie tests, is handled as illegal, and a command that
passes them all is not. -/
def Obligations.IllegalCommandsFailOrAreIgnored : Prop :=
  (∀ (w : CmdWord) (e : DecodeError) (s : State), decode w = .error e →
    (¬ s.InSession → execWord w s = .next { s with ign := true }) ∧
    (s.InSession → ∃ t, execWord w s = .next t ∧ FailedWith s t .illegalCommand (opcField w) 0)) ∧
  (∀ (i : Instr) (s : State), legal i s = false → HandledAsIllegal i s) ∧
  (∀ (i : Instr) (s : State), legal i s = true ↔
    i.WellFormed ∧
    (match i with
     | .nop | .begin => True
     | .cfgwin _ _ _ | .cfgbits _ _ _ | .cfglen _ => s.state ≠ .decoding
     | .start | .magic _ _ | .seek _ => s.state = .headerPending
     | .finish | .liti _ | .litr | .litb | .copy _ _ => s.state = .decoding
     | .fail _ _ | .rdbytes _ | .getbit | .getbits _ | .align | .getbyte => s.InSession
     | .hbuild _ => s.InSession ∧ s.tree = none
     | .hwalk => s.InSession ∧ s.tree ≠ none))

/-- 60_exceptions.md R263, R266, R268: a failure's record names the failing command and the cursors as they were when it
began (0 for `BEGIN`), with the displacement of `COPY` or the operand of `FAIL`. -/
def Obligations.FailureRecordIsPrecise : Prop :=
  ∀ (i : Instr) (s t : State), exec i s = .next t → t.state = .failed → s.state ≠ .failed ∨ i = .begin →
    t.errKind ≠ none ∧ t.errOpc = i.op.code ∧
    t.errOutLen = (if i = .begin then 0 else s.outLen) ∧
    t.errInPos = (if i = .begin then 0 else s.inPos) ∧
    t.errDisp =
      (match i with
       | .copy disp _ => if t.errKind = some .displacementOutOfRange then disp.setWidth 32 else 0
       | .fail _ diag => if t.errKind = some .illegalCommand then 0 else diag
       | _ => 0)

/-- 60_exceptions.md R262, R261: which command raises which kind. -/
def Obligations.EachCommandRaisesOnlyItsKinds : Prop :=
  ∀ (i : Instr) (s t : State) (k : ErrorKind), exec i s = .next t → t.state = .failed → s.state ≠ .failed ∨ i = .begin →
    t.errKind = some k → k ≠ .illegalCommand →
    (match i with
     | .magic _ _ => k = .invalidHeader ∨ k = .truncatedStream
     | .rdbytes _ | .seek _ | .getbit | .getbits _ | .getbyte | .hwalk => k = .truncatedStream
     | .litb | .hbuild _ => k = .truncatedStream ∨ k = .unsupportedConfiguration
     | .copy _ _ => k = .displacementOutOfRange ∨ k = .unsupportedConfiguration
     | .begin | .start | .liti _ | .litr => k = .unsupportedConfiguration
     | .fail kind _ => NamesKind kind k
     | .nop | .finish | .cfgwin _ _ _ | .cfgbits _ _ _ | .cfglen _ | .align => False)

/-- 60_exceptions.md R270: the only exits from Failed are `BEGIN` and reset, and the first error record survives every
other step. -/
def Obligations.FirstErrorRecordSurvives : Prop :=
  ∀ s t : State, s.state = .failed → step s = .next t →
    (∃ rest, s.bus = .reset :: rest) ∨ (∃ w, Issues s w ∧ decode w = .ok .begin) ∨
    (t.state = .failed ∧ t.errKind = s.errKind ∧ t.errOpc = s.errOpc ∧ t.errDisp = s.errDisp ∧
      t.errOutLen = s.errOutLen ∧ t.errInPos = s.errInPos)

/-! ### Session control (46_dispatch.md) -/

/-- 46_dispatch.md R231: `NOP` does nothing, in every state; a `NOP` word with a non-zero bit is illegal. -/
def Obligations.NopChangesNothing : Prop :=
  encode .nop = 0x0000000000000000 ∧ (∀ s : State, exec .nop s = .next s) ∧
  ∀ w : CmdWord, opcField w = 0x00 → w ≠ 0 → decode w = .error (.mustBeZero .nop)

/-- 46_dispatch.md R232: `BEGIN` starts a session from every state, or starts and fails one when `IN_LEN > IN_MAX`. -/
def Obligations.BeginStartsASession : Prop :=
  encode .begin = 0x0100000000000000 ∧
  ∀ s : State,
    (s.inLen.toNat ≤ s.params.inMax → ∃ t, exec .begin s = .next t ∧ NewSession s t) ∧
    (s.params.inMax < s.inLen.toNat →
      ∃ u t, exec .begin s = .next t ∧ NewSession s u ∧ FailedWith u t .unsupportedConfiguration 0x01 0)

/-- 46_dispatch.md R233, 43_window.md R175: `START` checks the configuration, fills the ring and enters Decoding. -/
def Obligations.StartChecksAndFillsTheRing : Prop :=
  encode .start = 0x0200000000000000 ∧
  ∀ s : State,
    (s.state = .headerPending → 1 ≤ s.cap.toNat → s.cap.toNat ≤ s.params.winMax → s.prebuf.toNat ≤ s.cap.toNat →
      s.declen.toNat ≤ s.params.outMax →
      ∃ t, exec .start s = .next t ∧
        t = { s with state := .decoding, win := t.win, winFill := t.winFill, wptr := t.wptr } ∧
        t.wptr.toNat = s.prebuf.toNat % s.cap.toNat ∧ ∀ i, t.winByte i = s.fill) ∧
    (s.state = .headerPending → s.cap.toNat < 1 ∨ s.params.winMax < s.cap.toNat ∨ s.cap.toNat < s.prebuf.toNat ∨
      s.params.outMax < s.declen.toNat →
      ∃ t, exec .start s = .next t ∧ FailedWith s t .unsupportedConfiguration 0x02 0) ∧
    (s.state ≠ .headerPending → HandledAsIllegal .start s)

/-- 46_dispatch.md R236: `FINISH` completes a session in Decoding, whatever `OUTLEN` is. -/
def Obligations.FinishCompletesTheSession : Prop :=
  encode .finish = 0x0300000000000000 ∧
  ∀ s : State,
    (s.state = .decoding → exec .finish s = .next { s with state := .complete }) ∧
    (s.state ≠ .decoding → HandledAsIllegal .finish s)

/-- 46_dispatch.md R237, 60_exceptions.md R261: `FAIL` enters Failed with the kind and the diagnostic value the host gives. -/
def Obligations.FailRecordsTheHostsError : Prop :=
  ∀ (kind : BitVec 3) (diag : Word),
    encode (.fail kind diag) = (0x04#8 ++ (0#21 ++ kind) ++ diag : BitVec 64) ∧
    ∀ s : State,
      (s.InSession → ∀ k : ErrorKind, NamesKind kind k →
        ∃ t, exec (.fail kind diag) s = .next t ∧ FailedWith s t k 0x04 diag) ∧
      (¬ s.InSession ∨ kind.toNat < 1 ∨ 4 < kind.toNat → HandledAsIllegal (.fail kind diag) s)

/-- 46_dispatch.md R234: `CFGLEN` sets the declared length, outside Decoding. -/
def Obligations.CfglenSetsTheDeclaredLength : Prop :=
  ∀ n : Word, encode (.cfglen n) = (0x0A#8 ++ 0#24 ++ n : BitVec 64) ∧
    ∀ s : State,
      (s.state ≠ .decoding → exec (.cfglen n) s = .next { s with declen := n }) ∧
      (s.state = .decoding → HandledAsIllegal (.cfglen n) s)

/-! ### Byte cursor (41_byte_cursor.md) -/

/-- 41_byte_cursor.md R124, R123, R122, R127: `RDBYTES` reads one field under the byte order and leaves the bit buffer
alone. -/
def Obligations.RdbytesReadsAField : Prop :=
  ∀ n : BitVec 3, encode (.rdbytes n) = (0x10#8 ++ (0#21 ++ n) ++ 0#32 : BitVec 64) ∧
    ∀ s : State,
      (s.InSession → 1 ≤ n.toNat → n.toNat ≤ 4 → s.inPos.toNat + n.toNat ≤ s.inLen.toNat →
        exec (.rdbytes n) s = .next { s with
          res := BitVec.ofNat 32
            (match s.byteOrd with
             | .little => ∑ k ∈ Finset.range n.toNat, (s.inByte (s.inPos.toNat + k)).toNat * 2 ^ (8 * k)
             | .big => ∑ k ∈ Finset.range n.toNat, (s.inByte (s.inPos.toNat + k)).toNat * 2 ^ (8 * (n.toNat - 1 - k)))
          inPos := s.inPos + BitVec.ofNat 32 n.toNat }) ∧
      (s.InSession → 1 ≤ n.toNat → n.toNat ≤ 4 → s.inLen.toNat < s.inPos.toNat + n.toNat →
        ∃ t, exec (.rdbytes n) s = .next t ∧ FailedWith s t .truncatedStream 0x10 0) ∧
      (¬ s.InSession ∨ n.toNat < 1 ∨ 4 < n.toNat → HandledAsIllegal (.rdbytes n) s)

/-- 41_byte_cursor.md R125: `MAGIC` compares the next bytes with the signature; a short input is `TruncatedStream` before
any comparison. -/
def Obligations.MagicChecksTheSignature : Prop :=
  ∀ (n : BitVec 3) (value : Word),
    encode (.magic n value) = (0x11#8 ++ (0#21 ++ n) ++ value : BitVec 64) ∧
    ∀ s : State,
      (s.state = .headerPending → 1 ≤ n.toNat → n.toNat ≤ 4 → s.inPos.toNat + n.toNat ≤ s.inLen.toNat →
        ((∀ k, k < n.toNat → s.inByte (s.inPos.toNat + k) = value.extractLsb' (8 * k) 8) →
          exec (.magic n value) s = .next { s with inPos := s.inPos + BitVec.ofNat 32 n.toNat }) ∧
        ((∃ k, k < n.toNat ∧ s.inByte (s.inPos.toNat + k) ≠ value.extractLsb' (8 * k) 8) →
          ∃ t, exec (.magic n value) s = .next t ∧ FailedWith s t .invalidHeader 0x11 0)) ∧
      (s.state = .headerPending → 1 ≤ n.toNat → n.toNat ≤ 4 → s.inLen.toNat < s.inPos.toNat + n.toNat →
        ∃ t, exec (.magic n value) s = .next t ∧ FailedWith s t .truncatedStream 0x11 0) ∧
      (s.state ≠ .headerPending ∨ n.toNat < 1 ∨ 4 < n.toNat → HandledAsIllegal (.magic n value) s)

/-- 41_byte_cursor.md R126: `SEEK` moves the cursor within the input and exhausts the bit buffer. -/
def Obligations.SeekMovesTheCursor : Prop :=
  ∀ pos : Word, encode (.seek pos) = (0x12#8 ++ 0#24 ++ pos : BitVec 64) ∧
    ∀ s : State,
      (s.state = .headerPending → pos.toNat ≤ s.inLen.toNat →
        exec (.seek pos) s = .next { s with inPos := pos, used := 8 * s.unit.bytes }) ∧
      (s.state = .headerPending → s.inLen.toNat < pos.toNat →
        ∃ t, exec (.seek pos) s = .next t ∧ FailedWith s t .truncatedStream 0x12 0) ∧
      (s.state ≠ .headerPending → HandledAsIllegal (.seek pos) s)

/-! ### Bit reader (42_bit_reader.md) -/

/-- 42_bit_reader.md R149: `CFGBITS` sets the configuration; in HeaderPending it also discards the buffered bits. -/
def Obligations.CfgbitsSetsTheBitReader : Prop :=
  ∀ (b : BitOrder) (y : ByteOrder) (c : BitVec 2),
    encode (.cfgbits b y c) = (0x09#8 ++ 0#24 ++ (0#28 ++ c ++ BitVec.ofBool (y == .big) ++
      BitVec.ofBool (b == .lsbFirst)) : BitVec 64) ∧
    (∀ w : CmdWord, opcField w = 0x09 → w &&& 0x00FFFFFFFFFFFFF0 ≠ 0 → decode w = .error (.mustBeZero .cfgbits)) ∧
    ∀ s : State,
      (∀ u : RefillUnit, u.bytes = 2 ^ c.toNat →
        (s.state = .headerPending → exec (.cfgbits b y c) s =
          .next { s with bitOrd := b, byteOrd := y, unit := u, used := 8 * u.bytes, buf := 0 }) ∧
        (s.state ≠ .headerPending → s.state ≠ .decoding → exec (.cfgbits b y c) s =
          .next { s with bitOrd := b, byteOrd := y, unit := u })) ∧
      (s.state = .decoding ∨ c = 3 → HandledAsIllegal (.cfgbits b y c) s)

/-- 42_bit_reader.md R150, R147, R146: `GETBIT` reads the next bit of the stream; a refill needs a whole unit. -/
def Obligations.GetbitReadsTheNextBit : Prop :=
  encode .getbit = 0x1800000000000000 ∧
  ∀ s : State,
    (s.Inv → s.InSession → s.streamHas 1 → exec .getbit s =
      .next { s.skipBits 1 with res := if s.streamBit 0 then 1 else 0 }) ∧
    (s.Inv → s.InSession → ¬ s.streamHas 1 →
      ∃ t, exec .getbit s = .next t ∧ FailedWith s t .truncatedStream 0x18 0) ∧
    (¬ s.InSession → HandledAsIllegal .getbit s)

/-- 42_bit_reader.md R151, R148, R146: `GETBITS c` reads the number that the next `c` bits of the stream stand for; it fails
when a unit it needs is not whole, with the cursors of its start recorded. -/
def Obligations.GetbitsReadsAField : Prop :=
  ∀ c : BitVec 6, encode (.getbits c) = (0x19#8 ++ (0#18 ++ c) ++ 0#32 : BitVec 64) ∧
    ∀ s : State,
      (s.Inv → s.InSession → c.toNat ≤ 32 → s.streamHas c.toNat → exec (.getbits c) s =
        .next { s.skipBits c.toNat with res := BitVec.ofNat 32 (bitsValue s.bitOrd (s.nextBits c.toNat)) }) ∧
      (s.Inv → s.InSession → c.toNat ≤ 32 → ¬ s.streamHas c.toNat →
        ∃ t, exec (.getbits c) s = .next t ∧
          FailedWith s { t with inPos := s.inPos, buf := s.buf, used := s.used } .truncatedStream 0x19 0) ∧
      (¬ s.InSession ∨ 32 < c.toNat → HandledAsIllegal (.getbits c) s)

/-- 42_bit_reader.md R148, R153: with `UNIT = 1` and an exhausted buffer, `GETBITS 8` and `GETBYTE` both read the next input
byte unchanged, under either bit order. -/
def Obligations.EightBitsAreTheNextByte : Prop :=
  ∀ s : State, s.Inv → s.InSession → s.unit = .one → s.used = 8 → s.inPos.toNat + 1 ≤ s.inLen.toNat →
    ∃ t u, exec (.getbits 8) s = .next t ∧ exec .getbyte s = .next u ∧
      t.res = (s.inByte s.inPos.toNat).setWidth 32 ∧ u.res = t.res ∧
      t.inPos = s.inPos + 1 ∧ u.inPos = t.inPos ∧ t.used = 8 ∧ u.used = 8

/-- 42_bit_reader.md R142: with `UNIT = 1` the byte order has no effect on bit reads. -/
def Obligations.ByteOrderIsIdleForOneByteUnits : Prop :=
  ∀ (i : Instr) (s t : State) (y : ByteOrder), s.unit = .one → i.op ∈ [.getbit, .getbits, .hbuild, .hwalk] →
    exec i s = .next t → exec i { s with byteOrd := y } = .next { t with byteOrd := y }

/-- 42_bit_reader.md R152: `ALIGN` discards the unread bits of the unit. -/
def Obligations.AlignDiscardsTheUnit : Prop :=
  encode .align = 0x1A00000000000000 ∧
  ∀ s : State,
    (s.InSession → exec .align s = .next { s with used := 8 * s.unit.bytes }) ∧
    (¬ s.InSession → HandledAsIllegal .align s)

/-- 42_bit_reader.md R153: `GETBYTE` discards the unread bits and reads one byte. -/
def Obligations.GetbyteReadsAnAlignedByte : Prop :=
  encode .getbyte = 0x1B00000000000000 ∧
  ∀ s : State,
    (s.InSession → s.inPos.toNat + 1 ≤ s.inLen.toNat → exec .getbyte s =
      .next { s with
        used := 8 * s.unit.bytes
        res := (s.inByte s.inPos.toNat).setWidth 32
        inPos := s.inPos + 1 }) ∧
    (s.InSession → s.inLen.toNat < s.inPos.toNat + 1 →
      ∃ t, exec .getbyte s = .next t ∧ FailedWith { s with used := 8 * s.unit.bytes } t .truncatedStream 0x1B 0) ∧
    (¬ s.InSession → HandledAsIllegal .getbyte s)

/-! ### Window (43_window.md) -/

/-- 43_window.md R174: `CFGWIN` sets the window configuration and nothing else, outside Decoding, without a check. -/
def Obligations.CfgwinSetsTheWindow : Prop :=
  ∀ (cap prebuf : Field24) (fill : Byte),
    encode (.cfgwin cap prebuf fill) = (0x08#8 ++ prebuf ++ (fill ++ cap) : BitVec 64) ∧
    ∀ s : State,
      (s.state ≠ .decoding → exec (.cfgwin cap prebuf fill) s =
        .next { s with cap := cap, prebuf := prebuf, fill := fill }) ∧
      (s.state = .decoding → HandledAsIllegal (.cfgwin cap prebuf fill) s)

/-- 43_window.md R177, R172, R173: `LITI` appends its byte to ring and output, and changes no other byte of either. -/
def Obligations.LitiAppendsItsByte : Prop :=
  ∀ b : Byte, encode (.liti b) = (0x20#8 ++ 0#24 ++ (0#24 ++ b) : BitVec 64) ∧
    ∀ s : State,
      (s.Inv → s.state = .decoding → s.outLen.toNat + 1 ≤ s.params.outMax →
        ∃ t, exec (.liti b) s = .next t ∧ Appended s t b) ∧
      (s.state = .decoding → s.params.outMax < s.outLen.toNat + 1 →
        ∃ t, exec (.liti b) s = .next t ∧ FailedWith s t .unsupportedConfiguration 0x20 0) ∧
      (s.state ≠ .decoding → HandledAsIllegal (.liti b) s)

/-- 43_window.md R178: `LITR` appends the low byte of `RES`. -/
def Obligations.LitrAppendsTheLowByteOfRes : Prop :=
  encode .litr = 0x2100000000000000 ∧
  ∀ s : State,
    (s.Inv → s.state = .decoding → s.outLen.toNat + 1 ≤ s.params.outMax →
      ∃ t, exec .litr s = .next t ∧ Appended s t (s.res.setWidth 8)) ∧
    (s.state = .decoding → s.params.outMax < s.outLen.toNat + 1 →
      ∃ t, exec .litr s = .next t ∧ FailedWith s t .unsupportedConfiguration 0x21 0) ∧
    (s.state ≠ .decoding → HandledAsIllegal .litr s)

/-- 43_window.md R179: `LITB` reads the next input byte, leaves it in `RES` and appends it; output capacity is checked
before input availability. -/
def Obligations.LitbReadsAndAppendsAByte : Prop :=
  encode .litb = 0x2200000000000000 ∧
  ∀ s : State,
    (s.Inv → s.state = .decoding → s.outLen.toNat + 1 ≤ s.params.outMax → s.inPos.toNat + 1 ≤ s.inLen.toNat →
      ∃ t, exec .litb s = .next t ∧
        Appended { s with inPos := s.inPos + 1, res := (s.inByte s.inPos.toNat).setWidth 32 } t
          (s.inByte s.inPos.toNat)) ∧
    (s.state = .decoding → s.params.outMax < s.outLen.toNat + 1 →
      ∃ t, exec .litb s = .next t ∧ FailedWith s t .unsupportedConfiguration 0x22 0) ∧
    (s.state = .decoding → s.outLen.toNat + 1 ≤ s.params.outMax → s.inLen.toNat < s.inPos.toNat + 1 →
      ∃ t, exec .litb s = .next t ∧ FailedWith s t .truncatedStream 0x22 0) ∧
    (s.state ≠ .decoding → HandledAsIllegal .litb s)

/-- 43_window.md R180, R176, R181: `COPY` copies byte by byte from behind the write cursor, so that the output repeats the
last `d` bytes with period `d`; an invalid displacement is reported before a full output. -/
def Obligations.CopyRepeatsTheBytesBehindTheCursor : Prop :=
  ∀ (d : Field24) (len : Word), encode (.copy d len) = (0x23#8 ++ d ++ len : BitVec 64) ∧
    ∀ s : State,
      (s.Inv → s.state = .decoding → 1 ≤ d.toNat → d.toNat ≤ s.prebuf.toNat + s.outLen.toNat → d.toNat ≤ s.cap.toNat →
        s.outLen.toNat + len.toNat ≤ s.params.outMax →
        ∃ t, exec (.copy d len) s = .next t ∧ Copied s t d.toNat len.toNat) ∧
      (s.state = .decoding → d.toNat < 1 ∨ s.prebuf.toNat + s.outLen.toNat < d.toNat ∨ s.cap.toNat < d.toNat →
        ∃ t, exec (.copy d len) s = .next t ∧ FailedWith s t .displacementOutOfRange 0x23 (d.setWidth 32)) ∧
      (s.state = .decoding → 1 ≤ d.toNat → d.toNat ≤ s.prebuf.toNat + s.outLen.toNat → d.toNat ≤ s.cap.toNat →
        s.params.outMax < s.outLen.toNat + len.toNat →
        ∃ t, exec (.copy d len) s = .next t ∧ FailedWith s t .unsupportedConfiguration 0x23 0) ∧
      (s.state ≠ .decoding → HandledAsIllegal (.copy d len) s)

/-! ### Huffman (45_huffman.md) -/

/-- 45_huffman.md R202, R203: `HBUILD w` builds exactly the trie that the stream describes, within the limits, and consumes
its description; a stream that ends inside the description, before a node beyond the limits begins, is `TruncatedStream`. A
second build in the session is illegal. -/
def Obligations.HbuildBuildsTheDescribedTrie : Prop :=
  ∀ w : BitVec 6, encode (.hbuild w) = (0x28#8 ++ (0#18 ++ w) ++ 0#32 : BitVec 64) ∧
    ∀ s : State,
      (s.Inv → s.InSession → s.tree = none → 1 ≤ w.toNat → w.toNat ≤ 32 →
        ∀ t : Trie, t.fits w.toNat → t.depth ≤ s.params.hufDepthMax → t.nodes ≤ s.params.hufNodesMax →
          s.streamHas (t.describe s.bitOrd w.toNat).length →
          s.nextBits (t.describe s.bitOrd w.toNat).length = t.describe s.bitOrd w.toNat →
          exec (.hbuild w) s = .next { s.skipBits (t.describe s.bitOrd w.toNat).length with
            tree := some t
            hnodes := BitVec.ofNat 32 t.nodes
            hwidth := w }) ∧
      (s.Inv → s.InSession → s.tree = none → 1 ≤ w.toNat → w.toNat ≤ 32 →
        ∀ (t : Trie) (n : Nat), t.fits w.toNat →
          (∀ j m k, t.NodeAt s.bitOrd w.toNat j m k → m ≤ n → k ≤ s.params.hufDepthMax ∧ j < s.params.hufNodesMax) →
          n < (t.describe s.bitOrd w.toNat).length → s.streamHas n → ¬ s.streamHas (n + 1) →
          s.nextBits n = (t.describe s.bitOrd w.toNat).take n →
          ∃ u, exec (.hbuild w) s = .next u ∧
            FailedWith s { u with inPos := s.inPos, buf := s.buf, used := s.used, hwidth := s.hwidth }
              .truncatedStream 0x28 0) ∧
      (¬ s.InSession ∨ s.tree ≠ none ∨ w.toNat < 1 ∨ 32 < w.toNat → HandledAsIllegal (.hbuild w) s)

/-- 45_huffman.md R201, R203, 60_exceptions.md R267: a described trie with too many nodes or too deep is refused with
`UnsupportedConfiguration`, as soon as the stream holds the bits before a node beyond the limits: whether that node's own
structure bit is there does not matter. -/
def Obligations.HbuildRefusesTriesBeyondTheLimits : Prop :=
  ∀ (w : BitVec 6) (s : State) (t : Trie), s.Inv → s.InSession → s.tree = none → 1 ≤ w.toNat → w.toNat ≤ 32 →
    t.fits w.toNat →
    (s.params.hufDepthMax < t.depth ∨ s.params.hufNodesMax < t.nodes →
      s.streamHas (t.describe s.bitOrd w.toNat).length →
      s.nextBits (t.describe s.bitOrd w.toNat).length = t.describe s.bitOrd w.toNat →
      ∃ u, exec (.hbuild w) s = .next u ∧
        FailedWith s { u with inPos := s.inPos, buf := s.buf, used := s.used, hwidth := s.hwidth }
          .unsupportedConfiguration 0x28 0) ∧
    (∀ j n k, t.NodeAt s.bitOrd w.toNat j n k → s.params.hufDepthMax < k ∨ s.params.hufNodesMax ≤ j →
      s.streamHas n → s.nextBits n = (t.describe s.bitOrd w.toNat).take n →
      ∃ u, exec (.hbuild w) s = .next u ∧
        FailedWith s { u with inPos := s.inPos, buf := s.buf, used := s.used, hwidth := s.hwidth }
          .unsupportedConfiguration 0x28 0)

/-- 45_huffman.md R204, R205: `HWALK` decodes the symbol whose path the next bits spell, and consumes the path (nothing for
a leaf root); a stream that ends before a leaf is `TruncatedStream`. With no trie it is illegal. -/
def Obligations.HwalkDecodesASymbol : Prop :=
  encode .hwalk = 0x2900000000000000 ∧
  ∀ s : State,
    (s.Inv → s.InSession → ∀ (t : Trie) (p : List Bool) (v : Word), s.tree = some t → t.follow p = some v →
      s.streamHas p.length → s.nextBits p.length = p →
      exec .hwalk s = .next { s.skipBits p.length with res := v }) ∧
    (s.Inv → s.InSession → ∀ (t : Trie) (n : Nat), s.tree = some t → s.streamHas n → ¬ s.streamHas (n + 1) →
      (∀ m, m ≤ n → t.follow (s.nextBits m) = none) →
      ∃ u, exec .hwalk s = .next u ∧
        FailedWith s { u with inPos := s.inPos, buf := s.buf, used := s.used } .truncatedStream 0x29 0) ∧
    (¬ s.InSession ∨ s.tree = none → HandledAsIllegal .hwalk s)

/-- 45_huffman.md R206: one `HWALK` reads at most `HUF_DEPTH_MAX` bits, and reaches a leaf unless the stream ends. -/
def Obligations.HwalkReadsAtMostTheDepthLimit : Prop :=
  ∀ (s : State) (t : Trie), s.Inv → s.InSession → s.tree = some t →
    (∃ n v, n ≤ s.params.hufDepthMax ∧ s.streamHas n ∧ t.follow (s.nextBits n) = some v ∧
      exec .hwalk s = .next { s.skipBits n with res := v }) ∨
    (∃ n u, n ≤ s.params.hufDepthMax ∧ ¬ s.streamHas n ∧ exec .hwalk s = .next u ∧
      FailedWith s { u with inPos := s.inPos, buf := s.buf, used := s.used } .truncatedStream 0x29 0)
end

