-- ==== Sys2Proof/Laws/State.lean ====
section
/-! SUPPORT. One lemma per field per named update of State, each true by definition, so that no later proof unfolds an
update. -/

namespace Sys2Proof.Machine

/-! ### `advance`: `INPOS <- INPOS + n` -/

@[simp] theorem advance_state (n : Nat) (s : State) : (s.advance n).state = s.state := rfl
@[simp] theorem advance_ign (n : Nat) (s : State) : (s.advance n).ign = s.ign := rfl
@[simp] theorem advance_cmdA (n : Nat) (s : State) : (s.advance n).cmdA = s.cmdA := rfl
@[simp] theorem advance_res (n : Nat) (s : State) : (s.advance n).res = s.res := rfl
@[simp] theorem advance_errKind (n : Nat) (s : State) : (s.advance n).errKind = s.errKind := rfl
@[simp] theorem advance_errOpc (n : Nat) (s : State) : (s.advance n).errOpc = s.errOpc := rfl
@[simp] theorem advance_errDisp (n : Nat) (s : State) : (s.advance n).errDisp = s.errDisp := rfl
@[simp] theorem advance_errOutLen (n : Nat) (s : State) : (s.advance n).errOutLen = s.errOutLen := rfl
@[simp] theorem advance_errInPos (n : Nat) (s : State) : (s.advance n).errInPos = s.errInPos := rfl
@[simp] theorem advance_inMem (n : Nat) (s : State) : (s.advance n).inMem = s.inMem := rfl
@[simp] theorem advance_inLen (n : Nat) (s : State) : (s.advance n).inLen = s.inLen := rfl
@[simp] theorem advance_inPos (n : Nat) (s : State) : (s.advance n).inPos = s.inPos + BitVec.ofNat 32 n := rfl
@[simp] theorem advance_bitOrd (n : Nat) (s : State) : (s.advance n).bitOrd = s.bitOrd := rfl
@[simp] theorem advance_byteOrd (n : Nat) (s : State) : (s.advance n).byteOrd = s.byteOrd := rfl
@[simp] theorem advance_unit (n : Nat) (s : State) : (s.advance n).unit = s.unit := rfl
@[simp] theorem advance_buf (n : Nat) (s : State) : (s.advance n).buf = s.buf := rfl
@[simp] theorem advance_used (n : Nat) (s : State) : (s.advance n).used = s.used := rfl
@[simp] theorem advance_cap (n : Nat) (s : State) : (s.advance n).cap = s.cap := rfl
@[simp] theorem advance_prebuf (n : Nat) (s : State) : (s.advance n).prebuf = s.prebuf := rfl
@[simp] theorem advance_fill (n : Nat) (s : State) : (s.advance n).fill = s.fill := rfl
@[simp] theorem advance_win (n : Nat) (s : State) : (s.advance n).win = s.win := rfl
@[simp] theorem advance_wptr (n : Nat) (s : State) : (s.advance n).wptr = s.wptr := rfl
@[simp] theorem advance_outMem (n : Nat) (s : State) : (s.advance n).outMem = s.outMem := rfl
@[simp] theorem advance_outLen (n : Nat) (s : State) : (s.advance n).outLen = s.outLen := rfl
@[simp] theorem advance_declen (n : Nat) (s : State) : (s.advance n).declen = s.declen := rfl
@[simp] theorem advance_tree (n : Nat) (s : State) : (s.advance n).tree = s.tree := rfl
@[simp] theorem advance_hnodes (n : Nat) (s : State) : (s.advance n).hnodes = s.hnodes := rfl
@[simp] theorem advance_hwidth (n : Nat) (s : State) : (s.advance n).hwidth = s.hwidth := rfl
@[simp] theorem advance_params (n : Nat) (s : State) : (s.advance n).params = s.params := rfl
@[simp] theorem advance_winFill (n : Nat) (s : State) : (s.advance n).winFill = s.winFill := rfl
@[simp] theorem advance_winStamp (n : Nat) (s : State) : (s.advance n).winStamp = s.winStamp := rfl
@[simp] theorem advance_memStamp (n : Nat) (s : State) : (s.advance n).memStamp = s.memStamp := rfl
@[simp] theorem advance_bus (n : Nat) (s : State) : (s.advance n).bus = s.bus := rfl
@[simp] theorem advance_rdata (n : Nat) (s : State) : (s.advance n).rdata = s.rdata := rfl

/-! ### `setRes`: `RES <- v` -/

@[simp] theorem setRes_state (v : Word) (s : State) : (s.setRes v).state = s.state := rfl
@[simp] theorem setRes_ign (v : Word) (s : State) : (s.setRes v).ign = s.ign := rfl
@[simp] theorem setRes_cmdA (v : Word) (s : State) : (s.setRes v).cmdA = s.cmdA := rfl
@[simp] theorem setRes_res (v : Word) (s : State) : (s.setRes v).res = v := rfl
@[simp] theorem setRes_errKind (v : Word) (s : State) : (s.setRes v).errKind = s.errKind := rfl
@[simp] theorem setRes_errOpc (v : Word) (s : State) : (s.setRes v).errOpc = s.errOpc := rfl
@[simp] theorem setRes_errDisp (v : Word) (s : State) : (s.setRes v).errDisp = s.errDisp := rfl
@[simp] theorem setRes_errOutLen (v : Word) (s : State) : (s.setRes v).errOutLen = s.errOutLen := rfl
@[simp] theorem setRes_errInPos (v : Word) (s : State) : (s.setRes v).errInPos = s.errInPos := rfl
@[simp] theorem setRes_inMem (v : Word) (s : State) : (s.setRes v).inMem = s.inMem := rfl
@[simp] theorem setRes_inLen (v : Word) (s : State) : (s.setRes v).inLen = s.inLen := rfl
@[simp] theorem setRes_inPos (v : Word) (s : State) : (s.setRes v).inPos = s.inPos := rfl
@[simp] theorem setRes_bitOrd (v : Word) (s : State) : (s.setRes v).bitOrd = s.bitOrd := rfl
@[simp] theorem setRes_byteOrd (v : Word) (s : State) : (s.setRes v).byteOrd = s.byteOrd := rfl
@[simp] theorem setRes_unit (v : Word) (s : State) : (s.setRes v).unit = s.unit := rfl
@[simp] theorem setRes_buf (v : Word) (s : State) : (s.setRes v).buf = s.buf := rfl
@[simp] theorem setRes_used (v : Word) (s : State) : (s.setRes v).used = s.used := rfl
@[simp] theorem setRes_cap (v : Word) (s : State) : (s.setRes v).cap = s.cap := rfl
@[simp] theorem setRes_prebuf (v : Word) (s : State) : (s.setRes v).prebuf = s.prebuf := rfl
@[simp] theorem setRes_fill (v : Word) (s : State) : (s.setRes v).fill = s.fill := rfl
@[simp] theorem setRes_win (v : Word) (s : State) : (s.setRes v).win = s.win := rfl
@[simp] theorem setRes_wptr (v : Word) (s : State) : (s.setRes v).wptr = s.wptr := rfl
@[simp] theorem setRes_outMem (v : Word) (s : State) : (s.setRes v).outMem = s.outMem := rfl
@[simp] theorem setRes_outLen (v : Word) (s : State) : (s.setRes v).outLen = s.outLen := rfl
@[simp] theorem setRes_declen (v : Word) (s : State) : (s.setRes v).declen = s.declen := rfl
@[simp] theorem setRes_tree (v : Word) (s : State) : (s.setRes v).tree = s.tree := rfl
@[simp] theorem setRes_hnodes (v : Word) (s : State) : (s.setRes v).hnodes = s.hnodes := rfl
@[simp] theorem setRes_hwidth (v : Word) (s : State) : (s.setRes v).hwidth = s.hwidth := rfl
@[simp] theorem setRes_params (v : Word) (s : State) : (s.setRes v).params = s.params := rfl
@[simp] theorem setRes_winFill (v : Word) (s : State) : (s.setRes v).winFill = s.winFill := rfl
@[simp] theorem setRes_winStamp (v : Word) (s : State) : (s.setRes v).winStamp = s.winStamp := rfl
@[simp] theorem setRes_memStamp (v : Word) (s : State) : (s.setRes v).memStamp = s.memStamp := rfl
@[simp] theorem setRes_bus (v : Word) (s : State) : (s.setRes v).bus = s.bus := rfl
@[simp] theorem setRes_rdata (v : Word) (s : State) : (s.setRes v).rdata = s.rdata := rfl

/-! ### `exhaust`: `USED <- 8 * UNIT` -/

@[simp] theorem exhaust_state (s : State) : s.exhaust.state = s.state := rfl
@[simp] theorem exhaust_ign (s : State) : s.exhaust.ign = s.ign := rfl
@[simp] theorem exhaust_cmdA (s : State) : s.exhaust.cmdA = s.cmdA := rfl
@[simp] theorem exhaust_res (s : State) : s.exhaust.res = s.res := rfl
@[simp] theorem exhaust_errKind (s : State) : s.exhaust.errKind = s.errKind := rfl
@[simp] theorem exhaust_errOpc (s : State) : s.exhaust.errOpc = s.errOpc := rfl
@[simp] theorem exhaust_errDisp (s : State) : s.exhaust.errDisp = s.errDisp := rfl
@[simp] theorem exhaust_errOutLen (s : State) : s.exhaust.errOutLen = s.errOutLen := rfl
@[simp] theorem exhaust_errInPos (s : State) : s.exhaust.errInPos = s.errInPos := rfl
@[simp] theorem exhaust_inMem (s : State) : s.exhaust.inMem = s.inMem := rfl
@[simp] theorem exhaust_inLen (s : State) : s.exhaust.inLen = s.inLen := rfl
@[simp] theorem exhaust_inPos (s : State) : s.exhaust.inPos = s.inPos := rfl
@[simp] theorem exhaust_bitOrd (s : State) : s.exhaust.bitOrd = s.bitOrd := rfl
@[simp] theorem exhaust_byteOrd (s : State) : s.exhaust.byteOrd = s.byteOrd := rfl
@[simp] theorem exhaust_unit (s : State) : s.exhaust.unit = s.unit := rfl
@[simp] theorem exhaust_buf (s : State) : s.exhaust.buf = s.buf := rfl
@[simp] theorem exhaust_used (s : State) : s.exhaust.used = s.unit.bits := rfl
@[simp] theorem exhaust_cap (s : State) : s.exhaust.cap = s.cap := rfl
@[simp] theorem exhaust_prebuf (s : State) : s.exhaust.prebuf = s.prebuf := rfl
@[simp] theorem exhaust_fill (s : State) : s.exhaust.fill = s.fill := rfl
@[simp] theorem exhaust_win (s : State) : s.exhaust.win = s.win := rfl
@[simp] theorem exhaust_wptr (s : State) : s.exhaust.wptr = s.wptr := rfl
@[simp] theorem exhaust_outMem (s : State) : s.exhaust.outMem = s.outMem := rfl
@[simp] theorem exhaust_outLen (s : State) : s.exhaust.outLen = s.outLen := rfl
@[simp] theorem exhaust_declen (s : State) : s.exhaust.declen = s.declen := rfl
@[simp] theorem exhaust_tree (s : State) : s.exhaust.tree = s.tree := rfl
@[simp] theorem exhaust_hnodes (s : State) : s.exhaust.hnodes = s.hnodes := rfl
@[simp] theorem exhaust_hwidth (s : State) : s.exhaust.hwidth = s.hwidth := rfl
@[simp] theorem exhaust_params (s : State) : s.exhaust.params = s.params := rfl
@[simp] theorem exhaust_winFill (s : State) : s.exhaust.winFill = s.winFill := rfl
@[simp] theorem exhaust_winStamp (s : State) : s.exhaust.winStamp = s.winStamp := rfl
@[simp] theorem exhaust_memStamp (s : State) : s.exhaust.memStamp = s.memStamp := rfl
@[simp] theorem exhaust_bus (s : State) : s.exhaust.bus = s.bus := rfl
@[simp] theorem exhaust_rdata (s : State) : s.exhaust.rdata = s.rdata := rfl

/-! ### `loadUnit`: a refill (42_bit_reader.md R146) -/

@[simp] theorem loadUnit_state (s : State) : s.loadUnit.state = s.state := rfl
@[simp] theorem loadUnit_ign (s : State) : s.loadUnit.ign = s.ign := rfl
@[simp] theorem loadUnit_cmdA (s : State) : s.loadUnit.cmdA = s.cmdA := rfl
@[simp] theorem loadUnit_res (s : State) : s.loadUnit.res = s.res := rfl
@[simp] theorem loadUnit_errKind (s : State) : s.loadUnit.errKind = s.errKind := rfl
@[simp] theorem loadUnit_errOpc (s : State) : s.loadUnit.errOpc = s.errOpc := rfl
@[simp] theorem loadUnit_errDisp (s : State) : s.loadUnit.errDisp = s.errDisp := rfl
@[simp] theorem loadUnit_errOutLen (s : State) : s.loadUnit.errOutLen = s.errOutLen := rfl
@[simp] theorem loadUnit_errInPos (s : State) : s.loadUnit.errInPos = s.errInPos := rfl
@[simp] theorem loadUnit_inMem (s : State) : s.loadUnit.inMem = s.inMem := rfl
@[simp] theorem loadUnit_inLen (s : State) : s.loadUnit.inLen = s.inLen := rfl
@[simp] theorem loadUnit_inPos (s : State) : s.loadUnit.inPos = s.inPos + BitVec.ofNat 32 s.unit.bytes := rfl
@[simp] theorem loadUnit_bitOrd (s : State) : s.loadUnit.bitOrd = s.bitOrd := rfl
@[simp] theorem loadUnit_byteOrd (s : State) : s.loadUnit.byteOrd = s.byteOrd := rfl
@[simp] theorem loadUnit_unit (s : State) : s.loadUnit.unit = s.unit := rfl
@[simp] theorem loadUnit_buf (s : State) :
    s.loadUnit.buf = BitVec.ofNat 32 (assemble s.byteOrd (s.inBytes s.inPos.toNat s.unit.bytes)) := rfl
@[simp] theorem loadUnit_used (s : State) : s.loadUnit.used = 0 := rfl
@[simp] theorem loadUnit_cap (s : State) : s.loadUnit.cap = s.cap := rfl
@[simp] theorem loadUnit_prebuf (s : State) : s.loadUnit.prebuf = s.prebuf := rfl
@[simp] theorem loadUnit_fill (s : State) : s.loadUnit.fill = s.fill := rfl
@[simp] theorem loadUnit_win (s : State) : s.loadUnit.win = s.win := rfl
@[simp] theorem loadUnit_wptr (s : State) : s.loadUnit.wptr = s.wptr := rfl
@[simp] theorem loadUnit_outMem (s : State) : s.loadUnit.outMem = s.outMem := rfl
@[simp] theorem loadUnit_outLen (s : State) : s.loadUnit.outLen = s.outLen := rfl
@[simp] theorem loadUnit_declen (s : State) : s.loadUnit.declen = s.declen := rfl
@[simp] theorem loadUnit_tree (s : State) : s.loadUnit.tree = s.tree := rfl
@[simp] theorem loadUnit_hnodes (s : State) : s.loadUnit.hnodes = s.hnodes := rfl
@[simp] theorem loadUnit_hwidth (s : State) : s.loadUnit.hwidth = s.hwidth := rfl
@[simp] theorem loadUnit_params (s : State) : s.loadUnit.params = s.params := rfl
@[simp] theorem loadUnit_winFill (s : State) : s.loadUnit.winFill = s.winFill := rfl
@[simp] theorem loadUnit_winStamp (s : State) : s.loadUnit.winStamp = s.winStamp := rfl
@[simp] theorem loadUnit_memStamp (s : State) : s.loadUnit.memStamp = s.memStamp := rfl
@[simp] theorem loadUnit_bus (s : State) : s.loadUnit.bus = s.bus := rfl
@[simp] theorem loadUnit_rdata (s : State) : s.loadUnit.rdata = s.rdata := rfl

/-! ### `ringAppend`: the ring's half of `Emit` -/

@[simp] theorem ringAppend_state (b : Byte) (s : State) : (ringAppend b s).state = s.state := rfl
@[simp] theorem ringAppend_ign (b : Byte) (s : State) : (ringAppend b s).ign = s.ign := rfl
@[simp] theorem ringAppend_cmdA (b : Byte) (s : State) : (ringAppend b s).cmdA = s.cmdA := rfl
@[simp] theorem ringAppend_res (b : Byte) (s : State) : (ringAppend b s).res = s.res := rfl
@[simp] theorem ringAppend_errKind (b : Byte) (s : State) : (ringAppend b s).errKind = s.errKind := rfl
@[simp] theorem ringAppend_errOpc (b : Byte) (s : State) : (ringAppend b s).errOpc = s.errOpc := rfl
@[simp] theorem ringAppend_errDisp (b : Byte) (s : State) : (ringAppend b s).errDisp = s.errDisp := rfl
@[simp] theorem ringAppend_errOutLen (b : Byte) (s : State) : (ringAppend b s).errOutLen = s.errOutLen := rfl
@[simp] theorem ringAppend_errInPos (b : Byte) (s : State) : (ringAppend b s).errInPos = s.errInPos := rfl
@[simp] theorem ringAppend_inMem (b : Byte) (s : State) : (ringAppend b s).inMem = s.inMem := rfl
@[simp] theorem ringAppend_inLen (b : Byte) (s : State) : (ringAppend b s).inLen = s.inLen := rfl
@[simp] theorem ringAppend_inPos (b : Byte) (s : State) : (ringAppend b s).inPos = s.inPos := rfl
@[simp] theorem ringAppend_bitOrd (b : Byte) (s : State) : (ringAppend b s).bitOrd = s.bitOrd := rfl
@[simp] theorem ringAppend_byteOrd (b : Byte) (s : State) : (ringAppend b s).byteOrd = s.byteOrd := rfl
@[simp] theorem ringAppend_unit (b : Byte) (s : State) : (ringAppend b s).unit = s.unit := rfl
@[simp] theorem ringAppend_buf (b : Byte) (s : State) : (ringAppend b s).buf = s.buf := rfl
@[simp] theorem ringAppend_used (b : Byte) (s : State) : (ringAppend b s).used = s.used := rfl
@[simp] theorem ringAppend_cap (b : Byte) (s : State) : (ringAppend b s).cap = s.cap := rfl
@[simp] theorem ringAppend_prebuf (b : Byte) (s : State) : (ringAppend b s).prebuf = s.prebuf := rfl
@[simp] theorem ringAppend_fill (b : Byte) (s : State) : (ringAppend b s).fill = s.fill := rfl
@[simp] theorem ringAppend_win (b : Byte) (s : State) :
    (ringAppend b s).win = s.win.write s.winFill s.wptr.toNat b := rfl
@[simp] theorem ringAppend_wptr (b : Byte) (s : State) :
    (ringAppend b s).wptr = BitVec.ofNat 24 ((s.wptr.toNat + 1) % s.cap.toNat) := rfl
@[simp] theorem ringAppend_outMem (b : Byte) (s : State) : (ringAppend b s).outMem = s.outMem := rfl
@[simp] theorem ringAppend_outLen (b : Byte) (s : State) : (ringAppend b s).outLen = s.outLen := rfl
@[simp] theorem ringAppend_declen (b : Byte) (s : State) : (ringAppend b s).declen = s.declen := rfl
@[simp] theorem ringAppend_tree (b : Byte) (s : State) : (ringAppend b s).tree = s.tree := rfl
@[simp] theorem ringAppend_hnodes (b : Byte) (s : State) : (ringAppend b s).hnodes = s.hnodes := rfl
@[simp] theorem ringAppend_hwidth (b : Byte) (s : State) : (ringAppend b s).hwidth = s.hwidth := rfl
@[simp] theorem ringAppend_params (b : Byte) (s : State) : (ringAppend b s).params = s.params := rfl
@[simp] theorem ringAppend_winFill (b : Byte) (s : State) : (ringAppend b s).winFill = s.winFill := rfl
@[simp] theorem ringAppend_winStamp (b : Byte) (s : State) : (ringAppend b s).winStamp = s.winStamp := rfl
@[simp] theorem ringAppend_memStamp (b : Byte) (s : State) : (ringAppend b s).memStamp = s.memStamp := rfl
@[simp] theorem ringAppend_bus (b : Byte) (s : State) : (ringAppend b s).bus = s.bus := rfl
@[simp] theorem ringAppend_rdata (b : Byte) (s : State) : (ringAppend b s).rdata = s.rdata := rfl

/-! ### `outAppend`: `OutAppend` -/

@[simp] theorem outAppend_state (b : Byte) (s : State) : (outAppend b s).state = s.state := rfl
@[simp] theorem outAppend_ign (b : Byte) (s : State) : (outAppend b s).ign = s.ign := rfl
@[simp] theorem outAppend_cmdA (b : Byte) (s : State) : (outAppend b s).cmdA = s.cmdA := rfl
@[simp] theorem outAppend_res (b : Byte) (s : State) : (outAppend b s).res = s.res := rfl
@[simp] theorem outAppend_errKind (b : Byte) (s : State) : (outAppend b s).errKind = s.errKind := rfl
@[simp] theorem outAppend_errOpc (b : Byte) (s : State) : (outAppend b s).errOpc = s.errOpc := rfl
@[simp] theorem outAppend_errDisp (b : Byte) (s : State) : (outAppend b s).errDisp = s.errDisp := rfl
@[simp] theorem outAppend_errOutLen (b : Byte) (s : State) : (outAppend b s).errOutLen = s.errOutLen := rfl
@[simp] theorem outAppend_errInPos (b : Byte) (s : State) : (outAppend b s).errInPos = s.errInPos := rfl
@[simp] theorem outAppend_inMem (b : Byte) (s : State) : (outAppend b s).inMem = s.inMem := rfl
@[simp] theorem outAppend_inLen (b : Byte) (s : State) : (outAppend b s).inLen = s.inLen := rfl
@[simp] theorem outAppend_inPos (b : Byte) (s : State) : (outAppend b s).inPos = s.inPos := rfl
@[simp] theorem outAppend_bitOrd (b : Byte) (s : State) : (outAppend b s).bitOrd = s.bitOrd := rfl
@[simp] theorem outAppend_byteOrd (b : Byte) (s : State) : (outAppend b s).byteOrd = s.byteOrd := rfl
@[simp] theorem outAppend_unit (b : Byte) (s : State) : (outAppend b s).unit = s.unit := rfl
@[simp] theorem outAppend_buf (b : Byte) (s : State) : (outAppend b s).buf = s.buf := rfl
@[simp] theorem outAppend_used (b : Byte) (s : State) : (outAppend b s).used = s.used := rfl
@[simp] theorem outAppend_cap (b : Byte) (s : State) : (outAppend b s).cap = s.cap := rfl
@[simp] theorem outAppend_prebuf (b : Byte) (s : State) : (outAppend b s).prebuf = s.prebuf := rfl
@[simp] theorem outAppend_fill (b : Byte) (s : State) : (outAppend b s).fill = s.fill := rfl
@[simp] theorem outAppend_win (b : Byte) (s : State) : (outAppend b s).win = s.win := rfl
@[simp] theorem outAppend_wptr (b : Byte) (s : State) : (outAppend b s).wptr = s.wptr := rfl
@[simp] theorem outAppend_outMem (b : Byte) (s : State) :
    (outAppend b s).outMem = s.outMem.write none s.outLen.toNat b := rfl
@[simp] theorem outAppend_outLen (b : Byte) (s : State) : (outAppend b s).outLen = s.outLen + 1 := rfl
@[simp] theorem outAppend_declen (b : Byte) (s : State) : (outAppend b s).declen = s.declen := rfl
@[simp] theorem outAppend_tree (b : Byte) (s : State) : (outAppend b s).tree = s.tree := rfl
@[simp] theorem outAppend_hnodes (b : Byte) (s : State) : (outAppend b s).hnodes = s.hnodes := rfl
@[simp] theorem outAppend_hwidth (b : Byte) (s : State) : (outAppend b s).hwidth = s.hwidth := rfl
@[simp] theorem outAppend_params (b : Byte) (s : State) : (outAppend b s).params = s.params := rfl
@[simp] theorem outAppend_winFill (b : Byte) (s : State) : (outAppend b s).winFill = s.winFill := rfl
@[simp] theorem outAppend_winStamp (b : Byte) (s : State) : (outAppend b s).winStamp = s.winStamp := rfl
@[simp] theorem outAppend_memStamp (b : Byte) (s : State) : (outAppend b s).memStamp = s.memStamp := rfl
@[simp] theorem outAppend_bus (b : Byte) (s : State) : (outAppend b s).bus = s.bus := rfl
@[simp] theorem outAppend_rdata (b : Byte) (s : State) : (outAppend b s).rdata = s.rdata := rfl

/-! ### `emit`: `Emit` -/

@[simp] theorem emit_state (b : Byte) (s : State) : (emit b s).state = s.state := rfl
@[simp] theorem emit_ign (b : Byte) (s : State) : (emit b s).ign = s.ign := rfl
@[simp] theorem emit_cmdA (b : Byte) (s : State) : (emit b s).cmdA = s.cmdA := rfl
@[simp] theorem emit_res (b : Byte) (s : State) : (emit b s).res = s.res := rfl
@[simp] theorem emit_errKind (b : Byte) (s : State) : (emit b s).errKind = s.errKind := rfl
@[simp] theorem emit_errOpc (b : Byte) (s : State) : (emit b s).errOpc = s.errOpc := rfl
@[simp] theorem emit_errDisp (b : Byte) (s : State) : (emit b s).errDisp = s.errDisp := rfl
@[simp] theorem emit_errOutLen (b : Byte) (s : State) : (emit b s).errOutLen = s.errOutLen := rfl
@[simp] theorem emit_errInPos (b : Byte) (s : State) : (emit b s).errInPos = s.errInPos := rfl
@[simp] theorem emit_inMem (b : Byte) (s : State) : (emit b s).inMem = s.inMem := rfl
@[simp] theorem emit_inLen (b : Byte) (s : State) : (emit b s).inLen = s.inLen := rfl
@[simp] theorem emit_inPos (b : Byte) (s : State) : (emit b s).inPos = s.inPos := rfl
@[simp] theorem emit_bitOrd (b : Byte) (s : State) : (emit b s).bitOrd = s.bitOrd := rfl
@[simp] theorem emit_byteOrd (b : Byte) (s : State) : (emit b s).byteOrd = s.byteOrd := rfl
@[simp] theorem emit_unit (b : Byte) (s : State) : (emit b s).unit = s.unit := rfl
@[simp] theorem emit_buf (b : Byte) (s : State) : (emit b s).buf = s.buf := rfl
@[simp] theorem emit_used (b : Byte) (s : State) : (emit b s).used = s.used := rfl
@[simp] theorem emit_cap (b : Byte) (s : State) : (emit b s).cap = s.cap := rfl
@[simp] theorem emit_prebuf (b : Byte) (s : State) : (emit b s).prebuf = s.prebuf := rfl
@[simp] theorem emit_fill (b : Byte) (s : State) : (emit b s).fill = s.fill := rfl
@[simp] theorem emit_win (b : Byte) (s : State) : (emit b s).win = s.win.write s.winFill s.wptr.toNat b := rfl
@[simp] theorem emit_wptr (b : Byte) (s : State) :
    (emit b s).wptr = BitVec.ofNat 24 ((s.wptr.toNat + 1) % s.cap.toNat) := rfl
@[simp] theorem emit_outMem (b : Byte) (s : State) : (emit b s).outMem = s.outMem.write none s.outLen.toNat b := rfl
@[simp] theorem emit_outLen (b : Byte) (s : State) : (emit b s).outLen = s.outLen + 1 := rfl
@[simp] theorem emit_declen (b : Byte) (s : State) : (emit b s).declen = s.declen := rfl
@[simp] theorem emit_tree (b : Byte) (s : State) : (emit b s).tree = s.tree := rfl
@[simp] theorem emit_hnodes (b : Byte) (s : State) : (emit b s).hnodes = s.hnodes := rfl
@[simp] theorem emit_hwidth (b : Byte) (s : State) : (emit b s).hwidth = s.hwidth := rfl
@[simp] theorem emit_params (b : Byte) (s : State) : (emit b s).params = s.params := rfl
@[simp] theorem emit_winFill (b : Byte) (s : State) : (emit b s).winFill = s.winFill := rfl
@[simp] theorem emit_winStamp (b : Byte) (s : State) : (emit b s).winStamp = s.winStamp := rfl
@[simp] theorem emit_memStamp (b : Byte) (s : State) : (emit b s).memStamp = s.memStamp := rfl
@[simp] theorem emit_bus (b : Byte) (s : State) : (emit b s).bus = s.bus := rfl
@[simp] theorem emit_rdata (b : Byte) (s : State) : (emit b s).rdata = s.rdata := rfl

/-! ### `winInit`: `WinInit` -/

@[simp] theorem winInit_state (s : State) : (winInit s).state = s.state := rfl
@[simp] theorem winInit_ign (s : State) : (winInit s).ign = s.ign := rfl
@[simp] theorem winInit_cmdA (s : State) : (winInit s).cmdA = s.cmdA := rfl
@[simp] theorem winInit_res (s : State) : (winInit s).res = s.res := rfl
@[simp] theorem winInit_errKind (s : State) : (winInit s).errKind = s.errKind := rfl
@[simp] theorem winInit_errOpc (s : State) : (winInit s).errOpc = s.errOpc := rfl
@[simp] theorem winInit_errDisp (s : State) : (winInit s).errDisp = s.errDisp := rfl
@[simp] theorem winInit_errOutLen (s : State) : (winInit s).errOutLen = s.errOutLen := rfl
@[simp] theorem winInit_errInPos (s : State) : (winInit s).errInPos = s.errInPos := rfl
@[simp] theorem winInit_inMem (s : State) : (winInit s).inMem = s.inMem := rfl
@[simp] theorem winInit_inLen (s : State) : (winInit s).inLen = s.inLen := rfl
@[simp] theorem winInit_inPos (s : State) : (winInit s).inPos = s.inPos := rfl
@[simp] theorem winInit_bitOrd (s : State) : (winInit s).bitOrd = s.bitOrd := rfl
@[simp] theorem winInit_byteOrd (s : State) : (winInit s).byteOrd = s.byteOrd := rfl
@[simp] theorem winInit_unit (s : State) : (winInit s).unit = s.unit := rfl
@[simp] theorem winInit_buf (s : State) : (winInit s).buf = s.buf := rfl
@[simp] theorem winInit_used (s : State) : (winInit s).used = s.used := rfl
@[simp] theorem winInit_cap (s : State) : (winInit s).cap = s.cap := rfl
@[simp] theorem winInit_prebuf (s : State) : (winInit s).prebuf = s.prebuf := rfl
@[simp] theorem winInit_fill (s : State) : (winInit s).fill = s.fill := rfl
@[simp] theorem winInit_win (s : State) : (winInit s).win = [] := rfl
@[simp] theorem winInit_wptr (s : State) : (winInit s).wptr = BitVec.ofNat 24 (s.prebuf.toNat % s.cap.toNat) := rfl
@[simp] theorem winInit_outMem (s : State) : (winInit s).outMem = s.outMem := rfl
@[simp] theorem winInit_outLen (s : State) : (winInit s).outLen = s.outLen := rfl
@[simp] theorem winInit_declen (s : State) : (winInit s).declen = s.declen := rfl
@[simp] theorem winInit_tree (s : State) : (winInit s).tree = s.tree := rfl
@[simp] theorem winInit_hnodes (s : State) : (winInit s).hnodes = s.hnodes := rfl
@[simp] theorem winInit_hwidth (s : State) : (winInit s).hwidth = s.hwidth := rfl
@[simp] theorem winInit_params (s : State) : (winInit s).params = s.params := rfl
@[simp] theorem winInit_winFill (s : State) : (winInit s).winFill = some s.fill := rfl
@[simp] theorem winInit_winStamp (s : State) : (winInit s).winStamp = s.winStamp := rfl
@[simp] theorem winInit_memStamp (s : State) : (winInit s).memStamp = s.memStamp := rfl
@[simp] theorem winInit_bus (s : State) : (winInit s).bus = s.bus := rfl
@[simp] theorem winInit_rdata (s : State) : (winInit s).rdata = s.rdata := rfl

/-! ### `newSession`: the new session of `BEGIN` -/

@[simp] theorem newSession_state (s : State) : (newSession s).state = .headerPending := rfl
@[simp] theorem newSession_ign (s : State) : (newSession s).ign = false := rfl
@[simp] theorem newSession_cmdA (s : State) : (newSession s).cmdA = s.cmdA := rfl
@[simp] theorem newSession_res (s : State) : (newSession s).res = 0 := rfl
@[simp] theorem newSession_errKind (s : State) : (newSession s).errKind = none := rfl
@[simp] theorem newSession_errOpc (s : State) : (newSession s).errOpc = 0 := rfl
@[simp] theorem newSession_errDisp (s : State) : (newSession s).errDisp = 0 := rfl
@[simp] theorem newSession_errOutLen (s : State) : (newSession s).errOutLen = 0 := rfl
@[simp] theorem newSession_errInPos (s : State) : (newSession s).errInPos = 0 := rfl
@[simp] theorem newSession_inMem (s : State) : (newSession s).inMem = s.inMem := rfl
@[simp] theorem newSession_inLen (s : State) : (newSession s).inLen = s.inLen := rfl
@[simp] theorem newSession_inPos (s : State) : (newSession s).inPos = 0 := rfl
@[simp] theorem newSession_bitOrd (s : State) : (newSession s).bitOrd = s.bitOrd := rfl
@[simp] theorem newSession_byteOrd (s : State) : (newSession s).byteOrd = s.byteOrd := rfl
@[simp] theorem newSession_unit (s : State) : (newSession s).unit = s.unit := rfl
@[simp] theorem newSession_buf (s : State) : (newSession s).buf = 0 := rfl
@[simp] theorem newSession_used (s : State) : (newSession s).used = s.unit.bits := rfl
@[simp] theorem newSession_cap (s : State) : (newSession s).cap = s.cap := rfl
@[simp] theorem newSession_prebuf (s : State) : (newSession s).prebuf = s.prebuf := rfl
@[simp] theorem newSession_fill (s : State) : (newSession s).fill = s.fill := rfl
@[simp] theorem newSession_win (s : State) : (newSession s).win = [] := rfl
@[simp] theorem newSession_wptr (s : State) : (newSession s).wptr = 0 := rfl
@[simp] theorem newSession_outMem (s : State) : (newSession s).outMem = s.outMem := rfl
@[simp] theorem newSession_outLen (s : State) : (newSession s).outLen = 0 := rfl
@[simp] theorem newSession_declen (s : State) : (newSession s).declen = s.declen := rfl
@[simp] theorem newSession_tree (s : State) : (newSession s).tree = none := rfl
@[simp] theorem newSession_hnodes (s : State) : (newSession s).hnodes = 0 := rfl
@[simp] theorem newSession_hwidth (s : State) : (newSession s).hwidth = 0 := rfl
@[simp] theorem newSession_params (s : State) : (newSession s).params = s.params := rfl
@[simp] theorem newSession_winFill (s : State) : (newSession s).winFill = none := rfl
@[simp] theorem newSession_winStamp (s : State) : (newSession s).winStamp = s.winStamp + 1 := rfl
@[simp] theorem newSession_memStamp (s : State) : (newSession s).memStamp = s.memStamp := rfl
@[simp] theorem newSession_bus (s : State) : (newSession s).bus = s.bus := rfl
@[simp] theorem newSession_rdata (s : State) : (newSession s).rdata = s.rdata := rfl

/-! ### `raiseError`: failure entry (60_exceptions.md R266) -/

@[simp] theorem raiseError_state (opc : Byte) (start : State) (k : ErrorKind) (d : Word) (s : State) :
    (raiseError opc start k d s).state = .failed := rfl
@[simp] theorem raiseError_ign (opc : Byte) (start : State) (k : ErrorKind) (d : Word) (s : State) :
    (raiseError opc start k d s).ign = s.ign := rfl
@[simp] theorem raiseError_cmdA (opc : Byte) (start : State) (k : ErrorKind) (d : Word) (s : State) :
    (raiseError opc start k d s).cmdA = s.cmdA := rfl
@[simp] theorem raiseError_res (opc : Byte) (start : State) (k : ErrorKind) (d : Word) (s : State) :
    (raiseError opc start k d s).res = s.res := rfl
@[simp] theorem raiseError_errKind (opc : Byte) (start : State) (k : ErrorKind) (d : Word) (s : State) :
    (raiseError opc start k d s).errKind = some k := rfl
@[simp] theorem raiseError_errOpc (opc : Byte) (start : State) (k : ErrorKind) (d : Word) (s : State) :
    (raiseError opc start k d s).errOpc = opc := rfl
@[simp] theorem raiseError_errDisp (opc : Byte) (start : State) (k : ErrorKind) (d : Word) (s : State) :
    (raiseError opc start k d s).errDisp = d := rfl
@[simp] theorem raiseError_errOutLen (opc : Byte) (start : State) (k : ErrorKind) (d : Word) (s : State) :
    (raiseError opc start k d s).errOutLen = start.outLen := rfl
@[simp] theorem raiseError_errInPos (opc : Byte) (start : State) (k : ErrorKind) (d : Word) (s : State) :
    (raiseError opc start k d s).errInPos = start.inPos := rfl
@[simp] theorem raiseError_inMem (opc : Byte) (start : State) (k : ErrorKind) (d : Word) (s : State) :
    (raiseError opc start k d s).inMem = s.inMem := rfl
@[simp] theorem raiseError_inLen (opc : Byte) (start : State) (k : ErrorKind) (d : Word) (s : State) :
    (raiseError opc start k d s).inLen = s.inLen := rfl
@[simp] theorem raiseError_inPos (opc : Byte) (start : State) (k : ErrorKind) (d : Word) (s : State) :
    (raiseError opc start k d s).inPos = s.inPos := rfl
@[simp] theorem raiseError_bitOrd (opc : Byte) (start : State) (k : ErrorKind) (d : Word) (s : State) :
    (raiseError opc start k d s).bitOrd = s.bitOrd := rfl
@[simp] theorem raiseError_byteOrd (opc : Byte) (start : State) (k : ErrorKind) (d : Word) (s : State) :
    (raiseError opc start k d s).byteOrd = s.byteOrd := rfl
@[simp] theorem raiseError_unit (opc : Byte) (start : State) (k : ErrorKind) (d : Word) (s : State) :
    (raiseError opc start k d s).unit = s.unit := rfl
@[simp] theorem raiseError_buf (opc : Byte) (start : State) (k : ErrorKind) (d : Word) (s : State) :
    (raiseError opc start k d s).buf = s.buf := rfl
@[simp] theorem raiseError_used (opc : Byte) (start : State) (k : ErrorKind) (d : Word) (s : State) :
    (raiseError opc start k d s).used = s.used := rfl
@[simp] theorem raiseError_cap (opc : Byte) (start : State) (k : ErrorKind) (d : Word) (s : State) :
    (raiseError opc start k d s).cap = s.cap := rfl
@[simp] theorem raiseError_prebuf (opc : Byte) (start : State) (k : ErrorKind) (d : Word) (s : State) :
    (raiseError opc start k d s).prebuf = s.prebuf := rfl
@[simp] theorem raiseError_fill (opc : Byte) (start : State) (k : ErrorKind) (d : Word) (s : State) :
    (raiseError opc start k d s).fill = s.fill := rfl
@[simp] theorem raiseError_win (opc : Byte) (start : State) (k : ErrorKind) (d : Word) (s : State) :
    (raiseError opc start k d s).win = s.win := rfl
@[simp] theorem raiseError_wptr (opc : Byte) (start : State) (k : ErrorKind) (d : Word) (s : State) :
    (raiseError opc start k d s).wptr = s.wptr := rfl
@[simp] theorem raiseError_outMem (opc : Byte) (start : State) (k : ErrorKind) (d : Word) (s : State) :
    (raiseError opc start k d s).outMem = s.outMem := rfl
@[simp] theorem raiseError_outLen (opc : Byte) (start : State) (k : ErrorKind) (d : Word) (s : State) :
    (raiseError opc start k d s).outLen = s.outLen := rfl
@[simp] theorem raiseError_declen (opc : Byte) (start : State) (k : ErrorKind) (d : Word) (s : State) :
    (raiseError opc start k d s).declen = s.declen := rfl
@[simp] theorem raiseError_tree (opc : Byte) (start : State) (k : ErrorKind) (d : Word) (s : State) :
    (raiseError opc start k d s).tree = s.tree := rfl
@[simp] theorem raiseError_hnodes (opc : Byte) (start : State) (k : ErrorKind) (d : Word) (s : State) :
    (raiseError opc start k d s).hnodes = s.hnodes := rfl
@[simp] theorem raiseError_hwidth (opc : Byte) (start : State) (k : ErrorKind) (d : Word) (s : State) :
    (raiseError opc start k d s).hwidth = s.hwidth := rfl
@[simp] theorem raiseError_params (opc : Byte) (start : State) (k : ErrorKind) (d : Word) (s : State) :
    (raiseError opc start k d s).params = s.params := rfl
@[simp] theorem raiseError_winFill (opc : Byte) (start : State) (k : ErrorKind) (d : Word) (s : State) :
    (raiseError opc start k d s).winFill = s.winFill := rfl
@[simp] theorem raiseError_winStamp (opc : Byte) (start : State) (k : ErrorKind) (d : Word) (s : State) :
    (raiseError opc start k d s).winStamp = s.winStamp := rfl
@[simp] theorem raiseError_memStamp (opc : Byte) (start : State) (k : ErrorKind) (d : Word) (s : State) :
    (raiseError opc start k d s).memStamp = s.memStamp := rfl
@[simp] theorem raiseError_bus (opc : Byte) (start : State) (k : ErrorKind) (d : Word) (s : State) :
    (raiseError opc start k d s).bus = s.bus := rfl
@[simp] theorem raiseError_rdata (opc : Byte) (start : State) (k : ErrorKind) (d : Word) (s : State) :
    (raiseError opc start k d s).rdata = s.rdata := rfl

/-! ### `platformReset`: the platform's reset -/

@[simp] theorem platformReset_state (s : State) : (platformReset s).state = State.reset.state := rfl
@[simp] theorem platformReset_ign (s : State) : (platformReset s).ign = State.reset.ign := rfl
@[simp] theorem platformReset_cmdA (s : State) : (platformReset s).cmdA = State.reset.cmdA := rfl
@[simp] theorem platformReset_res (s : State) : (platformReset s).res = State.reset.res := rfl
@[simp] theorem platformReset_errKind (s : State) : (platformReset s).errKind = State.reset.errKind := rfl
@[simp] theorem platformReset_errOpc (s : State) : (platformReset s).errOpc = State.reset.errOpc := rfl
@[simp] theorem platformReset_errDisp (s : State) : (platformReset s).errDisp = State.reset.errDisp := rfl
@[simp] theorem platformReset_errOutLen (s : State) : (platformReset s).errOutLen = State.reset.errOutLen := rfl
@[simp] theorem platformReset_errInPos (s : State) : (platformReset s).errInPos = State.reset.errInPos := rfl
@[simp] theorem platformReset_inMem (s : State) : (platformReset s).inMem = State.reset.inMem := rfl
@[simp] theorem platformReset_inLen (s : State) : (platformReset s).inLen = State.reset.inLen := rfl
@[simp] theorem platformReset_inPos (s : State) : (platformReset s).inPos = State.reset.inPos := rfl
@[simp] theorem platformReset_bitOrd (s : State) : (platformReset s).bitOrd = State.reset.bitOrd := rfl
@[simp] theorem platformReset_byteOrd (s : State) : (platformReset s).byteOrd = State.reset.byteOrd := rfl
@[simp] theorem platformReset_unit (s : State) : (platformReset s).unit = State.reset.unit := rfl
@[simp] theorem platformReset_buf (s : State) : (platformReset s).buf = State.reset.buf := rfl
@[simp] theorem platformReset_used (s : State) : (platformReset s).used = State.reset.used := rfl
@[simp] theorem platformReset_cap (s : State) : (platformReset s).cap = State.reset.cap := rfl
@[simp] theorem platformReset_prebuf (s : State) : (platformReset s).prebuf = State.reset.prebuf := rfl
@[simp] theorem platformReset_fill (s : State) : (platformReset s).fill = State.reset.fill := rfl
@[simp] theorem platformReset_win (s : State) : (platformReset s).win = State.reset.win := rfl
@[simp] theorem platformReset_wptr (s : State) : (platformReset s).wptr = State.reset.wptr := rfl
@[simp] theorem platformReset_outMem (s : State) : (platformReset s).outMem = State.reset.outMem := rfl
@[simp] theorem platformReset_outLen (s : State) : (platformReset s).outLen = State.reset.outLen := rfl
@[simp] theorem platformReset_declen (s : State) : (platformReset s).declen = State.reset.declen := rfl
@[simp] theorem platformReset_tree (s : State) : (platformReset s).tree = State.reset.tree := rfl
@[simp] theorem platformReset_hnodes (s : State) : (platformReset s).hnodes = State.reset.hnodes := rfl
@[simp] theorem platformReset_hwidth (s : State) : (platformReset s).hwidth = State.reset.hwidth := rfl
@[simp] theorem platformReset_params (s : State) : (platformReset s).params = s.params := rfl
@[simp] theorem platformReset_winFill (s : State) : (platformReset s).winFill = State.reset.winFill := rfl
@[simp] theorem platformReset_winStamp (s : State) : (platformReset s).winStamp = s.winStamp + 1 := rfl
@[simp] theorem platformReset_memStamp (s : State) : (platformReset s).memStamp = s.memStamp + 1 := rfl
@[simp] theorem platformReset_bus (s : State) : (platformReset s).bus = s.bus := rfl
@[simp] theorem platformReset_rdata (s : State) : (platformReset s).rdata = s.rdata := rfl

end Sys2Proof.Machine
end

