-- ==== Sys2Proof/Laws/Memory.lean ====
section
/-! SUPPORT. The byte memories: read after write, and every operation keeps the canonical form and the bound. -/

namespace Sys2Proof.Machine

theorem Memory.get?_set (m : Memory) (a : Nat) (b : Byte) (i : Nat) :
    (m.set a b).get? i = if i = a then some b else m.get? i := by
  induction m with
  | nil => simp [Memory.set, Memory.get?, eq_comm]
  | cons c m ih =>
    obtain ⟨c, d⟩ := c
    by_cases hi : i = a
    · subst hi
      unfold Memory.set
      split
      · simp [Memory.get?]
      · split
        · simp [Memory.get?]
        · rw [Memory.get?, if_neg (Ne.symm ‹_›), ih]; simp
    · rw [if_neg hi] at ih ⊢
      unfold Memory.set
      split
      · simp [Memory.get?, Ne.symm hi]
      · split
        · subst_vars; simp [Memory.get?, Ne.symm hi]
        · simp [Memory.get?, ih]

/-- A byte below every listed index is not listed. -/
theorem Memory.get?_eq_none (m : Memory) (i : Nat) (h : ∀ c ∈ m, c.1 ≠ i) : m.get? i = none := by
  induction m with
  | nil => rfl
  | cons c m ih =>
    simp only [Memory.get?, if_neg (h c (List.mem_cons_self ..))]
    exact ih fun d hd => h d (List.mem_cons_of_mem _ hd)

theorem Memory.get?_erase (m : Memory) (a : Nat) (i : Nat) (h : m.Pairwise (fun c d => c.1 < d.1)) :
    (m.erase a).get? i = if i = a then none else m.get? i := by
  induction m with
  | nil => simp [Memory.erase, Memory.get?]
  | cons c m ih =>
    obtain ⟨c, d⟩ := c
    have ih := ih h.of_cons
    have hlt := (List.pairwise_cons.1 h).1
    unfold Memory.erase
    split
    · subst_vars
      by_cases hi : i = c
      · subst hi
        simp only [if_true]
        exact Memory.get?_eq_none m i fun e he => (hlt e he).ne'
      · simp [Memory.get?, hi, Ne.symm hi]
    · simp only [Memory.get?, ih]; split <;> split <;> first | rfl | (exfalso; omega)

/-- Read after write, for the byte a reader sees: a listed byte, or what unlisted bytes hold. -/
theorem Memory.read_write (dflt : Option Byte) (m : Memory) (a : Nat) (b : Byte) (i : Nat) (h : m.wf dflt) :
    ((m.write dflt a b).get? i).or dflt = if i = a then some b else (m.get? i).or dflt := by
  unfold Memory.write
  split
  · rw [Memory.get?_erase _ _ _ h.1]; split <;> simp_all
  · rw [Memory.get?_set]; split <;> simp

theorem Memory.mem_set {m : Memory} {a : Nat} {b : Byte} {c : Host.Cell} (h : c ∈ m.set a b) : c = (a, b) ∨ c ∈ m := by
  induction m with
  | nil => simpa [Memory.set] using h
  | cons d m ih =>
    unfold Memory.set at h
    split at h
    · simpa using h
    · split at h
      · rcases List.mem_cons.1 h with h | h
        · exact .inl h
        · exact .inr (List.mem_cons_of_mem _ h)
      · rcases List.mem_cons.1 h with h | h
        · exact .inr (h ▸ List.mem_cons_self ..)
        · exact (ih h).imp_right (List.mem_cons_of_mem _)

theorem Memory.mem_erase {m : Memory} {a : Nat} {c : Host.Cell} (h : c ∈ m.erase a) : c ∈ m := by
  induction m with
  | nil => simp [Memory.erase] at h
  | cons d m ih =>
    unfold Memory.erase at h
    split at h
    · exact List.mem_cons_of_mem _ h
    · rcases List.mem_cons.1 h with h | h
      · exact h ▸ List.mem_cons_self ..
      · exact List.mem_cons_of_mem _ (ih h)

theorem Memory.set_rising {m : Memory} (a : Nat) (b : Byte) (h : m.Pairwise (fun c d => c.1 < d.1)) :
    (m.set a b).Pairwise (fun c d => c.1 < d.1) := by
  induction m with
  | nil => simp [Memory.set]
  | cons c m ih =>
    have hlt := (List.pairwise_cons.1 h).1
    unfold Memory.set
    split
    · refine List.pairwise_cons.2 ⟨fun d hd => ?_, h⟩
      rcases List.mem_cons.1 hd with rfl | hd
      · assumption
      · exact Nat.lt_trans ‹_› (hlt d hd)
    · split
      · subst_vars; exact List.pairwise_cons.2 ⟨hlt, h.of_cons⟩
      · refine List.pairwise_cons.2 ⟨fun d hd => ?_, ih h.of_cons⟩
        rcases Memory.mem_set hd with rfl | hd
        · show c.1 < a; omega
        · exact hlt d hd

theorem Memory.erase_rising {m : Memory} (a : Nat) (h : m.Pairwise (fun c d => c.1 < d.1)) :
    (m.erase a).Pairwise (fun c d => c.1 < d.1) := by
  induction m with
  | nil => simp [Memory.erase]
  | cons c m ih =>
    have hlt := (List.pairwise_cons.1 h).1
    unfold Memory.erase
    split
    · exact h.of_cons
    · exact List.pairwise_cons.2 ⟨fun d hd => hlt d (Memory.mem_erase hd), ih h.of_cons⟩

theorem Memory.mem_write {dflt : Option Byte} {m : Memory} {a : Nat} {b : Byte} {c : Host.Cell}
    (h : c ∈ m.write dflt a b) : c = (a, b) ∨ c ∈ m := by
  unfold Memory.write at h
  split at h
  · exact .inr (Memory.mem_erase h)
  · exact Memory.mem_set h

/-- A write keeps the canonical form. -/
theorem Memory.write_wf {dflt : Option Byte} {m : Memory} (a : Nat) (b : Byte) (h : m.wf dflt) :
    (m.write dflt a b).wf dflt := by
  unfold Memory.write
  split
  · exact ⟨Memory.erase_rising a h.1, fun c hc => h.2 c (Memory.mem_erase hc)⟩
  · refine ⟨Memory.set_rising a b h.1, fun c hc => ?_⟩
    rcases Memory.mem_set hc with rfl | hc
    · assumption
    · exact h.2 c hc

/-- A write below the bound keeps the bound. -/
theorem Memory.write_below {dflt : Option Byte} {m : Memory} {a : Nat} {b : Byte} {bound : Nat} (h : m.below bound)
    (ha : a < bound) : (m.write dflt a b).below bound := by
  intro c hc
  rcases Memory.mem_write hc with rfl | hc
  · exact ha
  · exact h c hc

theorem Memory.nil_wf (dflt : Option Byte) : Memory.wf dflt [] := by simp [Memory.wf]

/-- The memories of reset are canonical. -/
theorem reset_memories_wf : State.reset.inMem.wf none ∧ State.reset.outMem.wf none ∧ State.reset.win.wf State.reset.winFill :=
  ⟨Memory.nil_wf _, Memory.nil_wf _, Memory.nil_wf _⟩

/-- Reading `OUT` after an append. -/
theorem outByte_outAppend (b : Byte) (s : State) (i : Nat) (h : s.outMem.wf none) :
    (outAppend b s).outByte i = if i = s.outLen.toNat then b else s.outByte i := by
  have := Memory.read_write none s.outMem s.outLen.toNat b i h
  simp only [Option.or_none] at this
  simp only [State.outByte, outAppend_outMem, outAppend_memStamp, this]
  split <;> simp

/-- Reading `WIN` after an append. -/
theorem winByte_ringAppend (b : Byte) (s : State) (i : Nat) (h : s.win.wf s.winFill) :
    (ringAppend b s).winByte i = if i = s.wptr.toNat then b else s.winByte i := by
  have hr := Memory.read_write s.winFill s.win s.wptr.toNat b i h
  have key : ∀ (o d : Option Byte) (f : Byte), o.getD (d.getD f) = (o.or d).getD f := by
    intro o d f; cases o <;> rfl
  simp only [State.winByte, ringAppend_win, ringAppend_winFill, ringAppend_winStamp, key, hr]
  split <;> simp

/-- Reading `IN` after a host write of one byte. -/
theorem inByte_write (s : State) (a : Nat) (b : Byte) (i : Nat) (h : s.inMem.wf none) :
    State.inByte { s with inMem := s.inMem.write none a b } i = if i = a then b else s.inByte i := by
  have := Memory.read_write none s.inMem a b i h
  simp only [Option.or_none] at this
  simp only [State.inByte, this]
  split <;> simp

end Sys2Proof.Machine
end

