-- ==== Sys2Proof/Laws/Stream.lean ====
section
/-! SUPPORT. The bit reader against the unread bit stream: what one `ReadBit` and one `ReadBits` take, and that skipping
composes. -/

namespace Sys2Proof.Machine

theorem bits_pos (u : RefillUnit) : 0 < u.bits := by cases u <;> decide

theorem bytes_pos (u : RefillUnit) : 0 < u.bytes := by cases u <;> decide

theorem bits_le (u : RefillUnit) : u.bits ≤ 32 := by cases u <;> decide

@[simp] theorem skipBits_unit (s : State) (c : Nat) : (s.skipBits c).unit = s.unit := rfl
@[simp] theorem skipBits_bitOrd (s : State) (c : Nat) : (s.skipBits c).bitOrd = s.bitOrd := rfl
@[simp] theorem skipBits_byteOrd (s : State) (c : Nat) : (s.skipBits c).byteOrd = s.byteOrd := rfl
@[simp] theorem skipBits_inLen (s : State) (c : Nat) : (s.skipBits c).inLen = s.inLen := rfl
@[simp] theorem skipBits_params (s : State) (c : Nat) : (s.skipBits c).params = s.params := rfl
@[simp] theorem skipBits_hwidth (s : State) (c : Nat) : (s.skipBits c).hwidth = s.hwidth := rfl
@[simp] theorem skipBits_inByte (s : State) (c i : Nat) : (s.skipBits c).inByte i = s.inByte i := rfl
@[simp] theorem skipBits_used (s : State) (c : Nat) :
    (s.skipBits c).used = s.used + c - s.unitsFor c * s.unit.bits := rfl

/-- Skipping stays within a unit. -/
theorem skipBits_used_le (s : State) (c : Nat) (h : s.used ≤ s.unit.bits) : (s.skipBits c).used ≤ s.unit.bits := by
  simp only [skipBits_used, State.unitsFor]
  revert h
  cases s.unit <;> simp only [RefillUnit.bits, RefillUnit.bytes] <;> omega

theorem unitsFor_skip (s : State) (a b : Nat) (h : s.used ≤ s.unit.bits) :
    s.unitsFor a + (s.skipBits a).unitsFor b = s.unitsFor (a + b) := by
  simp only [State.unitsFor, skipBits_used, skipBits_unit]
  revert h
  cases s.unit <;> simp only [RefillUnit.bits, RefillUnit.bytes] <;> omega

theorem unitsFor_mono (s : State) {a b : Nat} (h : a ≤ b) : s.unitsFor a ≤ s.unitsFor b :=
  Nat.div_le_div_right (by omega)

theorem streamHas_mono {s : State} {a b : Nat} (h : a ≤ b) (hb : s.streamHas b) : s.streamHas a := by
  have := Nat.mul_le_mul_right s.unit.bytes (unitsFor_mono s h)
  unfold State.streamHas at *; omega

/-- The input position after skipping, with no wrap. -/
theorem skipBits_inPos (s : State) (c : Nat) (h : s.streamHas c) :
    (s.skipBits c).inPos.toNat = s.inPos.toNat + s.unitsFor c * s.unit.bytes := by
  have hlt := s.inLen.isLt
  unfold State.streamHas at h
  simp only [State.skipBits, BitVec.toNat_add, BitVec.toNat_ofNat]
  rw [Nat.mod_eq_of_lt (a := s.unitsFor c * s.unit.bytes) (by omega), Nat.mod_eq_of_lt (by omega)]

theorem streamHas_skip {s : State} {a b : Nat} (h : s.used ≤ s.unit.bits) (hs : s.streamHas (a + b)) :
    (s.skipBits a).streamHas b := by
  have ha := streamHas_mono (Nat.le_add_right a b) hs
  have hu := unitsFor_skip s a b h
  unfold State.streamHas at hs ⊢
  rw [skipBits_inPos s a ha, skipBits_inLen, skipBits_unit, Nat.add_assoc, ← Nat.add_mul, hu]
  exact hs

theorem unitNo_skip (s : State) (a k : Nat) (h : s.streamHas a) :
    (s.skipBits a).unitNo k = s.unitNo (s.unitsFor a + k) := by
  cases k with
  | zero => rfl
  | succ k =>
    rw [← Nat.add_assoc]
    simp only [State.unitNo, State.inBytes, skipBits_inByte, skipBits_unit, skipBits_byteOrd, skipBits_inPos s a h,
      Nat.add_mul, Nat.add_assoc]

theorem streamBit_skip {s : State} {a : Nat} (i : Nat) (h : s.used ≤ s.unit.bits) (hs : s.streamHas a) :
    (s.skipBits a).streamBit i = s.streamBit (a + i) := by
  have hd : s.unitsFor a + ((s.skipBits a).used + i) / s.unit.bits = (s.used + (a + i)) / s.unit.bits := by
    simp only [State.unitsFor, skipBits_used]
    revert h
    cases s.unit <;> simp only [RefillUnit.bits, RefillUnit.bytes] <;> omega
  have hm : ((s.skipBits a).used + i) % s.unit.bits = (s.used + (a + i)) % s.unit.bits := by
    simp only [State.unitsFor, skipBits_used]
    revert h
    cases s.unit <;> simp only [RefillUnit.bits, RefillUnit.bytes] <;> omega
  unfold State.streamBit
  rw [unitNo_skip _ _ _ hs, skipBits_unit, skipBits_bitOrd, hd, hm]

theorem skipBits_skip {s : State} {a b : Nat} (h : s.used ≤ s.unit.bits) (hs : s.streamHas (a + b)) :
    (s.skipBits a).skipBits b = s.skipBits (a + b) := by
  have ha := streamHas_mono (Nat.le_add_right a b) hs
  have hu := unitsFor_skip s a b h
  have hb := unitNo_skip s a ((s.skipBits a).unitsFor b) ha
  have h1 : s.inPos + BitVec.ofNat 32 (s.unitsFor a * s.unit.bytes) +
      BitVec.ofNat 32 ((s.skipBits a).unitsFor b * s.unit.bytes) =
      s.inPos + BitVec.ofNat 32 (s.unitsFor (a + b) * s.unit.bytes) := by
    rw [BitVec.add_assoc, ← BitVec.ofNat_add, ← Nat.add_mul, hu]
  have h2 : s.used + a - s.unitsFor a * s.unit.bits + b - (s.skipBits a).unitsFor b * s.unit.bits =
      s.used + (a + b) - s.unitsFor (a + b) * s.unit.bits := by
    have h3 : s.unitsFor a * s.unit.bits ≤ s.used + a := by
      simp only [State.unitsFor]
      cases s.unit <;> simp only [RefillUnit.bits, RefillUnit.bytes] <;> omega
    rw [← hu, Nat.add_mul]; omega
  rw [hu] at hb
  show { s with
      inPos := s.inPos + BitVec.ofNat 32 (s.unitsFor a * s.unit.bytes) +
        BitVec.ofNat 32 ((s.skipBits a).unitsFor b * s.unit.bytes)
      buf := (s.skipBits a).unitNo ((s.skipBits a).unitsFor b)
      used := s.used + a - s.unitsFor a * s.unit.bits + b - (s.skipBits a).unitsFor b * s.unit.bits } = s.skipBits (a + b)
  rw [h1, hb, h2, State.skipBits]

@[simp] theorem skipBits_zero (s : State) (h : s.used ≤ s.unit.bits) : s.skipBits 0 = s := by
  have h0 : s.unitsFor 0 = 0 := by
    simp only [State.unitsFor]; revert h
    cases s.unit <;> simp only [RefillUnit.bits, RefillUnit.bytes] <;> omega
  simp [State.skipBits, h0, State.unitNo]

/-- One `ReadBit` takes the next bit of the stream, when its unit is there. -/
theorem readBit_done {s : State} (h : s.used ≤ s.unit.bits) (hs : s.streamHas 1) :
    readBit s = .done (s.streamBit 0) (s.skipBits 1) := by
  have hp := bits_pos s.unit
  unfold State.streamHas State.unitsFor at hs
  by_cases he : s.used = s.unit.bits
  · have h1 : s.unitsFor 1 = 1 := by
      unfold State.unitsFor; rw [he, Nat.add_sub_cancel, Nat.div_self hp]
    have hav : s.available s.unit.bytes = true := by
      unfold State.unitsFor at h1; rw [h1, Nat.one_mul] at hs; simpa [State.available] using hs
    simp only [readBit, refill, hav, if_true, Attempt.andThen, takeBit, State.nextBit, State.streamBit,
      State.skipBits, h1, unitBit, Nat.add_zero, he, Nat.div_self hp, Nat.mod_self, loadUnit_bitOrd, loadUnit_unit,
      loadUnit_buf, loadUnit_used, State.unitNo, Nat.zero_mul, Nat.add_zero, Nat.one_mul]
    congr 1
    simp only [State.loadUnit]
    congr 1
    omega
  · have hlt : s.used < s.unit.bits := by omega
    have h1 : s.unitsFor 1 = 0 := by
      unfold State.unitsFor; rw [Nat.add_sub_cancel]; exact Nat.div_eq_of_lt hlt
    cases hb : s.bitOrd <;>
      simp [hb, readBit, if_neg he, takeBit, State.nextBit, State.streamBit, State.skipBits, h1, unitBit,
        Nat.div_eq_of_lt hlt, Nat.mod_eq_of_lt hlt, State.unitNo]

/-- One `ReadBit` raises `TruncatedStream`, changing nothing, when a unit is needed and is not there. -/
theorem readBit_raised {s : State} (h : s.used ≤ s.unit.bits) (hi : s.inPos.toNat ≤ s.inLen.toNat)
    (hs : ¬ s.streamHas 1) : readBit s = .raised .truncatedStream s := by
  have hp := bits_pos s.unit
  unfold State.streamHas State.unitsFor at hs
  by_cases he : s.used = s.unit.bits
  · rw [he, Nat.add_sub_cancel, Nat.div_self hp, Nat.one_mul] at hs
    have hav : s.available s.unit.bytes = false := by simpa [State.available] using hs
    simp [readBit, he, refill, hav, Attempt.andThen]
  · rw [Nat.add_sub_cancel, Nat.div_eq_of_lt (by omega)] at hs
    omega

/-- The value `ReadBits` has formed when bits `i .. i + bits.length - 1` join `v`. -/
def joinBits (ord : BitOrder) : Word → Nat → List Bool → Word
  | v, _, [] => v
  | v, i, b :: bs => joinBits ord (joinBit ord v i b) (i + 1) bs

theorem nextBits_succ {s : State} (n : Nat) (h : s.used ≤ s.unit.bits) (hs : s.streamHas 1) :
    s.nextBits (n + 1) = s.streamBit 0 :: (s.skipBits 1).nextBits n := by
  simp only [State.nextBits, List.range_succ_eq_map, List.map_cons, List.map_map]
  congr 1
  refine List.map_congr_left fun i _ => ?_
  rw [Function.comp, streamBit_skip i h hs, Nat.add_comm]

theorem readBitsFrom_done (n : Nat) : ∀ (i : Nat) (v : Word) (s : State), s.used ≤ s.unit.bits → s.streamHas n →
    readBitsFrom n i v s = .done (joinBits s.bitOrd v i (s.nextBits n)) (s.skipBits n) := by
  induction n with
  | zero => intro i v s h _; simp [readBitsFrom, State.nextBits, joinBits, skipBits_zero s h]
  | succ n ih =>
    intro i v s h hs
    have h1 := streamHas_mono (Nat.le_add_left 1 n) hs
    have hn : (s.skipBits 1).streamHas n := streamHas_skip h (Nat.add_comm n 1 ▸ hs)
    rw [readBitsFrom, readBit_done h h1, Attempt.andThen, ih _ _ _ (skipBits_used_le s 1 h) hn, nextBits_succ n h h1,
      joinBits, skipBits_bitOrd, skipBits_skip h (Nat.add_comm n 1 ▸ hs), Nat.add_comm 1 n]

theorem readBitsFrom_raised (n : Nat) : ∀ (i : Nat) (v : Word) (s : State), s.used ≤ s.unit.bits →
    s.inPos.toNat ≤ s.inLen.toNat → ¬ s.streamHas n →
    ∃ c, c < n ∧ s.streamHas c ∧ ¬ s.streamHas (c + 1) ∧ readBitsFrom n i v s = .raised .truncatedStream (s.skipBits c) := by
  induction n with
  | zero =>
    intro i v s h hi hs
    exact absurd (by
      unfold State.streamHas State.unitsFor
      rw [Nat.div_eq_of_lt (by have := bits_pos s.unit; omega)]; omega) hs
  | succ n ih =>
    intro i v s h hi hs
    by_cases h1 : s.streamHas 1
    · have hi1 : (s.skipBits 1).inPos.toNat ≤ (s.skipBits 1).inLen.toNat := by
        rw [skipBits_inPos s 1 h1]; exact h1
      have back : ∀ c, (s.skipBits 1).streamHas c → s.streamHas (c + 1) := by
        intro c hc
        have hu := unitsFor_skip s 1 c h
        unfold State.streamHas at hc ⊢
        rw [skipBits_inPos s 1 h1, skipBits_inLen, skipBits_unit, Nat.add_assoc, ← Nat.add_mul, hu,
          Nat.add_comm 1 c] at hc
        exact hc
      obtain ⟨c, hc, hy, hn, he⟩ := ih (i + 1) (joinBit s.bitOrd v i (s.streamBit 0)) (s.skipBits 1)
        (skipBits_used_le s 1 h) hi1 fun hn => hs (back n hn)
      refine ⟨c + 1, by omega, back c hy, fun hh => hn (streamHas_skip h ?_), ?_⟩
      · rw [Nat.add_comm 1 (c + 1)]; exact hh
      · rw [readBitsFrom, readBit_done h h1, Attempt.andThen, skipBits_bitOrd, he,
          skipBits_skip h (Nat.add_comm c 1 ▸ back c hy), Nat.add_comm 1 c]
    · refine ⟨0, by omega, ?_, by simpa using h1, ?_⟩
      · unfold State.streamHas State.unitsFor
        rw [Nat.div_eq_of_lt (by have := bits_pos s.unit; omega)]; omega
      · rw [readBitsFrom, readBit_raised h hi h1, Attempt.andThen, skipBits_zero s h]

end Sys2Proof.Machine
end

