-- ==== Sys2Proof/Laws/Bits.lean ====
section
/-! SUPPORT. The value a group of bits stands for: `ReadBits` forms it, and the bits of a leaf value give the value back. -/

namespace Sys2Proof.Machine

theorem bitWord_toNat (b : Bool) : (bitWord b).toNat = b.toNat := by cases b <;> rfl

theorem joinBit_msb (v : Word) (i : Nat) (b : Bool) : joinBit .msbFirst v i b = BitVec.ofNat 32 (2 * v.toNat + b.toNat) := by
  have hz : v <<< 1 &&& bitWord b = 0 := by
    apply BitVec.eq_of_getLsbD_eq
    intro j _
    cases b <;> cases j <;> simp [bitWord]
  apply BitVec.eq_of_toNat_eq
  simp only [joinBit, ← BitVec.add_eq_or_of_and_eq_zero _ _ hz, BitVec.toNat_add, BitVec.toNat_shiftLeft, bitWord_toNat,
    BitVec.toNat_ofNat, Nat.shiftLeft_eq]
  omega

theorem joinBits_msb (bits : List Bool) : ∀ (n i : Nat),
    joinBits .msbFirst (BitVec.ofNat 32 n) i bits =
      BitVec.ofNat 32 (bits.foldl (fun v b => 2 * v + b.toNat) n) := by
  induction bits with
  | nil => intro n i; rfl
  | cons b bs ih =>
    intro n i
    have h : joinBit .msbFirst (BitVec.ofNat 32 n) i b = BitVec.ofNat 32 (2 * n + b.toNat) := by
      rw [joinBit_msb]
      apply BitVec.eq_of_toNat_eq
      simp only [BitVec.toNat_ofNat]
      omega
    rw [joinBits, h, ih, List.foldl_cons]

theorem joinBit_lsb (v : Word) (i : Nat) (b : Bool) (hv : v.toNat < 2 ^ i) (hi : i < 32) :
    joinBit .lsbFirst v i b = BitVec.ofNat 32 (v.toNat + 2 ^ i * b.toNat) := by
  have hz : v &&& bitWord b <<< i = 0 := by
    apply BitVec.eq_of_getLsbD_eq
    intro j hj
    rw [BitVec.getLsbD_and, BitVec.getLsbD_shiftLeft]
    by_cases hij : j < i
    · simp [hij]
    · have : v.getLsbD j = false := by
        apply Nat.testBit_lt_two_pow
        exact Nat.lt_of_lt_of_le hv (Nat.pow_le_pow_right (by omega) (by omega))
      simp [this]
  apply BitVec.eq_of_toNat_eq
  have hb : (bitWord b).toNat ≤ 1 := by cases b <;> decide
  have hp : 2 ^ i ≤ 2 ^ 31 := Nat.pow_le_pow_right (by omega) (by omega)
  have hle : 2 ^ i * b.toNat ≤ 2 ^ i := by cases b <;> simp
  simp only [joinBit, ← BitVec.add_eq_or_of_and_eq_zero _ _ hz, BitVec.toNat_add, BitVec.toNat_shiftLeft, bitWord_toNat,
    BitVec.toNat_ofNat, Nat.shiftLeft_eq]
  rw [Nat.mul_comm b.toNat, Nat.mod_eq_of_lt (a := 2 ^ i * b.toNat) (by omega)]

theorem lsb_value_lt (bits : List Bool) : bits.foldr (fun b v => b.toNat + 2 * v) 0 < 2 ^ bits.length := by
  induction bits with
  | nil => simp
  | cons b bs ih =>
    have : b.toNat ≤ 1 := by cases b <;> decide
    simp only [List.foldr_cons, List.length_cons, Nat.pow_succ]
    omega

theorem joinBits_lsb (bits : List Bool) : ∀ (v : Word) (i : Nat), v.toNat < 2 ^ i → i + bits.length ≤ 32 →
    joinBits .lsbFirst v i bits =
      BitVec.ofNat 32 (v.toNat + 2 ^ i * bits.foldr (fun b v => b.toNat + 2 * v) 0) := by
  induction bits with
  | nil => intro v i _ _; simp [joinBits]
  | cons b bs ih =>
    intro v i hv hi
    have hi' : i + (bs.length + 1) ≤ 32 := hi
    have hj := joinBit_lsb v i b hv (by omega)
    have hle : 2 ^ i * b.toNat ≤ 2 ^ i := by cases b <;> simp
    have hp : 2 ^ i ≤ 2 ^ 31 := Nat.pow_le_pow_right (by omega) (by omega)
    have hn : (joinBit .lsbFirst v i b).toNat = v.toNat + 2 ^ i * b.toNat := by
      rw [hj, BitVec.toNat_ofNat, Nat.mod_eq_of_lt (by omega)]
    rw [joinBits, ih _ _ (by rw [hn, Nat.pow_succ]; omega) (by omega), hn, List.foldr_cons]
    congr 1
    rw [Nat.pow_succ, Nat.mul_add, ← Nat.mul_assoc, Nat.add_assoc]

/-- `ReadBits` forms the number its bits stand for (42_bit_reader.md R148). -/
theorem joinBits_eq (ord : BitOrder) (bits : List Bool) (h : bits.length ≤ 32) :
    joinBits ord 0 0 bits = BitVec.ofNat 32 (bitsValue ord bits) := by
  cases ord with
  | msbFirst => exact joinBits_msb bits 0 0
  | lsbFirst => rw [joinBits_lsb bits 0 0 (by simp) (by omega)]; simp [bitsValue]

theorem nextBits_length (s : State) (c : Nat) : (s.nextBits c).length = c := by simp [State.nextBits]

/-- `ReadBits(c)` on a stream that holds its bits. -/
theorem readBits_done {s : State} {c : Nat} (hc : c ≤ 32) (h : s.used ≤ s.unit.bits) (hs : s.streamHas c) :
    readBits c s = .done (BitVec.ofNat 32 (bitsValue s.bitOrd (s.nextBits c))) (s.skipBits c) := by
  rw [readBits, readBitsFrom_done c 0 0 s h hs, joinBits_eq _ _ (by rw [nextBits_length]; exact hc)]

/-- `ReadBits(c)` on a stream that ends before its last bit. -/
theorem readBits_raised {s : State} {c : Nat} (h : s.used ≤ s.unit.bits) (hi : s.inPos.toNat ≤ s.inLen.toNat)
    (hs : ¬ s.streamHas c) :
    ∃ k, k < c ∧ s.streamHas k ∧ ¬ s.streamHas (k + 1) ∧ readBits c s = .raised .truncatedStream (s.skipBits k) :=
  readBitsFrom_raised c 0 0 s h hi hs

theorem toNat_range_lsb (v : Word) (w : Nat) :
    ((List.range w).map fun i => v.getLsbD i).foldr (fun b n => b.toNat + 2 * n) 0 = v.toNat % 2 ^ w := by
  induction w generalizing v with
  | zero => simp [Nat.mod_one]
  | succ w ih =>
    have hsh : ∀ i, v.getLsbD (i + 1) = (v >>> 1).getLsbD i := by
      intro i; rw [BitVec.getLsbD_ushiftRight, Nat.add_comm]
    have h0 : (v.getLsbD 0).toNat = v.toNat % 2 := by
      rw [BitVec.getLsbD, Nat.testBit_zero]
      rcases Nat.mod_two_eq_zero_or_one v.toNat with h | h <;> simp [h]
    rw [List.range_succ_eq_map, List.map_cons, List.map_map, List.foldr_cons]
    rw [show ((List.range w).map ((fun i => v.getLsbD i) ∘ Nat.succ)) = (List.range w).map (fun i => (v >>> 1).getLsbD i)
      from List.map_congr_left fun i _ => hsh i, ih, h0, BitVec.toNat_ushiftRight, Nat.shiftRight_eq_div_pow,
      Nat.pow_one, Nat.pow_succ, Nat.mul_comm (2 ^ w) 2, Nat.mod_mul]

theorem foldl_msb_append (bits : List Bool) (b : Bool) (n : Nat) :
    (bits ++ [b]).foldl (fun v b => 2 * v + b.toNat) n = 2 * bits.foldl (fun v b => 2 * v + b.toNat) n + b.toNat := by
  rw [List.foldl_append]; rfl

theorem foldl_msb_reverse (bits : List Bool) :
    bits.reverse.foldl (fun v b => 2 * v + b.toNat) 0 = bits.foldr (fun b v => b.toNat + 2 * v) 0 := by
  induction bits with
  | nil => rfl
  | cons b bs ih => rw [List.reverse_cons, foldl_msb_append, ih, List.foldr_cons, Nat.add_comm]

/-- The bits of a leaf value stand for the value. -/
theorem bitsValue_valueBits (ord : BitOrder) (w : Nat) (v : Word) (h : v.toNat < 2 ^ w) :
    bitsValue ord (valueBits ord w v) = v.toNat := by
  cases ord with
  | lsbFirst => simp only [bitsValue, valueBits]; rw [toNat_range_lsb, Nat.mod_eq_of_lt h]
  | msbFirst =>
    have hr : ((List.range w).map fun i => v.getLsbD (w - 1 - i)) = ((List.range w).map fun i => v.getLsbD i).reverse := by
      apply List.ext_getElem
      · simp
      · intro i h1 h2
        simp only [List.length_map, List.length_range] at h1
        simp [List.getElem_reverse]
    simp only [bitsValue, valueBits]
    rw [hr, foldl_msb_reverse, toNat_range_lsb, Nat.mod_eq_of_lt h]

@[simp] theorem valueBits_length (ord : BitOrder) (w : Nat) (v : Word) : (valueBits ord w v).length = w := by
  cases ord <;> simp [valueBits]

end Sys2Proof.Machine
end

