-- ==== Sys2Proof/Laws/Encoding.lean ====
section
/-! SUPPORT. The command word: packing and unpacking its fields, the opcode map, and what the decoder answers. -/

namespace Sys2Proof

@[simp] theorem opcField_packWord (o : Byte) (x : Field24) (a : Word) : opcField (packWord o x a) = o := by
  apply BitVec.eq_of_getLsbD_eq
  intro i hi
  simp only [opcField, packWord, BitVec.getLsbD_extractLsb', BitVec.getLsbD_append, hi, decide_true, Bool.true_and]
  rw [if_neg (by omega), if_neg (by omega)]
  congr 1; omega

@[simp] theorem xField_packWord (o : Byte) (x : Field24) (a : Word) : xField (packWord o x a) = x := by
  apply BitVec.eq_of_getLsbD_eq
  intro i hi
  simp only [xField, packWord, BitVec.getLsbD_extractLsb', BitVec.getLsbD_append, hi, decide_true, Bool.true_and]
  rw [if_neg (by omega), if_pos (by omega)]
  congr 1; omega

@[simp] theorem aField_packWord (o : Byte) (x : Field24) (a : Word) : aField (packWord o x a) = a := by
  apply BitVec.eq_of_getLsbD_eq
  intro i hi
  simp only [aField, packWord, BitVec.getLsbD_extractLsb', BitVec.getLsbD_append, hi, decide_true, Bool.true_and]
  rw [if_pos (by omega)]
  congr 1; omega

/-- A word is the packing of its three fields. -/
theorem packWord_fields (w : CmdWord) : packWord (opcField w) (xField w) (aField w) = w := by
  apply BitVec.eq_of_getLsbD_eq
  intro i hi
  simp only [opcField, xField, aField, packWord, BitVec.getLsbD_extractLsb', BitVec.getLsbD_append]
  split
  · simp_all
  · split
    · rw [show 32 + (i - 32) = i by omega]; simp; omega
    · rw [show 56 + (i - 32 - 24) = i by omega]; simp; omega

/-- Two words with the same fields are one word. -/
theorem packWord_inj {o o' : Byte} {x x' : Field24} {a a' : Word} :
    packWord o x a = packWord o' x' a' ↔ o = o' ∧ x = x' ∧ a = a' := by
  constructor
  · intro h
    exact ⟨by simpa using congrArg opcField h, by simpa using congrArg xField h, by simpa using congrArg aField h⟩
  · rintro ⟨rfl, rfl, rfl⟩; rfl

/-- A mask acts on each field. -/
theorem packWord_and (o p : Byte) (x y : Field24) (a b : Word) :
    packWord o x a &&& packWord p y b = packWord (o &&& p) (x &&& y) (a &&& b) := by
  apply BitVec.eq_of_getLsbD_eq
  intro i _
  simp only [packWord, BitVec.getLsbD_and, BitVec.getLsbD_append]
  split
  · rfl
  · split <;> rfl

/-- The pattern test of 30_encoding.md R95, field by field. -/
theorem matches_iff (w : CmdWord) (o : Opcode) :
    w &&& o.mask = o.pattern ↔ opcField w = o.code ∧ xField w &&& o.zeroX = 0 ∧ aField w &&& o.zeroA = 0 := by
  rw [show w &&& o.mask = packWord (opcField w &&& 0xFF) (xField w &&& o.zeroX) (aField w &&& o.zeroA) by
    rw [← packWord_and, packWord_fields]; rfl, Opcode.pattern, packWord_inj]
  rw [show opcField w &&& 0xFF = opcField w from BitVec.and_allOnes]

@[simp] theorem ofCode_code (o : Opcode) : Opcode.ofCode o.code = some o := by cases o <;> rfl

theorem code_of_ofCode {b : Byte} {o : Opcode} (h : Opcode.ofCode b = some o) : o.code = b := by
  simpa using List.find?_some h

theorem ofCode_eq_some {b : Byte} {o : Opcode} : Opcode.ofCode b = some o ↔ b = o.code :=
  ⟨fun h => (code_of_ofCode h).symm, fun h => h ▸ ofCode_code o⟩

theorem code_injective {o p : Opcode} (h : o.code = p.code) : o = p := by
  have := ofCode_code o
  rw [h, ofCode_code] at this
  exact (Option.some.inj this).symm

@[simp] theorem op_withFields (o : Opcode) (x : Field24) (a : Word) : (o.withFields x a).op = o := by cases o <;> rfl

theorem count3_legal : ∀ n : BitVec 3, (n != 0 && n.ule 4) = true ↔ 1 ≤ n.toNat ∧ n.toNat ≤ 4 := by decide

theorem width6_legal : ∀ n : BitVec 6, (n != 0 && n.ule 32) = true ↔ 1 ≤ n.toNat ∧ n.toNat ≤ 32 := by decide

theorem count6_legal : ∀ n : BitVec 6, n.ule 32 = true ↔ n.toNat ≤ 32 := by decide

theorem ucode_legal : ∀ n : BitVec 2, (n != 3) = true ↔ n.toNat ≤ 2 := by decide

/-- The decoder's value check is the well-formedness of the command. -/
theorem legalValues_iff (i : Instr) : i.legalValues = true ↔ i.WellFormed := by
  cases i with
  | fail kind _ => exact count3_legal kind
  | cfgbits _ _ u => exact ucode_legal u
  | rdbytes n => exact count3_legal n
  | magic n _ => exact count3_legal n
  | getbits n => exact count6_legal n
  | hbuild n => exact width6_legal n
  | _ => simp [Instr.legalValues]

theorem decode_eq_ok {w : CmdWord} {i : Instr} :
    decode w = .ok i ↔ w &&& i.op.mask = i.op.pattern ∧ i = i.op.withFields (xField w) (aField w) ∧ i.WellFormed := by
  rw [matches_iff]
  constructor
  · intro h
    unfold decode at h
    split at h
    · cases h
    · rename_i o ho
      split at h
      · rename_i hz
        split at h
        · rename_i hl
          cases h
          simp only [op_withFields]
          exact ⟨⟨(code_of_ofCode ho).symm, hz⟩, trivial, (legalValues_iff _).1 hl⟩
        · cases h
      · cases h
  · rintro ⟨⟨hc, hz⟩, hi, hw⟩
    have ho : Opcode.ofCode (opcField w) = some i.op := ofCode_eq_some.2 hc
    have hl : (i.op.withFields (xField w) (aField w)).legalValues = true := (legalValues_iff _).2 (hi ▸ hw)
    simp only [decode, ho, if_pos hz, hl, if_true]
    exact congrArg _ hi.symm

/-- A low field placed under zeros is read back. -/
theorem extract_low {n m k : Nat} (z : BitVec n) (v : BitVec m) (h : k = m) :
    (z ++ v).extractLsb' 0 k = v.setWidth k := by
  subst h
  apply BitVec.eq_of_getLsbD_eq
  intro i hi
  simp [BitVec.getLsbD_append, hi]

/-- The fields of a command give the command back (30_encoding.md R93: nothing is extended, scaled or biased). -/
theorem withFields_fields (i : Instr) : i.op.withFields i.x i.a = i := by
  cases i with
  | cfgwin cap prebuf fill =>
    simp only [Instr.op, Opcode.withFields, Instr.x, Instr.a]
    congr 1
    · simpa using extract_low fill cap rfl
    · apply BitVec.eq_of_getLsbD_eq
      intro j hj
      simp only [BitVec.getLsbD_extractLsb', BitVec.getLsbD_append, hj, decide_true, Bool.true_and]
      rw [if_neg (by omega), show 24 + j - 24 = j by omega]
  | cfgbits b y u => revert u; cases b <;> cases y <;> decide
  | fail k d => simp only [Instr.op, Opcode.withFields, Instr.x, Instr.a]; congr 1; simpa using extract_low 0 k rfl
  | rdbytes n => simp only [Instr.op, Opcode.withFields, Instr.x]; congr 1; simpa using extract_low 0 n rfl
  | magic n v => simp only [Instr.op, Opcode.withFields, Instr.x, Instr.a]; congr 1; simpa using extract_low 0 n rfl
  | getbits n => simp only [Instr.op, Opcode.withFields, Instr.x]; congr 1; simpa using extract_low 0 n rfl
  | hbuild n => simp only [Instr.op, Opcode.withFields, Instr.x]; congr 1; simpa using extract_low 0 n rfl
  | liti b => simp only [Instr.op, Opcode.withFields, Instr.a]; congr 1; simpa using extract_low 0 b rfl
  | _ => rfl

theorem zeros21 : ∀ n : BitVec 3, ((0 : BitVec 21) ++ n) &&& 0xFFFFF8 = 0 := by decide

theorem zeros18 : ∀ n : BitVec 6, ((0 : BitVec 18) ++ n) &&& 0xFFFFC0 = 0 := by decide

theorem zeros24 : ∀ b : Byte, ((0 : BitVec 24) ++ b) &&& 0xFFFFFF00 = 0 := by decide

theorem zeros28 : ∀ (u : BitVec 2) (y b : Bool),
    ((0 : BitVec 28) ++ u ++ BitVec.ofBool y ++ BitVec.ofBool b) &&& (0xFFFFFFF0 : BitVec 32) = 0 := by decide

/-- The must-be-zero bits of an encoded command are zero (30_encoding.md R94). -/
theorem encode_zeros (i : Instr) : i.x &&& i.op.zeroX = 0 ∧ i.a &&& i.op.zeroA = 0 := by
  cases i with
  | fail k d => exact ⟨zeros21 k, by simp [Instr.op, Opcode.zeroA]⟩
  | rdbytes n => exact ⟨zeros21 n, by simp [Instr.a]⟩
  | magic n v => exact ⟨zeros21 n, by simp [Instr.op, Opcode.zeroA]⟩
  | getbits n => exact ⟨zeros18 n, by simp [Instr.a]⟩
  | hbuild n => exact ⟨zeros18 n, by simp [Instr.a]⟩
  | cfgbits b y u => exact ⟨by simp [Instr.x], zeros28 u y.bit b.bit⟩
  | liti b => exact ⟨by simp [Instr.x], zeros24 b⟩
  | _ => simp [Instr.x, Instr.a, Instr.op, Opcode.zeroX, Opcode.zeroA]

end Sys2Proof
end

