-- ==== Sys2Proof/Laws/Ops.lean ====
section
/-! SUPPORT. One spec lemma per shared operation: what reading can change, what it can raise, what a build or a walk gives,
what appending and copying write. -/

namespace Sys2Proof.Machine

/-! ### What reading can change -/

/-- The state an attempt leaves. -/
def Attempt.final {α : Type} : Attempt α → State
  | .done _ s => s
  | .raised _ s => s

/-- `t` differs from `s` at most in the input position and the bit buffer. -/
abbrev CursorOnly (s t : State) : Prop := t = { s with inPos := t.inPos, buf := t.buf, used := t.used }

theorem CursorOnly.refl (s : State) : CursorOnly s s := rfl

theorem CursorOnly.trans {s t u : State} (h : CursorOnly s t) (k : CursorOnly t u) : CursorOnly s u := by
  unfold CursorOnly at *; rw [k, h]

theorem skipBits_cursorOnly (s : State) (c : Nat) : CursorOnly s (s.skipBits c) := rfl

/-- The cursors of a reading session: what `CursorsOk` says of them, less the input's size. -/
structure ReadOk (s : State) : Prop where
  inPosLe : s.inPos.toNat ≤ s.inLen.toNat
  usedLe : s.used ≤ s.unit.bits
  bufLt : s.buf.toNat < 2 ^ s.unit.bits

theorem assembleLittle_lt (bs : List Byte) : assembleLittle bs < 256 ^ bs.length := by
  induction bs with
  | nil => simp [assembleLittle]
  | cons b bs ih =>
    have := b.isLt
    simp only [assembleLittle, List.length_cons, Nat.pow_succ]
    omega

theorem assemble_lt (ord : ByteOrder) (bs : List Byte) : assemble ord bs < 256 ^ bs.length := by
  cases ord with
  | little => exact assembleLittle_lt bs
  | big => simpa [assemble] using assembleLittle_lt bs.reverse

@[simp] theorem inBytes_length (s : State) (p n : Nat) : (s.inBytes p n).length = n := by simp [State.inBytes]

/-- A refill unit fits in its bits (10_state.md R45: the upper bits of `BUF` are 0). -/
theorem unit_lt (s : State) (p : Nat) :
    (BitVec.ofNat 32 (assemble s.byteOrd (s.inBytes p s.unit.bytes))).toNat < 2 ^ s.unit.bits := by
  have h := assemble_lt s.byteOrd (s.inBytes p s.unit.bytes)
  rw [inBytes_length, show (256 : Nat) = 2 ^ 8 from rfl, ← Nat.pow_mul] at h
  rw [BitVec.toNat_ofNat]
  exact Nat.lt_of_le_of_lt (Nat.mod_le _ _) h

theorem unitNo_lt {s : State} (h : s.buf.toNat < 2 ^ s.unit.bits) (k : Nat) :
    (s.unitNo k).toNat < 2 ^ s.unit.bits := by
  cases k with
  | zero => exact h
  | succ k => exact unit_lt s _

theorem ReadOk.skip {s : State} (h : ReadOk s) {c : Nat} (hs : s.streamHas c) : ReadOk (s.skipBits c) where
  inPosLe := by rw [skipBits_inPos s c hs]; exact hs
  usedLe := skipBits_used_le s c h.usedLe
  bufLt := unitNo_lt h.bufLt _

/-- Every outcome of a read: the next bit, or `TruncatedStream` with nothing changed. -/
theorem readBit_cases {s : State} (h : ReadOk s) :
    (s.streamHas 1 ∧ readBit s = .done (s.streamBit 0) (s.skipBits 1)) ∨
    (¬ s.streamHas 1 ∧ readBit s = .raised .truncatedStream s) := by
  by_cases hs : s.streamHas 1
  · exact .inl ⟨hs, readBit_done h.usedLe hs⟩
  · exact .inr ⟨hs, readBit_raised h.usedLe h.inPosLe hs⟩

/-- Every outcome of a field read, with the cursors kept. -/
theorem readBits_cases {s : State} (h : ReadOk s) {c : Nat} (hc : c ≤ 32) :
    (s.streamHas c ∧
      readBits c s = .done (BitVec.ofNat 32 (bitsValue s.bitOrd (s.nextBits c))) (s.skipBits c)) ∨
    (¬ s.streamHas c ∧ ∃ t, CursorOnly s t ∧ ReadOk t ∧ readBits c s = .raised .truncatedStream t) := by
  by_cases hs : s.streamHas c
  · exact .inl ⟨hs, readBits_done hc h.usedLe hs⟩
  · obtain ⟨k, _, hk, _, he⟩ := readBits_raised h.usedLe h.inPosLe hs
    exact .inr ⟨hs, _, skipBits_cursorOnly s k, h.skip hk, he⟩

/-! The frame of reading in every state, reachable or not. -/

theorem andThen_final {α β : Type} {r : Attempt α} {f : α → State → Attempt β} {s : State}
    (hr : CursorOnly s r.final) (hf : ∀ v t, CursorOnly t (f v t).final) : CursorOnly s (r.andThen f).final := by
  cases r with
  | done v t => exact hr.trans (hf v t)
  | raised k t => exact hr

theorem refill_frame (s : State) : CursorOnly s (refill s).final := by
  unfold refill; split <;> rfl

theorem readBit_frame (s : State) : CursorOnly s (readBit s).final := by
  unfold readBit
  split
  · exact andThen_final (refill_frame s) fun _ _ => rfl
  · rfl

theorem readBitsFrom_frame (n : Nat) : ∀ (i : Nat) (v : Word) (s : State), CursorOnly s (readBitsFrom n i v s).final := by
  induction n with
  | zero => intro i v s; rfl
  | succ n ih => intro i v s; exact andThen_final (readBit_frame s) fun _ _ => ih _ _ _

theorem readBits_frame (c : Nat) (s : State) : CursorOnly s (readBits c s).final := readBitsFrom_frame c 0 0 s

theorem buildNode_frame (levels : Nat) : ∀ (count : Nat) (s : State), CursorOnly s (buildNode levels count s).final := by
  induction levels with
  | zero => intro count s; rfl
  | succ n ih =>
    intro count s
    unfold buildNode
    split
    · rfl
    · refine andThen_final (readBit_frame s) fun b t => ?_
      split
      · exact andThen_final (ih _ _) fun _ _ => andThen_final (ih _ _) fun _ _ => rfl
      · exact andThen_final (readBits_frame _ _) fun _ _ => rfl

theorem walk_frame (t : Trie) : ∀ s : State, CursorOnly s (walk t s).final := by
  induction t with
  | leaf v => intro s; rfl
  | branch l r hl hr =>
    intro s
    refine andThen_final (readBit_frame s) fun b u => ?_
    split
    · exact hr u
    · exact hl u

/-- The kinds an attempt may raise. -/
def Attempt.Raises {α : Type} (r : Attempt α) (allowed : ErrorKind → Prop) : Prop :=
  ∀ k s, r = .raised k s → allowed k

theorem andThen_raises {α β : Type} {r : Attempt α} {f : α → State → Attempt β} {p : ErrorKind → Prop}
    (hr : r.Raises p) (hf : ∀ v t, (f v t).Raises p) : (r.andThen f).Raises p := by
  cases r with
  | done v t => exact hf v t
  | raised k t => exact fun k' s' h => hr k' t (by cases h; rfl)

theorem readBit_raises (s : State) : (readBit s).Raises (· = .truncatedStream) := by
  unfold readBit
  split
  · refine andThen_raises (fun k t h => ?_) fun _ _ k t h => by cases h
    unfold refill at h; split at h <;> cases h; rfl
  · intro k t h; cases h

theorem readBitsFrom_raises (n : Nat) : ∀ (i : Nat) (v : Word) (s : State),
    (readBitsFrom n i v s).Raises (· = .truncatedStream) := by
  induction n with
  | zero => intro i v s k t h; cases h
  | succ n ih => intro i v s; exact andThen_raises (readBit_raises s) fun _ _ => ih _ _ _

theorem readBits_raises (c : Nat) (s : State) : (readBits c s).Raises (· = .truncatedStream) :=
  readBitsFrom_raises c 0 0 s

theorem walk_raises (t : Trie) : ∀ s : State, (walk t s).Raises (· = .truncatedStream) := by
  induction t with
  | leaf v => intro s k u h; cases h
  | branch l r hl hr =>
    intro s
    refine andThen_raises (readBit_raises s) fun b u => ?_
    split
    · exact hr u
    · exact hl u

theorem buildNode_raises (levels : Nat) : ∀ (count : Nat) (s : State),
    (buildNode levels count s).Raises fun k => k = .truncatedStream ∨ k = .unsupportedConfiguration := by
  have up : ∀ {α : Type} {r : Attempt α}, r.Raises (· = .truncatedStream) →
      r.Raises fun k => k = .truncatedStream ∨ k = .unsupportedConfiguration :=
    fun h k s e => .inl (h k s e)
  induction levels with
  | zero => intro count s k t h; cases h; exact .inr rfl
  | succ n ih =>
    intro count s
    unfold buildNode
    split
    · intro k t h; cases h; exact .inr rfl
    · refine andThen_raises (up (readBit_raises s)) fun b t => ?_
      split
      · exact andThen_raises (ih _ _) fun _ _ => andThen_raises (ih _ _) fun _ _ k t h => by cases h
      · exact andThen_raises (up (readBits_raises _ _)) fun _ _ k t h => by cases h

/-! ### Building and walking -/

theorem nextBits_append {s : State} (a b : Nat) (h : s.used ≤ s.unit.bits) (hs : s.streamHas a) :
    s.nextBits (a + b) = s.nextBits a ++ (s.skipBits a).nextBits b := by
  simp only [State.nextBits, List.range_add, List.map_append, List.map_map]
  congr 1
  exact List.map_congr_left fun i _ => (streamBit_skip i h hs).symm

/-- A build of a described trie gives the trie and consumes its description. -/
theorem buildNode_describe (t : Trie) : ∀ (levels count : Nat) (s : State),
    s.used ≤ s.unit.bits → s.hwidth.toNat ≤ 32 → t.fits s.hwidth.toNat → t.depth < levels →
    count + t.nodes ≤ s.params.hufNodesMax →
    s.streamHas (t.describe s.bitOrd s.hwidth.toNat).length →
    s.nextBits (t.describe s.bitOrd s.hwidth.toNat).length = t.describe s.bitOrd s.hwidth.toNat →
    buildNode levels count s =
      .done (t, count + t.nodes) (s.skipBits (t.describe s.bitOrd s.hwidth.toNat).length) := by
  induction t with
  | leaf v =>
    intro levels count s hu hw hf hd hn hs hb
    obtain ⟨levels, rfl⟩ : ∃ m, levels = m + 1 := ⟨levels - 1, by omega⟩
    simp only [Trie.describe, List.length_cons, valueBits_length, Trie.nodes, Trie.fits] at *
    have h1 := streamHas_mono (Nat.le_add_left 1 _) hs
    have hs' : (s.skipBits 1).streamHas s.hwidth.toNat := streamHas_skip hu (Nat.add_comm _ 1 ▸ hs)
    rw [nextBits_succ _ hu h1, List.cons.injEq] at hb
    rw [buildNode, if_neg (by omega), readBit_done hu h1, hb.1]
    simp only [Attempt.andThen, Bool.false_eq_true, if_false, skipBits_hwidth]
    rw [readBits_done hw (skipBits_used_le s 1 hu) hs', skipBits_bitOrd, hb.2, bitsValue_valueBits _ _ _ hf,
      skipBits_skip hu (Nat.add_comm _ 1 ▸ hs), Nat.add_comm 1]
    simp
  | branch l r hl hr =>
    intro levels count s hu hw hf hd hn hs hb
    obtain ⟨levels, rfl⟩ : ∃ m, levels = m + 1 := ⟨levels - 1, by omega⟩
    simp only [Trie.describe, List.length_cons, List.length_append, Trie.nodes, Trie.fits, Trie.depth] at *
    have h1 := streamHas_mono (Nat.le_add_left 1 _) hs
    have hs1 : (s.skipBits 1).streamHas
        ((l.describe s.bitOrd s.hwidth.toNat).length + (r.describe s.bitOrd s.hwidth.toNat).length) :=
      streamHas_skip hu (Nat.add_comm _ 1 ▸ hs)
    have hu1 := skipBits_used_le s 1 hu
    have hsl := streamHas_mono (Nat.le_add_right _ _) hs1
    rw [nextBits_succ _ hu h1, List.cons.injEq, nextBits_append _ _ hu1 hsl] at hb
    obtain ⟨hb0, hb⟩ := hb
    have hbl := List.append_inj hb (nextBits_length _ _)
    have hL := hl levels (count + 1) (s.skipBits 1) hu1 hw hf.1 (by omega)
      (by rw [skipBits_params]; omega) hsl hbl.1
    rw [skipBits_bitOrd, skipBits_hwidth] at hL
    have hu2 := skipBits_used_le (s.skipBits 1) (l.describe s.bitOrd s.hwidth.toNat).length hu1
    have hR := hr levels (count + 1 + l.nodes) _ hu2 hw hf.2 (by omega)
      (by simp only [skipBits_params]; omega) (streamHas_skip hu1 hs1) hbl.2
    simp only [skipBits_bitOrd, skipBits_hwidth] at hR
    rw [buildNode, if_neg (by omega), readBit_done hu h1, hb0]
    simp only [Attempt.andThen, if_true, hL, hR]
    rw [skipBits_skip hu1 hs1, skipBits_skip hu (Nat.add_comm _ 1 ▸ hs)]
    simp only [Nat.add_assoc, Nat.add_comm 1]

/-- A walk along a path of the trie gives the leaf's value and consumes the path. -/
theorem walk_follow (t : Trie) : ∀ (p : List Bool) (v : Word) (s : State), s.used ≤ s.unit.bits →
    t.follow p = some v → s.streamHas p.length → s.nextBits p.length = p →
    walk t s = .done v (s.skipBits p.length) := by
  induction t with
  | leaf w =>
    intro p v s hu hf hs hb
    cases p with
    | nil => simp only [Trie.follow, Option.some.injEq] at hf; simp [walk, hf, skipBits_zero s hu]
    | cons b p => cases hf
  | branch l r hl hr =>
    intro p v s hu hf hs hb
    cases p with
    | nil => cases hf
    | cons b p =>
      simp only [List.length_cons] at hs hb ⊢
      have h1 := streamHas_mono (Nat.le_add_left 1 _) hs
      have hs1 : (s.skipBits 1).streamHas p.length := streamHas_skip hu (Nat.add_comm _ 1 ▸ hs)
      have hu1 := skipBits_used_le s 1 hu
      rw [nextBits_succ _ hu h1, List.cons.injEq] at hb
      have hk := skipBits_skip hu (Nat.add_comm p.length 1 ▸ hs)
      rw [walk, readBit_done hu h1, hb.1, Attempt.andThen]
      cases b with
      | true => rw [if_pos rfl, hr p v _ hu1 hf hs1 hb.2, hk, Nat.add_comm]
      | false => rw [if_neg (by decide), hl p v _ hu1 hf hs1 hb.2, hk, Nat.add_comm]

theorem bitsValue_lt (ord : BitOrder) (bits : List Bool) : bitsValue ord bits < 2 ^ bits.length := by
  cases ord with
  | lsbFirst => exact lsb_value_lt bits
  | msbFirst =>
    have := lsb_value_lt bits.reverse
    rw [← foldl_msb_reverse, List.reverse_reverse, List.length_reverse] at this
    exact this

/-- Every trie a build gives is within the limits and counted (45_huffman.md R201, R203), and the cursors stay in range. -/
theorem buildNode_done (levels : Nat) : ∀ (count : Nat) (s : State) (t : Trie) (n : Nat) (u : State), ReadOk s →
    s.hwidth.toNat ≤ 32 → count ≤ s.params.hufNodesMax → buildNode levels count s = .done (t, n) u →
    n = count + t.nodes ∧ n ≤ s.params.hufNodesMax ∧ t.depth < levels ∧ t.fits s.hwidth.toNat ∧ ReadOk u := by
  induction levels with
  | zero => intro count s t n u _ _ _ h; cases h
  | succ levels ih =>
    intro count s t n u hr hw hc h
    rw [buildNode] at h
    split at h
    · cases h
    rename_i hne
    rcases readBit_cases hr with ⟨h1, he⟩ | ⟨_, he⟩
    swap
    · rw [he] at h; cases h
    have hr1 := hr.skip h1
    rw [he, Attempt.andThen] at h
    split at h
    · cases hl : buildNode levels (count + 1) (s.skipBits 1) with
      | raised k x => rw [hl] at h; cases h
      | done p x =>
        obtain ⟨l, m⟩ := p
        obtain ⟨e1, e2, e3, e4, e5⟩ := ih _ _ l m x hr1 hw (by rw [skipBits_params]; omega) hl
        have hx : CursorOnly (s.skipBits 1) x := by simpa [hl, Attempt.final] using buildNode_frame levels (count + 1) (s.skipBits 1)
        rw [skipBits_params] at e2
        rw [skipBits_hwidth] at e4
        have hxp : x.params = s.params := by rw [hx]; rfl
        have hxw : x.hwidth = s.hwidth := by rw [hx]; rfl
        rw [hl, Attempt.andThen] at h
        cases hr' : buildNode levels m x with
        | raised k y => rw [hr'] at h; cases h
        | done p y =>
          obtain ⟨r, m'⟩ := p
          obtain ⟨f1, f2, f3, f4, f5⟩ := ih _ _ r m' y e5 (by rw [hxw]; exact hw) (by rw [hxp]; exact e2) hr'
          rw [hr', Attempt.andThen] at h
          injection h with h h'
          injection h with ht hn
          subst ht hn h'
          rw [hxp] at f2
          rw [hxw] at f4
          simp only [Trie.nodes, Trie.depth, Trie.fits]
          exact ⟨by omega, f2, by omega, ⟨e4, f4⟩, f5⟩
    · rcases readBits_cases hr1 hw with ⟨h2, he2⟩ | ⟨_, x, _, _, he2⟩
      · rw [skipBits_hwidth, he2, Attempt.andThen] at h
        injection h with h h'
        injection h with ht hn
        subst ht hn h'
        simp only [Trie.nodes, Trie.depth, Trie.fits]
        refine ⟨trivial, by omega, by omega, ?_, hr1.skip h2⟩
        rw [BitVec.toNat_ofNat]
        have := bitsValue_lt s.bitOrd ((s.skipBits 1).nextBits s.hwidth.toNat)
        rw [nextBits_length] at this
        exact Nat.lt_of_le_of_lt (Nat.mod_le _ _) this
      · rw [skipBits_hwidth, he2] at h; cases h

/-- A raise of a build leaves the cursors in range. -/
theorem buildNode_raised_readOk (levels : Nat) : ∀ (count : Nat) (s : State) (k : ErrorKind) (u : State), ReadOk s →
    s.hwidth.toNat ≤ 32 → count ≤ s.params.hufNodesMax → buildNode levels count s = .raised k u → ReadOk u := by
  induction levels with
  | zero => intro count s k u hr _ _ h; cases h; exact hr
  | succ levels ih =>
    intro count s k u hr hw hc h
    rw [buildNode] at h
    split at h
    · cases h; exact hr
    rename_i hne
    rcases readBit_cases hr with ⟨h1, he⟩ | ⟨_, he⟩
    swap
    · rw [he] at h; cases h; exact hr
    have hr1 := hr.skip h1
    rw [he, Attempt.andThen] at h
    split at h
    · cases hl : buildNode levels (count + 1) (s.skipBits 1) with
      | raised k' x => rw [hl] at h; cases h; exact ih _ _ _ _ hr1 hw (by rw [skipBits_params]; omega) hl
      | done p x =>
        obtain ⟨l, m⟩ := p
        obtain ⟨e1, e2, e3, e4, e5⟩ := buildNode_done levels _ _ l m x hr1 hw (by rw [skipBits_params]; omega) hl
        have hx : CursorOnly (s.skipBits 1) x := by simpa [hl, Attempt.final] using buildNode_frame levels (count + 1) (s.skipBits 1)
        have hxp : x.params = s.params := by rw [hx]; rfl
        have hxw : x.hwidth = s.hwidth := by rw [hx]; rfl
        rw [hl, Attempt.andThen] at h
        cases hr' : buildNode levels m x with
        | done p y => rw [hr'] at h; cases h
        | raised k' y =>
          rw [hr'] at h; cases h
          exact ih _ _ _ _ e5 (by rw [hxw]; exact hw) (by rw [hxp]; simpa using e2) hr'
    · rcases readBits_cases hr1 hw with ⟨h2, he2⟩ | ⟨_, x, _, hx, he2⟩
      · rw [skipBits_hwidth, he2] at h; cases h
      · rw [skipBits_hwidth, he2] at h; cases h; exact hx

/-- A walk keeps the cursors in range, whatever comes of it. -/
theorem walk_readOk (t : Trie) : ∀ s : State, ReadOk s → ReadOk (walk t s).final := by
  induction t with
  | leaf v => intro s h; exact h
  | branch l r hl hr =>
    intro s h
    rcases readBit_cases h with ⟨h1, he⟩ | ⟨_, he⟩
    · rw [walk, he, Attempt.andThen]
      split
      · exact hr _ (h.skip h1)
      · exact hl _ (h.skip h1)
    · rw [walk, he]; exact h

/-! ### Appending and copying -/

/-- `WIN` as `Emit` leaves it. -/
theorem winByte_emit (b : Byte) (s : State) (i : Nat) (h : s.win.wf s.winFill) :
    (emit b s).winByte i = if i = s.wptr.toNat then b else s.winByte i :=
  winByte_ringAppend b s i h

/-- `OUT` as `Emit` leaves it. -/
theorem outByte_emit (b : Byte) (s : State) (i : Nat) (h : s.outMem.wf none) :
    (emit b s).outByte i = if i = s.outLen.toNat then b else s.outByte i :=
  outByte_outAppend b (ringAppend b s) i h

theorem emit_wptr_toNat (b : Byte) (s : State) (h : 1 ≤ s.cap.toNat) :
    (emit b s).wptr.toNat = (s.wptr.toNat + 1) % s.cap.toNat := by
  have := s.cap.isLt
  have := Nat.mod_lt (s.wptr.toNat + 1) (Nat.lt_of_lt_of_le Nat.zero_lt_one h)
  rw [emit_wptr, BitVec.toNat_ofNat, Nat.mod_eq_of_lt (by omega)]

theorem emit_outLen_toNat (b : Byte) (s : State) (h : s.outLen.toNat + 1 < 2 ^ 32) :
    (emit b s).outLen.toNat = s.outLen.toNat + 1 := by
  rw [emit_outLen, BitVec.toNat_add]
  simpa using Nat.mod_eq_of_lt h

/-- `Emit` appends one byte to ring and output and changes nothing else (43_window.md R173). -/
theorem emit_appended (b : Byte) (s : State) (hw : s.win.wf s.winFill) (ho : s.outMem.wf none) (hc : 1 ≤ s.cap.toNat)
    (hl : s.outLen.toNat + 1 < 2 ^ 32) : Appended s (emit b s) b where
  frame := rfl
  ringByte := by rw [winByte_emit b s _ hw, if_pos rfl]
  ringElse i hi := by rw [winByte_emit b s _ hw, if_neg hi]
  wptr := emit_wptr_toNat b s hc
  outByte := by rw [outByte_emit b s _ ho, if_pos rfl]
  outElse i hi := by rw [outByte_emit b s _ ho, if_neg hi]
  outLen := emit_outLen_toNat b s hl

/-- A copy changes only the ring and the output. -/
theorem copyBytes_frame (d : Nat) (n : Nat) : ∀ s : State, copyBytes d n s =
    { s with
      win := (copyBytes d n s).win
      wptr := (copyBytes d n s).wptr
      outMem := (copyBytes d n s).outMem
      outLen := (copyBytes d n s).outLen } := by
  induction n with
  | zero => intro s; rfl
  | succ n ih =>
    intro s
    have h := ih (emit (s.winByte (s.sourceIndex d)) s)
    rw [copyBytes]
    exact h.trans rfl

/-- A ring position moved on by less than the ring is another position. -/
theorem ring_ne {p m c : Nat} (hp : p < c) (h0 : 0 < m) (hm : m < c) : (p + m) % c ≠ p := by
  by_cases h : p + m < c
  · rw [Nat.mod_eq_of_lt h]; omega
  · rw [Nat.mod_eq_sub_mod (by omega), Nat.mod_eq_of_lt (by omega)]; omega

theorem next_mod {j d : Nat} (hd : 1 ≤ d) :
    (j % d + 1 = d ∧ (j + 1) % d = 0) ∨ (j % d + 1 < d ∧ (j + 1) % d = j % d + 1) := by
  have hlt := Nat.mod_lt j hd
  have he : (j + 1) % d = (j % d + 1) % d := by rw [Nat.mod_add_mod]
  by_cases h : j % d + 1 = d
  · exact .inl ⟨h, by rw [he, h, Nat.mod_self]⟩
  · exact .inr ⟨by omega, by rw [he, Nat.mod_eq_of_lt (by omega)]⟩

/-- After one copied byte, the bytes behind the cursor are the old ones moved on by one (43_window.md R181). -/
theorem behind_emit (s : State) (d j : Nat) (hw : s.win.wf s.winFill) (hp : s.wptr.toNat < s.cap.toNat) (h1 : 1 ≤ d)
    (hd : d ≤ s.cap.toNat) : (emit (s.behind d 0) s).behind d j = s.behind d (j + 1) := by
  have hm := emit_wptr_toNat (s.behind d 0) s (by omega)
  have hq : ((s.wptr.toNat + 1) % s.cap.toNat + s.cap.toNat - d + j % d) % s.cap.toNat =
      (s.wptr.toNat + (s.cap.toNat - d + (j % d + 1))) % s.cap.toNat := by
    rw [show (s.wptr.toNat + 1) % s.cap.toNat + s.cap.toNat - d + j % d =
      (s.wptr.toNat + 1) % s.cap.toNat + (s.cap.toNat - d + j % d) by omega, Nat.mod_add_mod]
    congr 1; omega
  rw [State.behind, hm, emit_cap, hq, winByte_emit _ _ _ hw]
  rcases next_mod (j := j) h1 with ⟨ha, hb⟩ | ⟨ha, hb⟩
  · rw [if_pos, State.behind, State.behind, hb, Nat.zero_mod]
    rw [show s.wptr.toNat + (s.cap.toNat - d + (j % d + 1)) = s.wptr.toNat + s.cap.toNat by omega, Nat.add_mod_right,
      Nat.mod_eq_of_lt hp]
  · rw [if_neg (ring_ne hp (by omega) (by omega)), State.behind, hb]
    congr 2; omega

theorem copyBytes_copied (d : Nat) (h1 : 1 ≤ d) (n : Nat) : ∀ s : State, s.win.wf s.winFill → s.outMem.wf none →
    s.wptr.toNat < s.cap.toNat → d ≤ s.cap.toNat → s.outLen.toNat + n < 2 ^ 32 →
    Copied s (copyBytes d n s) d n ∧ (copyBytes d n s).win.wf s.winFill ∧ (copyBytes d n s).outMem.wf none := by
  induction n with
  | zero =>
    intro s hw ho hp _ _
    exact ⟨⟨rfl, (Nat.mod_eq_of_lt hp).symm, rfl, fun k hk => absurd hk (by omega), fun _ _ => rfl,
      fun k hk => absurd hk (by omega), fun _ _ => rfl⟩, hw, ho⟩
  | succ n ih =>
    intro s hw ho hp hd hl
    have hb : s.winByte (s.sourceIndex d) = s.behind d 0 := by
      simp [State.behind, State.sourceIndex]
    have hc : 1 ≤ s.cap.toNat := by omega
    have hm := emit_wptr_toNat (s.behind d 0) s hc
    have hol := emit_outLen_toNat (s.behind d 0) s (by omega)
    have hpos : 0 < s.cap.toNat := hc
    have hshift : ∀ k, ((s.wptr.toNat + 1) % s.cap.toNat + k) % s.cap.toNat = (s.wptr.toNat + (k + 1)) % s.cap.toNat := by
      intro k; rw [Nat.mod_add_mod]; congr 1; omega
    obtain ⟨hC, hW, hO⟩ := ih (emit (s.behind d 0) s)
      (by rw [emit_win, emit_winFill]; exact Memory.write_wf _ _ hw)
      (by rw [emit_outMem]; exact Memory.write_wf _ _ ho)
      (by rw [hm, emit_cap]; exact Nat.mod_lt _ hpos) hd (by rw [hol]; omega)
    rw [emit_winFill] at hW
    rw [copyBytes, hb]
    refine ⟨?_, hW, hO⟩
    constructor
    · exact hC.frame.trans rfl
    · rw [hC.wptr, hm, emit_cap, hshift]
    · rw [hC.outLen, hol]; omega
    · intro k hk
      cases k with
      | zero =>
        rw [hC.outElse _ (.inl (by rw [hol]; omega)), outByte_emit _ _ _ ho, if_pos (Nat.add_zero _)]
      | succ j =>
        have := hC.outNew j (by omega)
        rw [hol, behind_emit s d j hw hp h1 hd] at this
        rw [← this]; congr 1; omega
    · intro i hi
      rw [hC.outElse i (by rw [hol]; omega), outByte_emit _ _ _ ho, if_neg (by omega)]
    · intro k hk hk'
      cases k with
      | zero =>
        rw [Nat.add_zero, Nat.mod_eq_of_lt hp, hC.ringElse, winByte_emit _ _ _ hw, if_pos rfl]
        intro j hj
        rw [hm, emit_cap, hshift]
        exact ring_ne hp (by omega) (by omega)
      | succ j =>
        have := hC.ringNew j (by omega) (by rw [emit_cap]; omega)
        rw [hm, emit_cap, hshift, behind_emit s d j hw hp h1 hd] at this
        exact this
    · intro i hi
      have h0 := hi 0 (by omega)
      rw [Nat.add_zero, Nat.mod_eq_of_lt hp] at h0
      rw [hC.ringElse, winByte_emit _ _ _ hw, if_neg (Ne.symm h0)]
      intro j hj
      rw [hm, emit_cap, hshift]
      exact hi (j + 1) (by omega)

theorem copyBytes_below (d : Nat) (n : Nat) : ∀ s : State, 1 ≤ s.cap.toNat → s.wptr.toNat < s.cap.toNat →
    s.win.below s.cap.toNat → (copyBytes d n s).win.below s.cap.toNat := by
  induction n with
  | zero => intro s _ _ h; exact h
  | succ n ih =>
    intro s hc hp h
    have hm := emit_wptr_toNat (s.winByte (s.sourceIndex d)) s hc
    refine ih _ hc (by rw [hm, emit_cap]; exact Nat.mod_lt _ (by omega)) ?_
    rw [emit_win, emit_cap]
    exact Memory.write_below h hp

theorem copyBytes_out_below (d : Nat) (n : Nat) : ∀ s : State, s.outLen.toNat + n ≤ s.params.outMax →
    s.params.outMax < 2 ^ 32 → s.outMem.below s.params.outMax → (copyBytes d n s).outMem.below s.params.outMax := by
  induction n with
  | zero => intro s _ _ h; exact h
  | succ n ih =>
    intro s hl hx h
    have hol := emit_outLen_toNat (s.winByte (s.sourceIndex d)) s (by omega)
    refine ih _ (by rw [hol, emit_params]; omega) hx ?_
    rw [emit_outMem, emit_params]
    exact Memory.write_below h (by omega)

end Sys2Proof.Machine
end

