-- ==== Sys2Proof/Laws/PerInstr.lean ====
section
/-! SUPPORT. Per command: its word has its opcode, and its must-be-zero bits are zero (30_encoding.md R91, R94). -/

namespace Sys2Proof.Laws

/-- The word of a command matches its opcode's pattern under its mask (30_encoding.md R95). -/
def EncodeFields.Statement (i : Instr) : Prop := encode i &&& i.op.mask = i.op.pattern

theorem EncodeFields.all (i : Instr) : EncodeFields.Statement i := by
  unfold EncodeFields.Statement
  rw [matches_iff]
  simp only [encode, opcField_packWord, xField_packWord, aField_packWord]
  exact ⟨trivial, encode_zeros i⟩

theorem EncodeFields.nop : EncodeFields.Statement .nop := EncodeFields.all _

theorem EncodeFields.begin : EncodeFields.Statement .begin := EncodeFields.all _

theorem EncodeFields.start : EncodeFields.Statement .start := EncodeFields.all _

theorem EncodeFields.finish : EncodeFields.Statement .finish := EncodeFields.all _

theorem EncodeFields.fail (kind : BitVec 3) (diag : Word) : EncodeFields.Statement (.fail kind diag) := EncodeFields.all _

theorem EncodeFields.cfgwin (cap : Field24) (prebuf : Field24) (fill : Byte) : EncodeFields.Statement (.cfgwin cap prebuf fill) := EncodeFields.all _

theorem EncodeFields.cfgbits (bitord : BitOrder) (byteord : ByteOrder) (unitcode : BitVec 2) : EncodeFields.Statement (.cfgbits bitord byteord unitcode) := EncodeFields.all _

theorem EncodeFields.cfglen (n : Word) : EncodeFields.Statement (.cfglen n) := EncodeFields.all _

theorem EncodeFields.rdbytes (n : BitVec 3) : EncodeFields.Statement (.rdbytes n) := EncodeFields.all _

theorem EncodeFields.magic (n : BitVec 3) (value : Word) : EncodeFields.Statement (.magic n value) := EncodeFields.all _

theorem EncodeFields.seek (pos : Word) : EncodeFields.Statement (.seek pos) := EncodeFields.all _

theorem EncodeFields.getbit : EncodeFields.Statement .getbit := EncodeFields.all _

theorem EncodeFields.getbits (count : BitVec 6) : EncodeFields.Statement (.getbits count) := EncodeFields.all _

theorem EncodeFields.align : EncodeFields.Statement .align := EncodeFields.all _

theorem EncodeFields.getbyte : EncodeFields.Statement .getbyte := EncodeFields.all _

theorem EncodeFields.liti (byte : Byte) : EncodeFields.Statement (.liti byte) := EncodeFields.all _

theorem EncodeFields.litr : EncodeFields.Statement .litr := EncodeFields.all _

theorem EncodeFields.litb : EncodeFields.Statement .litb := EncodeFields.all _

theorem EncodeFields.copy (disp : Field24) (len : Word) : EncodeFields.Statement (.copy disp len) := EncodeFields.all _

theorem EncodeFields.hbuild (width : BitVec 6) : EncodeFields.Statement (.hbuild width) := EncodeFields.all _

theorem EncodeFields.hwalk : EncodeFields.Statement .hwalk := EncodeFields.all _

end Sys2Proof.Laws
end

