-- ==== Sys2Proof/Laws/Step.lean ====
section
/-! SUPPORT. What a command and a step can do, said once: `exec` is `issue` of the command's effect, an illegal command is
one of two things, and a step is one of a few cases. -/

namespace Sys2Proof.Machine

/-- The effect of each command where it is legal. -/
def effect : Instr → State → State
  | .nop, s => s
  | .begin, s =>
    if s.inLen.toNat ≤ s.params.inMax then newSession s
    else raiseError (Opcode.code .begin) (newSession s) .unsupportedConfiguration 0 (newSession s)
  | .start, s =>
    if s.startOk then { winInit s with state := .decoding }
    else raiseError (Opcode.code .start) s .unsupportedConfiguration 0 s
  | .finish, s => { s with state := .complete }
  | .fail kind diag, s =>
    match failKind kind with
    | some k => raiseError (Opcode.code .fail) s k diag s
    | none => illegalCommand (Opcode.code .fail) s
  | .cfgwin cap prebuf fill, s => { s with cap := cap, prebuf := prebuf, fill := fill }
  | .cfgbits b y c, s =>
    match RefillUnit.ofUcode c with
    | some u => setBitConfig b y u s
    | none => illegalCommand (Opcode.code .cfgbits) s
  | .cfglen n, s => { s with declen := n }
  | .rdbytes n, s =>
    if s.available n.toNat then
      (s.setRes (BitVec.ofNat 32 (assemble s.byteOrd (s.inBytes s.inPos.toNat n.toNat)))).advance n.toNat
    else raiseError (Opcode.code .rdbytes) s .truncatedStream 0 s
  | .magic n value, s =>
    if s.available n.toNat then
      if s.magicMatches n.toNat value then s.advance n.toNat
      else raiseError (Opcode.code .magic) s .invalidHeader 0 s
    else raiseError (Opcode.code .magic) s .truncatedStream 0 s
  | .seek pos, s =>
    if pos.toNat ≤ s.inLen.toNat then { s.exhaust with inPos := pos }
    else raiseError (Opcode.code .seek) s .truncatedStream 0 s
  | .getbit, s => conclude .getbit s (readBit s) fun b t => t.setRes (bitWord b)
  | .getbits c, s => conclude .getbits s (readBits c.toNat s) fun v t => t.setRes v
  | .align, s => s.exhaust
  | .getbyte, s =>
    if s.available 1 then (s.exhaust.setRes ((s.inByte s.inPos.toNat).setWidth 32)).advance 1
    else raiseError (Opcode.code .getbyte) s .truncatedStream 0 s.exhaust
  | .liti b, s => if s.outRoom 1 then emit b s else raiseError (Opcode.code .liti) s .unsupportedConfiguration 0 s
  | .litr, s =>
    if s.outRoom 1 then emit (s.res.extractLsb' 0 8) s
    else raiseError (Opcode.code .litr) s .unsupportedConfiguration 0 s
  | .litb, s =>
    if s.outRoom 1 then
      if s.available 1 then
        emit (s.inByte s.inPos.toNat) ((s.advance 1).setRes ((s.inByte s.inPos.toNat).setWidth 32))
      else raiseError (Opcode.code .litb) s .truncatedStream 0 s
    else raiseError (Opcode.code .litb) s .unsupportedConfiguration 0 s
  | .copy d len, s =>
    if s.displacementOk d.toNat then
      if s.outRoom len.toNat then copyBytes d.toNat len.toNat s
      else raiseError (Opcode.code .copy) s .unsupportedConfiguration 0 s
    else raiseError (Opcode.code .copy) s .displacementOutOfRange (d.setWidth 32) s
  | .hbuild w, s =>
    conclude .hbuild s (buildNode (s.params.hufDepthMax + 1) 0 { s with hwidth := w }) fun r t =>
      { t with tree := some r.1, hnodes := BitVec.ofNat 32 r.2 }
  | .hwalk, s =>
    match s.tree with
    | some t => conclude .hwalk s (walk t s) fun v u => u.setRes v
    | none => illegalCommand (Opcode.code .hwalk) s

theorem exec_eq (i : Instr) (s : State) : exec i s = issue i s (effect i s) := by cases i <;> rfl

/-- Every command answers a next state. -/
theorem exec_next (i : Instr) (s : State) :
    exec i s = .next (if legal i s then effect i s else illegalCommand i.op.code s) := exec_eq i s

theorem exec_of_legal {i : Instr} {s : State} (h : legal i s = true) : exec i s = .next (effect i s) := by
  rw [exec_next, if_pos h]

theorem exec_of_illegal {i : Instr} {s : State} (h : legal i s = false) :
    exec i s = .next (illegalCommand i.op.code s) := by
  rw [exec_next, h, if_neg Bool.false_ne_true]

/-- A next state of a command: its effect where it is legal, else the illegal command. -/
theorem exec_cases {i : Instr} {s t : State} (h : exec i s = .next t) :
    (legal i s = true ∧ t = effect i s) ∨ (legal i s = false ∧ t = illegalCommand i.op.code s) := by
  rw [exec_next] at h
  injection h with h
  by_cases hl : legal i s = true
  · exact .inl ⟨hl, by rw [← h, if_pos hl]⟩
  · exact .inr ⟨by simpa using hl, by rw [← h, if_neg hl]⟩

theorem isRest_iff (s : State) : s.state.isRest = true ↔ ¬ s.InSession := by
  unfold State.InSession; cases s.state <;> simp [SessionState.isRest]

theorem illegalCommand_rest {s : State} (h : ¬ s.InSession) (opc : Byte) :
    illegalCommand opc s = { s with ign := true } := if_pos ((isRest_iff s).2 h)

theorem illegalCommand_session {s : State} (h : s.InSession) (opc : Byte) :
    illegalCommand opc s = raiseError opc s .illegalCommand 0 s :=
  if_neg fun hr => (isRest_iff s).1 hr h

/-- An illegal command is ignored in a rest state and fails the session in a call state. -/
theorem handledAsIllegal {i : Instr} {s : State} (h : legal i s = false) : HandledAsIllegal i s := by
  constructor
  · intro hs; rw [exec_of_illegal h, illegalCommand_rest hs]
  · intro hs
    refine ⟨_, exec_of_illegal h, ?_⟩
    rw [illegalCommand_session hs]
    rfl

/-- Legality as syntax, state table and trie tests (30_encoding.md R98). -/
theorem legal_iff (i : Instr) (s : State) :
    legal i s = true ↔
      i.WellFormed ∧ Opcode.allowedIn i.op s.state = true ∧ Opcode.trieOk i.op s.tree = true := by
  simp [legal, legalValues_iff, and_assoc]

/-- What a concluded attempt is: its finish, or a raise. -/
theorem conclude_cases {α} (o : Opcode) (s : State) (r : Attempt α) (f : α → State → State) :
    (∃ v t, r = .done v t ∧ conclude o s r f = f v t) ∨
    (∃ k t, r = .raised k t ∧ conclude o s r f = raiseError o.code s k 0 t) := by
  cases r with
  | done v t => exact .inl ⟨v, t, rfl, rfl⟩
  | raised k t => exact .inr ⟨k, t, rfl, rfl⟩

/-- What a legal command can do to the session state: raise an error of its own opcode, begin a session, or change `STATE` as
only `START` and `FINISH` do. -/
theorem effect_cases (i : Instr) (s : State) (hl : legal i s = true) :
    (∃ k d u, effect i s = raiseError i.op.code (if i = .begin then newSession s else s) k d u ∧ k ≠ .illegalCommand) ∨
    (i = .begin ∧ effect i s = newSession s) ∨
    (i ≠ .begin ∧ i.op ≠ .fail ∧
      (effect i s).state = if i = .start then .decoding else if i = .finish then .complete else s.state) := by
  have hv := ((legal_iff i s).1 hl).1
  cases i with
  | fail kind diag =>
    left
    simp only [effect]
    have : ∀ kind : BitVec 3, 1 ≤ kind.toNat ∧ kind.toNat ≤ 4 →
        ∃ k, failKind kind = some k ∧ k ≠ .illegalCommand := by decide
    obtain ⟨k, hk, h1⟩ := this kind hv
    rw [hk]
    exact ⟨k, diag, s, rfl, h1⟩
  | nop => exact .inr (.inr ⟨by simp, by simp [Instr.op], rfl⟩)
  | begin =>
    simp only [effect]; split
    · exact .inr (.inl ⟨trivial, rfl⟩)
    · exact .inl ⟨_, _, _, rfl, by simp⟩
  | start =>
    simp only [effect]; split
    · exact .inr (.inr ⟨by simp, by simp [Instr.op], rfl⟩)
    · exact .inl ⟨_, _, _, rfl, by simp⟩
  | finish => exact .inr (.inr ⟨by simp, by simp [Instr.op], rfl⟩)
  | cfgwin _ _ _ => exact .inr (.inr ⟨by simp, by simp [Instr.op], rfl⟩)
  | cfglen _ => exact .inr (.inr ⟨by simp, by simp [Instr.op], rfl⟩)
  | cfgbits b y c =>
    have : ∀ c : BitVec 2, c.toNat ≤ 2 → (RefillUnit.ofUcode c).isSome = true := by decide
    obtain ⟨u, hu⟩ := Option.isSome_iff_exists.1 (this c hv)
    simp only [effect, hu]
    refine .inr (.inr ⟨by simp, by simp [Instr.op], ?_⟩)
    unfold setBitConfig; split <;> rfl
  | rdbytes n =>
    simp only [effect]; split
    · exact .inr (.inr ⟨by simp, by simp [Instr.op], rfl⟩)
    · exact .inl ⟨_, _, _, rfl, by simp⟩
  | magic n v =>
    simp only [effect]; split
    · split
      · exact .inr (.inr ⟨by simp, by simp [Instr.op], rfl⟩)
      · exact .inl ⟨_, _, _, rfl, by simp⟩
    · exact .inl ⟨_, _, _, rfl, by simp⟩
  | seek p =>
    simp only [effect]; split
    · exact .inr (.inr ⟨by simp, by simp [Instr.op], rfl⟩)
    · exact .inl ⟨_, _, _, rfl, by simp⟩
  | getbit =>
    simp only [effect]
    have hr := readBit_raises s
    have hf := readBit_frame s
    rcases conclude_cases .getbit s (readBit s) (fun b t => t.setRes (bitWord b)) with ⟨v, t, h, e⟩ | ⟨k, t, h, e⟩ <;>
      rw [e] <;> rw [h] at hr hf
    · refine .inr (.inr ⟨by simp, by simp [Instr.op], ?_⟩)
      simp only [Attempt.final] at hf; rw [hf]; rfl
    · obtain rfl := hr k t rfl; exact .inl ⟨_, _, _, rfl, by simp⟩
  | getbits c =>
    simp only [effect]
    have hr := readBits_raises c.toNat s
    have hf := readBits_frame c.toNat s
    rcases conclude_cases .getbits s (readBits c.toNat s) (fun b t => t.setRes b) with
      ⟨v, t, h, e⟩ | ⟨k, t, h, e⟩ <;> rw [e] <;> rw [h] at hr hf
    · refine .inr (.inr ⟨by simp, by simp [Instr.op], ?_⟩)
      simp only [Attempt.final] at hf; rw [hf]; rfl
    · obtain rfl := hr k t rfl; exact .inl ⟨_, _, _, rfl, by simp⟩
  | align => exact .inr (.inr ⟨by simp, by simp [Instr.op], rfl⟩)
  | getbyte =>
    simp only [effect]; split
    · exact .inr (.inr ⟨by simp, by simp [Instr.op], rfl⟩)
    · exact .inl ⟨_, _, _, rfl, by simp⟩
  | liti b =>
    simp only [effect]; split
    · exact .inr (.inr ⟨by simp, by simp [Instr.op], rfl⟩)
    · exact .inl ⟨_, _, _, rfl, by simp⟩
  | litr =>
    simp only [effect]; split
    · exact .inr (.inr ⟨by simp, by simp [Instr.op], rfl⟩)
    · exact .inl ⟨_, _, _, rfl, by simp⟩
  | litb =>
    simp only [effect]; split
    · split
      · exact .inr (.inr ⟨by simp, by simp [Instr.op], rfl⟩)
      · exact .inl ⟨_, _, _, rfl, by simp⟩
    · exact .inl ⟨_, _, _, rfl, by simp⟩
  | copy d len =>
    simp only [effect]; split
    · split
      · refine .inr (.inr ⟨by simp, by simp [Instr.op], ?_⟩)
        rw [copyBytes_frame]; rfl
      · exact .inl ⟨_, _, _, rfl, by simp⟩
    · exact .inl ⟨_, _, _, rfl, by simp⟩
  | hbuild w =>
    simp only [effect]
    have hr := buildNode_raises (s.params.hufDepthMax + 1) 0 { s with hwidth := w }
    have hf := buildNode_frame (s.params.hufDepthMax + 1) 0 { s with hwidth := w }
    rcases conclude_cases .hbuild s (buildNode (s.params.hufDepthMax + 1) 0 { s with hwidth := w })
      (fun r t => { t with tree := some r.1, hnodes := BitVec.ofNat 32 r.2 }) with ⟨v, t, h, e⟩ | ⟨k, t, h, e⟩ <;>
      rw [e] <;> rw [h] at hr hf
    · refine .inr (.inr ⟨by simp, by simp [Instr.op], ?_⟩)
      simp only [Attempt.final] at hf; rw [hf]; rfl
    · refine .inl ⟨_, _, _, rfl, ?_⟩
      rcases hr k t rfl with rfl | rfl <;> simp
  | hwalk =>
    simp only [effect]
    split
    · rename_i t ht
      have hr := walk_raises t s
      have hf := walk_frame t s
      rcases conclude_cases .hwalk s (walk t s) (fun b t => t.setRes b) with
      ⟨v, t, h, e⟩ | ⟨k, t, h, e⟩ <;> rw [e] <;> rw [h] at hr hf
      · refine .inr (.inr ⟨by simp, by simp [Instr.op], ?_⟩)
        simp only [Attempt.final] at hf; rw [hf]; rfl
      · obtain rfl := hr k t rfl; exact .inl ⟨_, _, _, rfl, by simp⟩
    · rename_i ht
      have := ((legal_iff .hwalk s).1 hl).2.2
      simp [Opcode.trieOk, Instr.op, ht] at this

theorem execWord_ok {w : CmdWord} {i : Instr} (h : decode w = .ok i) (s : State) : execWord w s = exec i s := by
  simp only [execWord, h]

theorem execWord_error {w : CmdWord} {e : DecodeError} (h : decode w = .error e) (s : State) :
    execWord w s = .next (illegalCommand (opcField w) s) := by
  simp only [execWord, h]

theorem localOffset_some {p : Params} {addr off : Nat} (h : localOffset p addr = some off) :
    addr = p.swdBase + off ∧ off < 2 ^ 26 := by
  unfold localOffset at h
  split at h
  · injection h with h; omega
  · cases h

theorem localOffset_base {p : Params} {off : Nat} (h : off < 2 ^ 26) : localOffset p (p.swdBase + off) = some off := by
  unfold localOffset; rw [if_pos (by omega)]; congr 1; omega

theorem ofOffset_offset (r : Reg) : Reg.ofOffset r.offset = some r := by cases r <;> rfl

theorem offset_of_ofOffset {off : Nat} {r : Reg} (h : Reg.ofOffset off = some r) : r.offset = off := by
  simpa using List.find?_some h

theorem regionOf_reg {p : Params} {off : Nat} {r : Reg} : regionOf p off = .reg r ↔ off = r.offset := by
  constructor
  · intro h
    unfold regionOf at h
    split at h
    · split at h
      · rename_i r' hr; cases h; exact (offset_of_ofOffset hr).symm
      · cases h
    · split at h
      · cases h
      · split at h <;> cases h
  · rintro rfl
    have : r.offset < 0x100 := by cases r <;> decide
    simp only [regionOf, if_pos this, ofOffset_offset]

/-- What a host write can do: store `CMD_A` or `IN_LEN`, execute a command, store in the IN window, or nothing. -/
theorem hostWrite_cases (off bits : Nat) (v : Word) (s : State) :
    hostWrite off bits v s = .next s ∨
    (off = 0x08 ∧ bits = 32 ∧ hostWrite off bits v s = .next { s with cmdA := v }) ∨
    (off = 0x0C ∧ bits = 32 ∧ hostWrite off bits v s = execWord (v ++ s.cmdA) s) ∨
    (off = 0x24 ∧ bits = 32 ∧ ¬ s.InSession ∧ hostWrite off bits v s = .next { s with inLen := v }) ∨
    (∃ k, off = 0x1000000 + 4 * k ∧ 4 * k < s.params.inMax ∧ bits = 32 ∧ ¬ s.InSession ∧
      hostWrite off bits v s = .next (storeWord k v s)) := by
  unfold hostWrite
  split
  swap
  · exact .inl rfl
  rename_i ha
  simp only [accessOk, decide_eq_true_eq] at ha
  cases hr : regionOf s.params off with
  | reg r =>
    have ho := regionOf_reg.1 hr
    cases r with
    | cmdA => exact .inr (.inl ⟨ho, ha.2, rfl⟩)
    | cmdOp => exact .inr (.inr (.inl ⟨ho, ha.2, rfl⟩))
    | inLen =>
      by_cases h : s.state.isRest = true
      · exact .inr (.inr (.inr (.inl ⟨ho, ha.2, (isRest_iff s).1 h, by simp only [writeReg, if_pos h]⟩)))
      · exact .inl (by simp only [writeReg, if_neg h])
    | _ => exact .inl rfl
  | inWord k =>
    by_cases h : s.state.isRest = true
    · refine .inr (.inr (.inr (.inr ⟨k, ?_⟩)))
      have : off = 0x1000000 + 4 * k ∧ 4 * k < s.params.inMax := by
        unfold regionOf at hr
        split at hr
        · split at hr <;> cases hr
        · split at hr
          · injection hr with hr; omega
          · split at hr <;> cases hr
      exact ⟨this.1, this.2, ha.2, (isRest_iff s).1 h, by simp only [if_pos h]⟩
    · exact .inl (by simp only [if_neg h])
  | outWord k => exact .inl rfl
  | reserved => exact .inl rfl

/-- What a step can do. -/
theorem step_cases {s t : State} (h : step s = .next t) :
    (s.bus = [] ∧ t = s) ∨
    ∃ e rest, s.bus = e :: rest ∧
      (t = { s with bus := rest } ∨
       (∃ v, t = { s with bus := rest, rdata := v }) ∨
       (e = .reset ∧ t = platformReset { s with bus := rest }) ∨
       (∃ v, t = { s with bus := rest, cmdA := v }) ∨
       (∃ v, ¬ s.InSession ∧ t = { s with bus := rest, inLen := v }) ∨
       (∃ k v, ¬ s.InSession ∧ 4 * k < s.params.inMax ∧ t = storeWord k v { s with bus := rest }) ∨
       (∃ v, e = .write (s.params.swdBase + 0x0C) 32 v ∧ execWord (v ++ s.cmdA) { s with bus := rest } = .next t)) := by
  unfold step at h
  split at h
  · rename_i hb; cases h; exact .inl ⟨hb, rfl⟩
  rename_i e rest hb
  refine .inr ⟨e, rest, hb, ?_⟩
  cases e with
  | reset => cases h; exact .inr (.inr (.inl ⟨rfl, rfl⟩))
  | resetDuringAccess => cases h
  | read addr bits =>
    simp only [serve] at h
    split at h
    · cases h; exact .inr (.inl ⟨_, rfl⟩)
    · cases h; exact .inl rfl
  | write addr bits v =>
    simp only [serve] at h
    split at h
    swap
    · cases h; exact .inl rfl
    rename_i off ho
    obtain ⟨rfl, hlt⟩ := localOffset_some ho
    rcases hostWrite_cases off bits v { s with bus := rest } with h' | ⟨rfl, rfl, h'⟩ | ⟨rfl, rfl, h'⟩ | ⟨rfl, rfl, hr, h'⟩ |
        ⟨k, rfl, hk, rfl, hr, h'⟩
    · rw [h'] at h; cases h; exact .inl rfl
    · rw [h'] at h; cases h; exact .inr (.inr (.inr (.inl ⟨v, rfl⟩)))
    · rw [h'] at h; exact .inr (.inr (.inr (.inr (.inr (.inr ⟨v, rfl, h⟩)))))
    · rw [h'] at h; cases h; exact .inr (.inr (.inr (.inr (.inl ⟨v, hr, rfl⟩))))
    · rw [h'] at h; cases h; exact .inr (.inr (.inr (.inr (.inr (.inl ⟨k, v, hr, hk, rfl⟩)))))

/-- A step whose event writes `CMD_OP` executes the word. -/
theorem step_cmdOp {s : State} {v : Word} {rest : List HostEvent}
    (h : s.bus = .write (s.params.swdBase + 0x0C) 32 v :: rest) :
    step s = execWord (v ++ s.cmdA) { s with bus := rest } := by
  simp only [step, h, serve]
  rw [show localOffset s.params (s.params.swdBase + 0x0C) = some 0x0C from localOffset_base (by decide)]
  rfl

end Sys2Proof.Machine
end

