-- ==== Sys2Proof/Laws/Trie.lean ====
section
/-! SUPPORT. The nodes of a described trie in pre-order, and what a build of it raises: `UnsupportedConfiguration` where a
node beyond the limits is reached, `TruncatedStream` where the stream ends before one. -/

namespace Sys2Proof.Machine

theorem Trie.nodes_pos (t : Trie) : 1 ≤ t.nodes := by cases t <;> simp only [Trie.nodes] <;> omega

theorem Trie.describe_pos (t : Trie) (ord : BitOrder) (w : Nat) : 1 ≤ (t.describe ord w).length := by
  cases t <;> simp [Trie.describe]

theorem Trie.nodeAt_root (t : Trie) (ord : BitOrder) (w : Nat) : t.NodeAt ord w 0 0 0 := by
  cases t
  · exact ⟨rfl, rfl, rfl⟩
  · exact .inl ⟨rfl, rfl, rfl⟩

/-- A node's description begins within the trie's. -/
theorem Trie.nodeAt_lt (t : Trie) (ord : BitOrder) (w : Nat) : ∀ j n k, t.NodeAt ord w j n k →
    n < (t.describe ord w).length := by
  induction t with
  | leaf v => rintro j n k ⟨-, rfl, -⟩; exact Trie.describe_pos _ _ _
  | branch l r hl hr =>
    have hp := Trie.describe_pos (.branch l r) ord w
    rintro j n k (⟨-, rfl, -⟩ | ⟨j', n', k', h, -, rfl, -⟩ | ⟨j', n', k', h, -, rfl, -⟩)
    · exact hp
    · have := hl _ _ _ h; simp only [Trie.describe, List.length_cons, List.length_append]; omega
    · have := hr _ _ _ h; simp only [Trie.describe, List.length_cons, List.length_append]; omega

/-- The last node of a trie. -/
theorem Trie.nodeAt_last (t : Trie) (ord : BitOrder) (w : Nat) : ∃ j n k, t.NodeAt ord w j n k ∧ j + 1 = t.nodes := by
  induction t with
  | leaf v => exact ⟨0, 0, 0, ⟨rfl, rfl, rfl⟩, rfl⟩
  | branch l r _ hr =>
    obtain ⟨j, n, k, h, hj⟩ := hr
    exact ⟨_, _, _, .inr (.inr ⟨j, n, k, h, rfl, rfl, rfl⟩), by simp only [Trie.nodes]; omega⟩

/-- A deepest node of a trie. -/
theorem Trie.nodeAt_deepest (t : Trie) (ord : BitOrder) (w : Nat) : ∃ j n, t.NodeAt ord w j n t.depth := by
  induction t with
  | leaf v => exact ⟨0, 0, rfl, rfl, rfl⟩
  | branch l r hl hr =>
    simp only [Trie.depth]
    rcases Nat.le_total l.depth r.depth with h | h
    · obtain ⟨j, n, hn⟩ := hr
      exact ⟨_, _, .inr (.inr ⟨j, n, _, hn, rfl, rfl, by rw [Nat.max_eq_right h]⟩)⟩
    · obtain ⟨j, n, hn⟩ := hl
      exact ⟨_, _, .inr (.inl ⟨j, n, _, hn, rfl, rfl, by rw [Nat.max_eq_left h]⟩)⟩

/-- A trie beyond the limits has a node beyond them. -/
theorem Trie.nodeAt_over (t : Trie) (ord : BitOrder) (w : Nat) {levels count max : Nat}
    (h : levels ≤ t.depth ∨ max < count + t.nodes) :
    ∃ j n k, t.NodeAt ord w j n k ∧ (levels ≤ k ∨ max ≤ count + j) := by
  rcases h with h | h
  · obtain ⟨j, n, hn⟩ := t.nodeAt_deepest ord w; exact ⟨j, n, _, hn, .inl h⟩
  · obtain ⟨j, n, k, hn, hj⟩ := t.nodeAt_last ord w; exact ⟨j, n, k, hn, .inr (by omega)⟩

/-- Skipping loses no bit: what follows a skip is in the stream exactly if both together are. -/
theorem streamHas_add {s : State} {a : Nat} (b : Nat) (h : s.used ≤ s.unit.bits) (ha : s.streamHas a) :
    s.streamHas (a + b) ↔ (s.skipBits a).streamHas b := by
  refine ⟨streamHas_skip h, fun hb => ?_⟩
  have hu := unitsFor_skip s a b h
  unfold State.streamHas at hb ⊢
  rw [skipBits_inPos s a ha, skipBits_inLen, skipBits_unit, Nat.add_assoc, ← Nat.add_mul, hu] at hb
  exact hb

/-- The next bits split as the description they spell does. -/
theorem nextBits_split {s : State} {a b : Nat} {l m : List Bool} (hl : l.length = a) (h : s.used ≤ s.unit.bits)
    (hs : s.streamHas a) (hb : s.nextBits (a + b) = (l ++ m).take (a + b)) :
    s.nextBits a = l ∧ (s.skipBits a).nextBits b = m.take b := by
  subst hl
  rw [nextBits_append _ _ h hs, List.take_append, List.take_of_length_le (by omega), Nat.add_sub_cancel_left] at hb
  exact List.append_inj hb (nextBits_length _ _)

/-- A build reaches a node beyond the limits, whose own bits need not be there (45_huffman.md R203). -/
theorem buildNode_refused (t : Trie) : ∀ (levels count : Nat) (s : State) (j n k : Nat), ReadOk s → s.hwidth.toNat ≤ 32 →
    t.fits s.hwidth.toNat → count ≤ s.params.hufNodesMax → t.NodeAt s.bitOrd s.hwidth.toNat j n k →
    levels ≤ k ∨ s.params.hufNodesMax ≤ count + j → s.streamHas n →
    s.nextBits n = (t.describe s.bitOrd s.hwidth.toNat).take n →
    ∃ u, buildNode levels count s = .raised .unsupportedConfiguration u := by
  induction t with
  | leaf v =>
    rintro levels count s j n k hr hw hf hc ⟨rfl, rfl, rfl⟩ ho hs hb
    cases levels with
    | zero => exact ⟨s, rfl⟩
    | succ levels => exact ⟨s, by rw [buildNode, if_pos (by omega)]⟩
  | branch l r ihl ihr =>
    intro levels count s j n k hr hw hf hc hn ho hs hb
    cases levels with
    | zero => exact ⟨s, rfl⟩
    | succ levels =>
      by_cases hcm : count = s.params.hufNodesMax
      · exact ⟨s, by rw [buildNode, if_pos hcm]⟩
      have step1 : ∀ m, s.streamHas (1 + m) → s.nextBits (1 + m) =
          ((Trie.branch l r).describe s.bitOrd s.hwidth.toNat).take (1 + m) →
          s.streamHas 1 ∧ s.streamBit 0 = true ∧ (s.skipBits 1).streamHas m ∧ (s.skipBits 1).nextBits m =
            (l.describe s.bitOrd s.hwidth.toNat ++ r.describe s.bitOrd s.hwidth.toNat).take m := by
        intro m hm hbm
        have h1 := streamHas_mono (Nat.le_add_right 1 m) hm
        rw [Nat.add_comm 1 m, nextBits_succ _ hr.usedLe h1, Trie.describe, List.take_succ_cons, List.cons.injEq] at hbm
        exact ⟨h1, hbm.1, streamHas_skip hr.usedLe hm, hbm.2⟩
      rcases hn with ⟨rfl, rfl, rfl⟩ | ⟨j', n', k', hn, rfl, rfl, rfl⟩ | ⟨j', n', k', hn, rfl, rfl, rfl⟩
      · omega
      · obtain ⟨h1, h0, hs1, hb1⟩ := step1 n' hs hb
        have hlt := Trie.nodeAt_lt l _ _ _ _ _ hn
        obtain ⟨u, hu⟩ := ihl levels (count + 1) (s.skipBits 1) j' n' k' (hr.skip h1) hw hf.1
          (by rw [skipBits_params]; omega) hn (by rw [skipBits_params]; omega) hs1
          (by rw [hb1, List.take_append_of_le_length (Nat.le_of_lt hlt)]; rfl)
        exact ⟨u, by rw [buildNode, if_neg hcm, readBit_done hr.usedLe h1, Attempt.andThen, if_pos h0, hu]; rfl⟩
      · rw [Nat.add_assoc] at hs hb
        obtain ⟨h1, h0, hs1, hb1⟩ := step1 _ hs hb
        have hr1 := hr.skip h1
        have hsl := streamHas_mono (Nat.le_add_right _ _) hs1
        obtain ⟨hbl, hbr⟩ := nextBits_split rfl hr1.usedLe hsl hb1
        by_cases hov : levels ≤ l.depth ∨ s.params.hufNodesMax < count + 1 + l.nodes
        · obtain ⟨i, m, d, hm, hd⟩ := l.nodeAt_over s.bitOrd s.hwidth.toNat hov
          have hlt := Trie.nodeAt_lt l _ _ _ _ _ hm
          obtain ⟨u, hu⟩ := ihl levels (count + 1) (s.skipBits 1) i m d hr1 hw hf.1
            (by rw [skipBits_params]; omega) hm hd (streamHas_mono (Nat.le_of_lt hlt) hsl) (by
              have := congrArg (List.take m) hbl
              rw [show (s.skipBits 1).nextBits m = ((s.skipBits 1).nextBits (l.describe s.bitOrd s.hwidth.toNat).length).take m by
                simp only [State.nextBits, ← List.map_take, List.take_range, Nat.min_eq_left (Nat.le_of_lt hlt)]]
              exact this)
          exact ⟨u, by rw [buildNode, if_neg hcm, readBit_done hr.usedLe h1, Attempt.andThen, if_pos h0, hu]; rfl⟩
        · have hL := buildNode_describe l levels (count + 1) (s.skipBits 1) hr1.usedLe hw hf.1 (by omega)
            (by rw [skipBits_params]; omega) hsl hbl
          obtain ⟨u, hu⟩ := ihr levels (count + 1 + l.nodes) _ j' n' k' (hr1.skip hsl) hw hf.2
            (by simp only [skipBits_params]; omega) hn (by simp only [skipBits_params]; omega)
            (streamHas_skip hr1.usedLe hs1) hbr
          refine ⟨u, ?_⟩
          rw [buildNode, if_neg hcm, readBit_done hr.usedLe h1, Attempt.andThen, if_pos h0, hL]
          simp only [Attempt.andThen]
          rw [skipBits_bitOrd, skipBits_hwidth, hu]

/-- A build whose stream ends before a node beyond the limits begins (60_exceptions.md R267). -/
theorem buildNode_truncated (t : Trie) : ∀ (levels count : Nat) (s : State) (n : Nat), ReadOk s → s.hwidth.toNat ≤ 32 →
    t.fits s.hwidth.toNat →
    (∀ j m k, t.NodeAt s.bitOrd s.hwidth.toNat j m k → m ≤ n → k < levels ∧ count + j < s.params.hufNodesMax) →
    n < (t.describe s.bitOrd s.hwidth.toNat).length → s.streamHas n → ¬ s.streamHas (n + 1) →
    s.nextBits n = (t.describe s.bitOrd s.hwidth.toNat).take n →
    ∃ u, buildNode levels count s = .raised .truncatedStream u := by
  induction t with
  | leaf v =>
    intro levels count s n hr hw hf hok hlen hs hns hb
    obtain ⟨h0, hc⟩ := hok 0 0 0 (Trie.nodeAt_root _ _ _) (Nat.zero_le _)
    obtain ⟨levels, rfl⟩ : ∃ m, levels = m + 1 := ⟨levels - 1, by omega⟩
    rw [buildNode, if_neg (by omega)]
    cases n with
    | zero => exact ⟨s, by rw [readBit_raised hr.usedLe hr.inPosLe hns]; rfl⟩
    | succ n =>
      have h1 := streamHas_mono (Nat.le_add_left 1 n) hs
      rw [nextBits_succ _ hr.usedLe h1, Trie.describe, List.take_succ_cons, List.cons.injEq] at hb
      have hr1 := hr.skip h1
      simp only [Trie.describe, List.length_cons, valueBits_length] at hlen
      have hw1 : ¬ (s.skipBits 1).streamHas s.hwidth.toNat := fun hh =>
        hns (streamHas_mono (by omega) ((streamHas_add _ hr.usedLe h1).2 hh))
      obtain ⟨c, _, _, _, he⟩ := readBits_raised hr1.usedLe hr1.inPosLe hw1
      refine ⟨(s.skipBits 1).skipBits c, ?_⟩
      rw [readBit_done hr.usedLe h1, hb.1, Attempt.andThen, if_neg (by decide), skipBits_hwidth, he]
      rfl
  | branch l r ihl ihr =>
    intro levels count s n hr hw hf hok hlen hs hns hb
    obtain ⟨h0, hc⟩ := hok 0 0 0 (Trie.nodeAt_root _ _ _) (Nat.zero_le _)
    obtain ⟨levels, rfl⟩ : ∃ m, levels = m + 1 := ⟨levels - 1, by omega⟩
    rw [buildNode, if_neg (by omega)]
    cases n with
    | zero => exact ⟨s, by rw [readBit_raised hr.usedLe hr.inPosLe hns]; rfl⟩
    | succ n =>
      have h1 := streamHas_mono (Nat.le_add_left 1 n) hs
      rw [nextBits_succ _ hr.usedLe h1, Trie.describe, List.take_succ_cons, List.cons.injEq] at hb
      obtain ⟨hb0, hb⟩ := hb
      have hr1 := hr.skip h1
      have hs1 : (s.skipBits 1).streamHas n := streamHas_skip hr.usedLe (Nat.add_comm n 1 ▸ hs)
      have hns1 : ¬ (s.skipBits 1).streamHas (n + 1) := fun hh =>
        hns (by have := (streamHas_add _ hr.usedLe h1).2 hh; rwa [Nat.add_comm 1] at this)
      simp only [Trie.describe, List.length_cons, List.length_append] at hlen
      rw [readBit_done hr.usedLe h1, hb0, Attempt.andThen, if_pos rfl]
      have hokl : ∀ j m k, l.NodeAt s.bitOrd s.hwidth.toNat j m k → m ≤ n → k < levels ∧
          count + 1 + j < s.params.hufNodesMax := by
        intro j m k h hm
        have := hok _ _ _ (.inr (.inl ⟨j, m, k, h, rfl, rfl, rfl⟩)) (by omega)
        omega
      by_cases hnl : n < (l.describe s.bitOrd s.hwidth.toNat).length
      · obtain ⟨u, hu⟩ := ihl levels (count + 1) (s.skipBits 1) n hr1 hw hf.1 hokl hnl hs1 hns1
          (by rw [hb, List.take_append_of_le_length (Nat.le_of_lt hnl)]; rfl)
        exact ⟨u, by rw [hu]; rfl⟩
      · obtain ⟨m, rfl⟩ : ∃ m, n = (l.describe s.bitOrd s.hwidth.toNat).length + m :=
          ⟨n - (l.describe s.bitOrd s.hwidth.toNat).length, by omega⟩
        have hsl := streamHas_mono (Nat.le_add_right _ _) hs1
        obtain ⟨hbl, hbr⟩ := nextBits_split rfl hr1.usedLe hsl hb
        have hin : ¬ (levels ≤ l.depth ∨ s.params.hufNodesMax < count + 1 + l.nodes) := by
          intro hov
          obtain ⟨i, q, d, hq, hd⟩ := l.nodeAt_over s.bitOrd s.hwidth.toNat hov
          have := Trie.nodeAt_lt l _ _ _ _ _ hq
          have := hokl _ _ _ hq (by omega)
          omega
        have hL := buildNode_describe l levels (count + 1) (s.skipBits 1) hr1.usedLe hw hf.1 (by omega)
          (by rw [skipBits_params]; omega) hsl hbl
        obtain ⟨u, hu⟩ := ihr levels (count + 1 + l.nodes) _ m (hr1.skip hsl) hw hf.2
          (by
            intro j q k h hq
            have := hok _ _ _ (.inr (.inr ⟨j, q, k, h, rfl, rfl, rfl⟩)) (by
              simp only [skipBits_bitOrd, skipBits_hwidth] at *; omega)
            simp only [skipBits_params]; omega)
          (by simp only [skipBits_bitOrd, skipBits_hwidth]; omega) (streamHas_skip hr1.usedLe hs1)
          (fun hh => hns1 ((streamHas_add _ hr1.usedLe hsl).2 hh)) hbr
        refine ⟨u, ?_⟩
        rw [hL]
        simp only [Attempt.andThen]
        rw [skipBits_bitOrd, skipBits_hwidth, hu]

end Sys2Proof.Machine
end

