-- ==== Sys2Proof/Tests/Slice0.lean ====
section
/-! SUPPORT. Tests: ill-formed commands are refused, words written out from the spec decode to their commands, the vectors of
95_test_vectors.md hold for one step each, and every obligation's hypotheses are met by some state. -/

namespace Sys2Proof.Tests

open Sys2Proof Sys2Proof.Machine

/-! ### Well-formedness: each check of WellFormed.lean refuses an ill-formed command (30_encoding.md R94) -/

theorem test_wf_fail : ¬ (Instr.fail 0 0).WellFormed ∧ ¬ (Instr.fail 5 0).WellFormed ∧ (Instr.fail 4 0).WellFormed := by decide

theorem test_wf_cfgbits : ¬ (Instr.cfgbits .msbFirst .little 3).WellFormed ∧ (Instr.cfgbits .msbFirst .little 2).WellFormed := by
  decide

theorem test_wf_rdbytes : ¬ (Instr.rdbytes 0).WellFormed ∧ ¬ (Instr.rdbytes 5).WellFormed ∧ (Instr.rdbytes 4).WellFormed := by
  decide

theorem test_wf_magic : ¬ (Instr.magic 0 7).WellFormed ∧ ¬ (Instr.magic 5 7).WellFormed ∧ (Instr.magic 1 7).WellFormed := by
  decide

theorem test_wf_getbits : ¬ (Instr.getbits 33).WellFormed ∧ (Instr.getbits 0).WellFormed ∧ (Instr.getbits 32).WellFormed := by
  decide

theorem test_wf_hbuild : ¬ (Instr.hbuild 0).WellFormed ∧ ¬ (Instr.hbuild 33).WellFormed ∧ (Instr.hbuild 32).WellFormed := by
  decide

/-! ### Decoding: words written out from 30_encoding.md R94, R100 -/

theorem test_decode_session :
    decode 0x0000000000000000 = .ok .nop ∧ decode 0x0100000000000000 = .ok .begin ∧
    decode 0x0200000000000000 = .ok .start ∧ decode 0x0300000000000000 = .ok .finish ∧
    decode 0x0400000300000017 = .ok (.fail 3 0x17) ∧ decode 0x0A00000000001001 = .ok (.cfglen 0x1001) := by decide

theorem test_decode_config :
    decode 0x08000FEE20001000 = .ok (.cfgwin 0x1000 0xFEE 0x20) ∧
    decode 0x0900000000000001 = .ok (.cfgbits .lsbFirst .little 0) ∧
    decode 0x0900000000000006 = .ok (.cfgbits .msbFirst .big 1) ∧
    decode 0x0900000000000008 = .ok (.cfgbits .msbFirst .little 2) := by decide

theorem test_decode_cursor :
    decode 0x1000000300000000 = .ok (.rdbytes 3) ∧ decode 0x1100000200005A4C = .ok (.magic 2 0x5A4C) ∧
    decode 0x1200000000000004 = .ok (.seek 4) := by decide

theorem test_decode_bits :
    decode 0x1800000000000000 = .ok .getbit ∧ decode 0x1900002000000000 = .ok (.getbits 32) ∧
    decode 0x1A00000000000000 = .ok .align ∧ decode 0x1B00000000000000 = .ok .getbyte := by decide

theorem test_decode_window :
    decode 0x20000000000000A1 = .ok (.liti 0xA1) ∧ decode 0x2100000000000000 = .ok .litr ∧
    decode 0x2200000000000000 = .ok .litb ∧ decode 0x23000FF100000001 = .ok (.copy 0xFF1 1) := by decide

theorem test_decode_huffman :
    decode 0x2800001100000000 = .ok (.hbuild 17) ∧ decode 0x2900000000000000 = .ok .hwalk := by decide

/-- 95_test_vectors.md V-S13, V-S22, V-R17, V-R22, V-B6, V-H12, V-W20; 30_encoding.md R97. -/
theorem test_decode_refused :
    decode 0x0400000500000000 = .error (.illegalValue (.fail 5 0)) ∧ decode 0x0000000000000001 = .error (.mustBeZero .nop) ∧
    decode 0x1900002100000000 = .error (.illegalValue (.getbits 33)) ∧
    decode 0x090000000000000C = .error (.illegalValue (.cfgbits .msbFirst .little 3)) ∧
    decode 0x1000000500000000 = .error (.illegalValue (.rdbytes 5)) ∧
    decode 0x2800002100000000 = .error (.illegalValue (.hbuild 33)) ∧
    decode 0x2000000000000141 = .error (.mustBeZero .liti) ∧
    decode 0xFFFFFFFFFFFFFFFF = .error (.unassignedOpcode 0xFF) := by decide

/-- The words of 95_test_vectors.md, from their commands. -/
theorem test_encode :
    encode (.fail 1 7) = 0x0400000100000007 ∧ encode (.cfgwin 0x100 0x10 0x20) = 0x0800001020000100 ∧
    encode (.cfgbits .lsbFirst .big 1) = 0x0900000000000007 ∧ encode (.magic 4 0x307A6159) = 0x11000004307A6159 ∧
    encode (.getbits 16) = 0x1900001000000000 ∧ encode (.copy 0x17 1) = 0x2300001700000001 := by decide

/-- The `mask` and `match` columns of spec/opcode_table.json. -/
theorem test_mask_match : Opcode.all.map (fun o => (o.mask, o.pattern)) =
    [(0xFFFFFFFFFFFFFFFF, 0x0000000000000000), (0xFFFFFFFFFFFFFFFF, 0x0100000000000000),
     (0xFFFFFFFFFFFFFFFF, 0x0200000000000000), (0xFFFFFFFFFFFFFFFF, 0x0300000000000000),
     (0xFFFFFFF800000000, 0x0400000000000000), (0xFF00000000000000, 0x0800000000000000),
     (0xFFFFFFFFFFFFFFF0, 0x0900000000000000)] ++
    [(0xFFFFFFFF00000000, 0x0A00000000000000), (0xFFFFFFF8FFFFFFFF, 0x1000000000000000),
     (0xFFFFFFF800000000, 0x1100000000000000), (0xFFFFFFFF00000000, 0x1200000000000000),
     (0xFFFFFFFFFFFFFFFF, 0x1800000000000000), (0xFFFFFFC0FFFFFFFF, 0x1900000000000000),
     (0xFFFFFFFFFFFFFFFF, 0x1A00000000000000)] ++
    [(0xFFFFFFFFFFFFFFFF, 0x1B00000000000000), (0xFFFFFFFFFFFFFF00, 0x2000000000000000),
     (0xFFFFFFFFFFFFFFFF, 0x2100000000000000), (0xFFFFFFFFFFFFFFFF, 0x2200000000000000),
     (0xFF00000000000000, 0x2300000000000000), (0xFFFFFFC0FFFFFFFF, 0x2800000000000000),
     (0xFFFFFFFFFFFFFFFF, 0x2900000000000000)] := by decide

/-! ### One step each (95_test_vectors.md) -/

/-- A memory that holds `bytes` from index 0. -/
def memOf (bytes : List Byte) : Memory := (bytes.zipIdx).map fun p => (p.2, p.1)

/-- A block of the reference parameters in a session state, with an input written and nothing consumed. -/
def at_ (st : SessionState) (input : List Byte) : State :=
  { State.reset with
    state := st
    inMem := memOf input
    inLen := BitVec.ofNat 32 input.length
    winFill := match st with
      | .decoding | .complete => some 0
      | .idle | .headerPending | .failed => none
    errKind := if st = .failed then some .displacementOutOfRange else none }

/-- HeaderPending, right after `BEGIN`. -/
def hp (input : List Byte) : State := at_ .headerPending input

/-- Decoding, right after `START`. -/
def dec (input : List Byte) : State := at_ .decoding input

/-- Decoding with `bytes` produced. -/
def produced (bytes input : List Byte) : State :=
  { dec input with
    win := memOf bytes
    wptr := BitVec.ofNat 24 bytes.length
    outMem := memOf bytes
    outLen := BitVec.ofNat 32 bytes.length }

/-- Tree T1 of 95_test_vectors.md §2.5. -/
def t1 : Trie := .branch (.leaf 0x41) (.leaf 0x42)

/-- HeaderPending after V-H1: T1 built from `90 48 4C`, five bits unread. -/
def built : State :=
  { hp [0x90, 0x48, 0x4C] with tree := some t1, hnodes := 3, hwidth := 8, inPos := 3, buf := 0x4C, used := 3 }

/-- The same block with other limits. -/
def limited (outMax nodesMax depthMax : Nat) (s : State) : State :=
  { s with params := { s.params with outMax := outMax, hufNodesMax := nodesMax, hufDepthMax := depthMax } }

/-- The next state of a command has a property. -/
def gives (i : Instr) (s : State) (p : State → Bool) : Bool :=
  match exec i s with
  | .next t => p t
  | .fault _ | .refused _ => false

/-- The outcome is this next state. -/
def isNext (o : Host.Outcome State Fault Refusal) (t : State) : Bool :=
  match o with
  | .next u => u == t
  | .fault _ | .refused _ => false

theorem eq_of_isNext {o : Host.Outcome State Fault Refusal} {t : State} (h : isNext o t = true) : o = .next t := by
  cases o <;> simp_all [isNext]

/-- The state is Failed with `ERR_INFO` and `ERR_DISP`. -/
def failedAs (info disp : Word) (t : State) : Bool :=
  readReg t .status &&& 7 == 4 && readReg t .errInfo == info && readReg t .errDisp == disp

/-- V-S24. -/
theorem test_nop : isNext (exec .nop (produced [0x61] [0x41])) (produced [0x61] [0x41]) = true := by decide

/-- V-S18. -/
theorem test_begin_from_failed :
    gives .begin { at_ .failed [] with ign := true, errOpc := 0x23, errDisp := 1 }
      (fun t => readReg t .status == 1 && readReg t .errInfo == 0 && readReg t .errDisp == 0) = true := by decide

/-- V-S19. -/
theorem test_begin_too_long : gives .begin { at_ .idle [] with inLen := 0x1001 } (failedAs 0x0104 0) = true := by decide

/-- V-S7. -/
theorem test_start : gives .start { hp [] with prebuf := 0x12, fill := 0x20 }
    (fun t => readReg t .wptr == 0x12 && readReg t .status == 0xA && t.winByte 0xFFF == 0x20) = true := by decide

/-- V-S4. -/
theorem test_start_cap : gives .start { hp [] with cap := 0x10001 } (failedAs 0x0204 0) = true := by decide

/-- V-S11. -/
theorem test_finish : gives .finish (dec []) (fun t => readReg t .status == 0xB) = true := by decide

/-- V-S10. -/
theorem test_finish_header : gives .finish (hp []) (failedAs 0x0305 0) = true := by decide

/-- V-S12. -/
theorem test_fail : gives (.fail 1 7) (dec []) (failedAs 0x0401 7) = true := by decide

/-- V-S13: kind 5 is an illegal command, which records no displacement. -/
theorem test_fail_kind : gives (.fail 5 7) (hp []) (failedAs 0x0405 0) = true := by decide

/-- V-W21. -/
theorem test_cfgwin : gives (.cfgwin 0x1000 0xFEE 0x20) (at_ .idle [])
    (fun t => readReg t .wpre == 0x20000FEE && readReg t .wcap == 0x1000) = true := by decide

/-- V-R23. -/
theorem test_cfgbits : gives (.cfgbits .lsbFirst .big 1) (at_ .idle []) (fun t => readReg t .bcfg == 7 && t.used == 8) = true := by
  decide

/-- V-R20: the buffered bits are discarded. -/
theorem test_cfgbits_header : gives (.cfgbits .lsbFirst .little 0) { hp [0xF0, 0x0F] with inPos := 1, buf := 0xF0, used := 4 }
    (fun t => t.used == 8 && t.buf == 0 && t.inPos == 1) = true := by decide

/-- V-S8. -/
theorem test_cfglen : gives (.cfglen 5) (hp []) (fun t => readReg t .declen == 5 && readReg t .status == 1) = true := by decide

/-- V-S9. -/
theorem test_cfglen_decoding : gives (.cfglen 5) (dec []) (failedAs 0x0A05 0) = true := by decide

/-- V-B1. -/
theorem test_rdbytes_little : gives (.rdbytes 4) (hp [0x12, 0x34, 0x56, 0x78])
    (fun t => readReg t .res == 0x78563412 && readReg t .inPos == 4 && readReg t .remain == 0) = true := by decide

/-- V-B2. -/
theorem test_rdbytes_big : gives (.rdbytes 4) { hp [0x12, 0x34, 0x56, 0x78] with byteOrd := .big }
    (fun t => readReg t .res == 0x12345678) = true := by decide

/-- V-B8. -/
theorem test_magic_mismatch : gives (.magic 4 0x307A6159) (hp [0x59, 0x61, 0x7A, 0x31]) (failedAs 0x1101 0) = true := by decide

/-- V-B10. -/
theorem test_magic : gives (.magic 2 0x5A4C) (hp [0x4C, 0x5A]) (fun t => readReg t .inPos == 2) = true := by decide

/-- V-B13. -/
theorem test_seek_end : gives (.seek 4) (hp [1, 2, 3, 4]) (fun t => readReg t .inPos == 4 && readReg t .remain == 0) = true := by
  decide

/-- V-B14. -/
theorem test_seek_past : gives (.seek 5) (hp [1, 2, 3, 4]) (failedAs 0x1202 0) = true := by decide

/-- V-R4. -/
theorem test_getbit : gives .getbit (hp [0x80])
    (fun t => readReg t .res == 1 && readReg t .inPos == 1 && readReg t .bstate == 1) = true := by decide

/-- V-R11: a refill needs a whole unit. -/
theorem test_getbit_partial : gives .getbit { hp [0x34] with unit := .two, used := 16 } (failedAs 0x1802 0) = true := by decide

/-- V-R3: a group over two units, LSB-first. -/
theorem test_getbits_lsb : gives (.getbits 12) { hp [0xAB, 0xCD] with bitOrd := .lsbFirst }
    (fun t => readReg t .res == 0xDAB && readReg t .inPos == 2 && readReg t .bstate == 4) = true := by decide

/-- V-R8: a two-byte unit, big-endian. -/
theorem test_getbits_big : gives (.getbits 4) { hp [0x34, 0x12] with byteOrd := .big, unit := .two, used := 16 }
    (fun t => readReg t .res == 3 && readReg t .buf == 0x3412) = true := by decide

/-- V-R18. -/
theorem test_align : gives .align { hp [0xFF, 0x0F] with inPos := 1, buf := 0xFF, used := 3 }
    (fun t => readReg t .bstate == 8 && readReg t .inPos == 1) = true := by decide

/-- V-R19. -/
theorem test_getbyte : gives .getbyte { hp [0xA5, 0x3C] with inPos := 1, buf := 0xA5, used := 1 }
    (fun t => readReg t .res == 0x3C && readReg t .inPos == 2) = true := by decide

/-- V-W6: the cursor wraps. -/
theorem test_liti_wrap : gives (.liti 0x41) { dec [] with cap := 4, prebuf := 3, wptr := 3 }
    (fun t => readReg t .wptr == 0 && t.winByte 3 == 0x41 && readReg t .outLen == 1) = true := by decide

/-- V-W12. -/
theorem test_liti_full : gives (.liti 0x65) (limited 4 4095 32 (produced [0x61, 0x62, 0x63, 0x64] []))
    (fun t => failedAs 0x2004 0 t && readReg t .errOutLen == 4) = true := by decide

/-- V-W18. -/
theorem test_litr : gives .litr { dec [] with res := 0x142 } (fun t => t.outByte 0 == 0x42 && readReg t .res == 0x142) = true := by
  decide

/-- V-W15. -/
theorem test_litb : gives .litb (dec [0x61])
    (fun t => readReg t .res == 0x61 && readReg t .outLen == 1 && t.outByte 0 == 0x61 && readReg t .inPos == 1) = true := by decide

/-- V-W17: output capacity is checked before input availability. -/
theorem test_litb_full : gives .litb (limited 1 4095 32 (produced [0x61] [])) (failedAs 0x2204 0) = true := by decide

/-- E1: the self-overlapping copy. -/
theorem test_copy_overlap : gives (.copy 1 5) (produced [0x41, 0x42, 0x43] [])
    (fun t => (List.range 8).map t.outByte == [0x41, 0x42, 0x43, 0x43, 0x43, 0x43, 0x43, 0x43] && readReg t .wptr == 8) = true := by
  decide

/-- V-W14: the displacement is checked before the output capacity. -/
theorem test_copy_displacement : gives (.copy 3 3) (limited 4 4095 32 (produced [0x61, 0x62] []))
    (fun t => failedAs 0x2303 3 t && readReg t .errOutLen == 2) = true := by decide

/-- V-H1. -/
theorem test_hbuild : gives (.hbuild 8) (hp [0x90, 0x48, 0x4C])
    (fun t => readReg t .status == 0x21 && readReg t .hnodes == 3 && readReg t .hwidth == 8 && readReg t .inPos == 3 &&
      readReg t .bstate == 3 && t.tree == some t1) = true := by decide

/-- V-H6: the fourth node exceeds a limit of three. -/
theorem test_hbuild_nodes : gives (.hbuild 8) (limited 0x1000 3 32 (hp [0xC0, 0x20, 0x20, 0x18])) (failedAs 0x2804 0) = true := by
  decide

/-- V-H5: the limit is checked before the structure bit is read, though no bit is left for the last node that `FF` reaches. -/
theorem test_hbuild_depth :
    gives (.hbuild 8) (limited 0x1000 4095 2 (hp [0xFF])) (failedAs 0x2804 0) = true ∧
    gives (.hbuild 8) (limited 0x1000 4095 7 (hp [0xFF])) (failedAs 0x2804 0) = true ∧
    gives (.hbuild 8) (limited 0x1000 4095 8 (hp [0xFF])) (failedAs 0x2802 0) = true := by decide

/-- V-H2. -/
theorem test_hwalk : gives .hwalk { built with used := 4 } (fun t => readReg t .res == 0x42 && readReg t .bstate == 5) = true := by
  decide

/-- V-H4: a leaf root is returned without reading a bit. -/
theorem test_hwalk_leaf : gives .hwalk { built with tree := some (.leaf 0x41), hnodes := 1, inPos := 2, buf := 0x80, used := 1 }
    (fun t => readReg t .res == 0x41 && readReg t .bstate == 1) = true := by decide

/-- V-S20: an illegal command in a rest state only sets `IGN`. -/
theorem test_ignored : isNext (execWord 0x0500000000000000 (at_ .idle [])) { at_ .idle [] with ign := true } = true := by
  decide

/-- V-M1, V-M4: byte lanes, in and out. -/
theorem test_lanes :
    (storeWord 0 0x44332211 (at_ .idle [])).inMem = [(0, 0x11), (1, 0x22), (2, 0x33), (3, 0x44)] ∧
    hostRead { produced [0x61, 0x62, 0x61, 0x62, 0x61] [] with state := .complete } 0x2000004 32 = 0x61 := by decide

/-- V-J2: `GETBIT` with a nonzero `A` left in `CMD_A` is illegal. -/
theorem test_stale_cmdA :
    isNext (step { hp [0x80] with cmdA := 5, bus := [.write 0x0C 32 0x18000000] })
      { hp [0x80] with cmdA := 5, state := .failed, errKind := some .illegalCommand, errOpc := 0x18 } = true := by
  decide

/-- The codes of 60_exceptions.md R261, as a host reads them in `ERR_INFO`. -/
theorem test_kind_codes :
    [none, some .invalidHeader, some .truncatedStream, some .displacementOutOfRange, some .unsupportedConfiguration,
      some .illegalCommand].map (fun k => hostRead { at_ .failed [] with errKind := k, errOpc := 0x23 } 0x14 32) =
    [0x2300, 0x2301, 0x2302, 0x2303, 0x2304, 0x2305] := by decide

/-- A command word placed by `withFetchWord` is the next one executed. -/
theorem test_withFetchWord : isNext (step (State.reset.withFetchWord 64 0x0A00000000000005))
    { State.reset with cmdA := 5, declen := 5 } = true := by decide

/-! ### Witnesses: states that meet the hypotheses of the obligations

Each names the obligation whose hypotheses it meets, all together, with one conjunct for each clause. -/

theorem inv_of_checks {s : State}
    (hm : s.params.wf ∧ (s.inMem.wf none ∧ s.inMem.below s.params.inMax) ∧
      (s.outMem.wf none ∧ s.outMem.below s.params.outMax) ∧ s.win.wf s.winFill)
    (hn : s.outLen.toNat ≤ s.params.outMax ∧ s.used ≤ 32)
    (hc : s.state.isRest = false → s.inPos.toNat ≤ s.inLen.toNat ∧ s.inLen.toNat ≤ s.params.inMax ∧
      s.used ≤ s.unit.bits ∧ s.buf.toNat < 2 ^ s.unit.bits)
    (hd : s.state = .decoding → 1 ≤ s.cap.toNat ∧ s.cap.toNat ≤ s.params.winMax ∧ s.prebuf.toNat ≤ s.cap.toNat ∧
      s.declen.toNat ≤ s.params.outMax ∧ s.wptr.toNat < s.cap.toNat ∧ s.winFill = some s.fill ∧ s.win.below s.cap.toNat)
    (hi : (s.state = .idle ∨ s.state = .headerPending → s.wptr = 0) ∧
      (s.state = .idle → s.tree = none ∧ s.inPos = 0 ∧ s.outLen = 0 ∧ s.res = 0))
    (he : (s.tree = none → s.state ≠ .failed → s.hnodes = 0 ∧ s.hwidth = 0) ∧ (s.errKind = none ↔ s.state ≠ .failed) ∧
      (s.errKind = none → s.errOpc = 0 ∧ s.errDisp = 0 ∧ s.errOutLen = 0 ∧ s.errInPos = 0))
    (ht : ∀ t, s.tree = some t → s.TrieOk t) : s.Inv := by
  obtain ⟨h1, h2, h3, h4⟩ := hm
  exact ⟨h1, h2, h3, h4, hn.1, hn.2, fun a => ⟨(hc a).1, (hc a).2.1, (hc a).2.2.1, (hc a).2.2.2⟩,
    fun a => ⟨(hd a).1, (hd a).2.1, (hd a).2.2.1, (hd a).2.2.2.1, (hd a).2.2.2.2.1, (hd a).2.2.2.2.2.1, (hd a).2.2.2.2.2.2⟩,
    hi.1, hi.2, ht, he.1, he.2.1, he.2.2⟩

theorem noTrie {s : State} (h : s.tree = none) : ∀ t, s.tree = some t → s.TrieOk t := by
  intro t ht; rw [h] at ht; cases ht

/-- Four bytes of input in HeaderPending. -/
def hp4 : State := hp [0x90, 0x48, 0x4C, 0x00]

/-- Two bytes produced and one byte of input in Decoding, with a pre-buffer of one. -/
def dec2 : State := { produced [0x61, 0x62] [0x63] with cap := 4, prebuf := 1 }

/-- A full output memory of two bytes. -/
def full : State := limited 2 4095 32 (produced [0x61, 0x62] [0x63])

/-- A completed session. -/
def done2 : State := { produced [0x61, 0x62] [] with state := .complete }

/-- A failed session. -/
def failed1 : State := { at_ .failed [0x63] with errOpc := 0x23, errDisp := 4, errOutLen := 3, outLen := 3 }

theorem hp4_inv : hp4.Inv := inv_of_checks (by decide) (by decide) (by decide) (by decide) (by decide) (by decide) (noTrie rfl)
theorem hpEmpty_inv : (hp []).Inv := inv_of_checks (by decide) (by decide) (by decide) (by decide) (by decide) (by decide) (noTrie rfl)
theorem dec2_inv : dec2.Inv := inv_of_checks (by decide) (by decide) (by decide) (by decide) (by decide) (by decide) (noTrie rfl)
theorem full_inv : full.Inv := inv_of_checks (by decide) (by decide) (by decide) (by decide) (by decide) (by decide) (noTrie rfl)
theorem done2_inv : done2.Inv := inv_of_checks (by decide) (by decide) (by decide) (by decide) (by decide) (by decide) (noTrie rfl)
theorem failed1_inv : failed1.Inv := inv_of_checks (by decide) (by decide) (by decide) (by decide) (by decide) (by decide) (noTrie rfl)

theorem leaf_fits {w : Nat} {v : Word} (h : v.toNat < 2 ^ w) : (Trie.leaf v).fits w := h

theorem t1_fits : t1.fits 8 := ⟨leaf_fits (by decide), leaf_fits (by decide)⟩

theorem built_inv : built.Inv := inv_of_checks (by decide) (by decide) (by decide) (by decide) (by decide) (by decide) (by
  intro t h; cases h; exact ⟨by decide, by decide, by decide, t1_fits, by decide, by decide⟩)

theorem witness_DecodeOfEncodeIsTheCommand : (Instr.getbits 32).WellFormed ∧ (Instr.fail 4 0xFFFFFFFF).WellFormed := by decide

theorem witness_EncodeOfDecodeIsTheWord : decode 0x2300000100000005 = .ok (.copy 1 5) := by decide

theorem witness_DecoderRefusesExactlyTheIllegalWords :
    (0x2300000100000005 : CmdWord) &&& Opcode.copy.mask = Opcode.copy.pattern := by decide

theorem witness_UnassignedOpcodesAreIllegalCommands :
    (∀ n ∈ [0x05, 0x07, 0x0B, 0x0F, 0x13, 0x17, 0x1C, 0x1F, 0x24, 0x27, 0x2A, 0xFF],
      (opcField (packWord (BitVec.ofNat 8 n) 0 0)).toNat = n) ∧ ¬ (at_ .idle []).InSession ∧ (hp []).InSession := by decide

theorem witness_CommandIssueExecutesTheWord :
    ({ hp4 with bus := [.write 0x08 32 5] } : State).bus = .write (hp4.params.swdBase + 0x08) 32 5 :: [] ∧
    ({ hp4 with bus := [.write 0x0C 32 0x18000000] } : State).bus = .write (hp4.params.swdBase + 0x0C) 32 0x18000000 :: [] ∧
    decode ((0x18000000 : Word) ++ hp4.cmdA) = .ok .getbit ∧
    decode ((0x05000000 : Word) ++ hp4.cmdA) = .error (.unassignedOpcode 5) := by decide

theorem witness_QuietBlockHoldsItsState : hp4.bus = [] := by decide

theorem witness_ResetGivesTheResetValues : ({ dec2 with bus := [.reset] } : State).bus = .reset :: [] := by decide

theorem witness_OnlyFourKindsOfAccessHaveEffects :
    let s : State := { hp4 with bus := [.read (2 ^ 26 - 1) 32] }
    let t : State := { hp4 with bus := [.write (0x1000000 + 0x1000) 32 7] }
    s.bus = .read (s.params.swdBase + (2 ^ 26 - 1)) 32 :: [] ∧
    t.bus = .write (t.params.swdBase + 0x1001000) 32 7 :: [] ∧ 0x1001000 < 2 ^ 26 ∧
    ¬ (0x1000000 ≤ 0x1001000 ∧ 0x1001000 < 0x1000000 + t.params.inMax) := by decide

/-- A write of the IN window, of `IN_LEN` and of half of `CMD_OP`. -/
theorem witness_OnlyFourKindsOfAccessHaveEffects_write :
    ∀ p ∈ [(0x1000004, 32), (0x24, 32), (0x0C, 16)],
      let s : State := { at_ .idle [] with bus := [.write p.1 p.2 7] }
      s.bus = .write (s.params.swdBase + p.1) p.2 7 :: [] ∧ p.1 < 2 ^ 26 := by decide

theorem witness_MisalignedAccessesHaveNoEffect : (0x0D % 4 ≠ 0 ∨ 32 ≠ 32) ∧ (0x0C % 4 ≠ 0 ∨ 16 ≠ 32) := by decide

theorem witness_ReservedOffsetsReadZeroAndIgnoreWrites :
    ∀ off ∈ [0x58, 0x74, 0xFC, 0x100, 0xFFFFFC, 0x1001000, 0x1FFFFFC, 0x2001000, 0x3FFFFFC],
      off ∉ [0x00, 0x04, 0x08, 0x0C, 0x10, 0x14, 0x18, 0x1C, 0x20, 0x24, 0x28, 0x2C, 0x30, 0x34, 0x38, 0x3C, 0x40, 0x44, 0x48,
        0x4C, 0x50, 0x54, 0x60, 0x64, 0x68, 0x6C, 0x70] ∧
      ¬ (0x1000000 ≤ off ∧ off < 0x1000000 + hp4.params.inMax) ∧
      ¬ (0x2000000 ≤ off ∧ off < 0x2000000 + hp4.params.outMax) := by decide

theorem witness_InWindowWriteStoresItsLanes :
    done2.Inv ∧ ¬ done2.InSession ∧ 4 * 0x3FF < done2.params.inMax ∧ hp4.Inv ∧ hp4.InSession ∧ 4 * 0 < hp4.params.inMax :=
  ⟨done2_inv, by decide, by decide, hp4_inv, by decide, by decide⟩

theorem witness_InWindowReadReturnsItsLanes :
    4 * 0x3FFFFF < 0x1000000 ∧ 3 < 4 ∧ ¬ 4 * 0x3FFFFF + 3 < hp4.params.inMax ∧ 4 * 0x3FF + 3 < hp4.params.inMax := by decide

theorem witness_OutWindowShowsOnlyCompletedOutput : done2.Inv ∧ 4 * 0x7FFFFF < 0x2000000 ∧ 3 < 4 ∧
    done2.state = .complete ∧ 4 * 0 + 1 < done2.outLen.toNat ∧ ¬ 4 * 0 + 2 < done2.outLen.toNat ∧ dec2.Inv :=
  ⟨done2_inv, by decide, by decide, by decide, by decide, by decide, dec2_inv⟩

theorem witness_WritableRegistersStore : ¬ done2.InSession ∧ hp4.InSession ∧ dec2.InSession := by decide

theorem witness_RegistersReadTheirState : built.Inv ∧ built.state ≠ .failed ∧ built.inPos.toNat ≤ built.inLen.toNat :=
  ⟨built_inv, by decide, by decide⟩

theorem witness_FailedHidesTheDataPath : failed1.params.wf ∧ failed1.state = .failed ∧ 4 * 0x7FFFFF < 0x2000000 := by decide

theorem witness_FailedSessionLeaksNothing :
    failed1.Inv ∧ ({ failed1 with res := 7, outLen := 2, outMem := [(0, 9)] } : State).Inv ∧
    Indistinct failed1 { failed1 with res := 7, outLen := 2, outMem := [(0, 9)] } ∧
    (let s : State := { failed1 with bus := [.write 0x0C 32 0x01000000] }
     isNext (step s) (newSession { s with bus := [] }) = true) :=
  ⟨failed1_inv, inv_of_checks (by decide) (by decide) (by decide) (by decide) (by decide) (by decide) (noTrie rfl), ⟨by decide, fun h => absurd rfl h⟩, by decide⟩

/-- Two running sessions that differ in a stale byte of `OUT` only. -/
theorem witness_FailedSessionLeaksNothing_live :
    dec2.Inv ∧ ({ dec2 with outMem := memOf [0x61, 0x62, 0x77] } : State).Inv ∧
    Indistinct dec2 { dec2 with outMem := memOf [0x61, 0x62, 0x77] } :=
  ⟨dec2_inv, inv_of_checks (by decide) (by decide) (by decide) (by decide) (by decide) (by decide) (noTrie rfl), ⟨by decide, fun _ => ⟨by decide, by
    intro i hi
    have : i < 2 := hi
    obtain rfl | rfl : i = 0 ∨ i = 1 := by omega
    all_goals rfl⟩⟩⟩

theorem witness_EveryStepKeepsInv : ({ hp4 with bus := [.write 0x0C 32 0x28000008] } : State).Inv ∧
    isNext (step { hp4 with bus := [.write 0x0C 32 0x28000008] })
      { hp4 with tree := some t1, hnodes := 3, hwidth := 8, inPos := 3, buf := 0x4C, used := 3 } = true :=
  ⟨inv_of_checks (by decide) (by decide) (by decide) (by decide) (by decide) (by decide) (noTrie rfl), by decide⟩

theorem witness_CommandsMakeOnlyTheListedTransitions :
    (gives .begin done2 fun t => t.state == .headerPending) = true ∧ (gives .begin { done2 with inLen := 0x1001 } fun t => t.state == .failed) = true ∧
    (gives .start hp4 fun t => t.state == .decoding) = true ∧ (gives .finish dec2 fun t => t.state == .complete) = true ∧
    (gives .litr hp4 fun t => t.state == .failed) = true ∧ (gives .litr done2 fun t => t.state == .complete) = true := by decide

theorem witness_IgnIsStickyUntilBeginOrReset :
    (let s : State := { at_ .idle [] with ign := true, bus := [.reset] }
     s.ign = true ∧ isNext (step s) { platformReset s with bus := [] } = true ∧ (platformReset s).ign = false) ∧
    (let s : State := { at_ .idle [] with bus := [.write 0x0C 32 0x18000000] }
     s.ign = false ∧ isNext (step s) { s with ign := true, bus := [] } = true ∧ ¬ s.InSession ∧
     decode 0x1800000000000000 = .ok .getbit ∧ legal .getbit s = false) ∧
    (let s : State := { at_ .idle [] with ign := true, bus := [.write 0x0C 32 0x01000000] }
     decode 0x0100000000000000 = .ok .begin ∧ isNext (step s) (newSession { s with bus := [] }) = true) := by decide

/-- The word of the second state above is issued as `Issues` says. -/
theorem witness_Issues : Issues { at_ .idle [] with bus := [.write 0x0C 32 0x18000000] } 0x1800000000000000 :=
  ⟨0x18000000, [], rfl, by decide⟩

theorem witness_OnlySixCommandsAndBeginWriteRes :
    Instr.op (.liti 1) ∉ [Opcode.rdbytes, .getbit, .getbits, .getbyte, .litb, .hwalk, .begin] ∧
    (gives (.liti 1) { dec2 with res := 7 } fun t => t.res == 7) = true ∧
    (gives .begin { dec2 with res := 7 } fun t => t.res == 0) = true := by decide

theorem witness_CommandsKeepHostOwnedState : (gives (.copy 1 1) { dec2 with cmdA := 9 } fun t => t.cmdA == 9) = true := by decide

theorem witness_ConfigurationHasOneWriterEach :
    (Instr.op .litr ≠ .cfgwin ∨ dec2.state = .decoding) ∧ (gives (.cfgwin 1 1 1) dec2 fun t => t.cap == 4) = true ∧
    (gives (.cfgbits .lsbFirst .big 1) dec2 fun t => t.bitOrd == .msbFirst) = true ∧
    (gives (.cfglen 1) dec2 fun t => t.declen == 0) = true := by decide

theorem witness_NoCommandMovesInposPastInLen :
    dec2.inPos.toNat ≤ dec2.inLen.toNat ∧ (gives .litb dec2 fun t => t.inPos == t.inLen) = true := by decide

theorem witness_CompletedSessionIsFrozen :
    (gives (.cfglen 9) done2 fun t => t.declen == 9 && t.ign == false) = true ∧
    done2.state = .complete ∧ Instr.litr ≠ .begin ∧ isNext (exec .litr done2) { done2 with ign := true } = true := by decide

theorem witness_DeclaredLengthIsNotEnforced :
    Instr.op (.copy 1 1) ≠ .start ∧ Instr.op (.copy 1 1) ≠ .cfglen ∧
    (gives (.copy 1 1) { dec2 with declen := 1 } fun t => t.outLen == 3) = true := by decide

theorem witness_IllegalCommandsFailOrAreIgnored :
    decode 0x0000000000000001 = .error (.mustBeZero .nop) ∧ legal .litr hp4 = false ∧ legal .litr done2 = false ∧ legal .litr dec2 = true ∧ legal .hwalk built = true ∧
    legal (.hbuild 8) built = false ∧ legal .hwalk hp4 = false := by decide

theorem witness_FailureRecordIsPrecise :
    (dec2.state ≠ .failed ∨ Instr.copy 4 1 = .begin) ∧ (gives (.copy 4 1) dec2 fun t => t.state == .failed) = true ∧
    (gives (.fail 3 9) dec2 fun t => t.state == .failed && t.errDisp == 9) = true ∧
    (gives .begin { failed1 with inLen := 0x1001 } fun t => t.state == .failed && t.errOutLen == 0) = true := by decide

theorem witness_EachCommandRaisesOnlyItsKinds :
    (gives (.copy 4 1) dec2 fun t => t.state == .failed && t.errKind == some .displacementOutOfRange) = true ∧
    (gives .getbit (hp []) fun t => t.state == .failed && t.errKind == some .truncatedStream) = true ∧
    (gives (.liti 1) full fun t => t.state == .failed && t.errKind == some .unsupportedConfiguration) = true ∧
    (gives (.magic 1 1) hp4 fun t => t.state == .failed && t.errKind == some .invalidHeader) = true := by decide

theorem witness_FirstErrorRecordSurvives :
    failed1.state = .failed ∧
    isNext (step { failed1 with bus := [.write 0x0C 32 0x20000000] }) { failed1 with ign := true } = true := by decide

theorem witness_NopChangesNothing : opcField 0x0000000000000001 = 0x00 ∧ (0x0000000000000001 : CmdWord) ≠ 0 := by decide

theorem witness_BeginStartsASession :
    done2.inLen.toNat ≤ done2.params.inMax ∧ ({ done2 with inLen := 0x1000 } : State).inLen.toNat ≤ done2.params.inMax ∧
    done2.params.inMax < ({ done2 with inLen := 0x1001 } : State).inLen.toNat := by decide

theorem witness_StartChecksAndFillsTheRing :
    (let s : State := { hp4 with cap := 1, prebuf := 1, declen := 0x1000 }
     s.state = .headerPending ∧ 1 ≤ s.cap.toNat ∧ s.cap.toNat ≤ s.params.winMax ∧ s.prebuf.toNat ≤ s.cap.toNat ∧
     s.declen.toNat ≤ s.params.outMax) ∧
    ({ hp4 with cap := 0 } : State).cap.toNat < 1 ∧ hp4.params.winMax < ({ hp4 with cap := 0x10001 } : State).cap.toNat ∧
    (let s : State := { hp4 with prebuf := 0x1001 }; s.cap.toNat < s.prebuf.toNat) ∧
    (let s : State := { hp4 with declen := 0x1001 }; s.params.outMax < s.declen.toNat) ∧ dec2.state ≠ .headerPending := by decide

theorem witness_FinishCompletesTheSession : dec2.state = .decoding ∧ hp4.state ≠ .decoding := by decide

theorem witness_FailRecordsTheHostsError :
    hp4.InSession ∧ NamesKind 1 .invalidHeader ∧ NamesKind 2 .truncatedStream ∧ NamesKind 3 .displacementOutOfRange ∧
    NamesKind 4 .unsupportedConfiguration ∧ (0 : BitVec 3).toNat < 1 ∧ 4 < (5 : BitVec 3).toNat ∧ ¬ done2.InSession := by decide

theorem witness_CfglenSetsTheDeclaredLength : hp4.state ≠ .decoding ∧ done2.state ≠ .decoding ∧ dec2.state = .decoding := by decide

theorem witness_RdbytesReadsAField :
    hp4.InSession ∧ hp4.inPos.toNat + 4 ≤ hp4.inLen.toNat ∧ hp4.inPos.toNat + 1 ≤ hp4.inLen.toNat ∧
    (let s : State := { hp4 with inPos := 1 }; s.InSession ∧ s.inLen.toNat < s.inPos.toNat + 4) ∧ ¬ done2.InSession ∧
    (0 : BitVec 3).toNat < 1 ∧ 4 < (5 : BitVec 3).toNat := by decide

theorem witness_MagicChecksTheSignature :
    hp4.state = .headerPending ∧ hp4.inPos.toNat + 4 ≤ hp4.inLen.toNat ∧
    (∀ k, k < 4 → hp4.inByte (hp4.inPos.toNat + k) = (0x004C4890 : Word).extractLsb' (8 * k) 8) ∧
    (∃ k, k < 4 ∧ hp4.inByte (hp4.inPos.toNat + k) ≠ (0x014C4890 : Word).extractLsb' (8 * k) 8) ∧
    (hp []).inLen.toNat < (hp []).inPos.toNat + 1 ∧ dec2.state ≠ .headerPending ∧ (0 : BitVec 3).toNat < 1 ∧
    4 < (7 : BitVec 3).toNat :=
  ⟨by decide, by decide, by decide, ⟨3, by decide, by decide⟩, by decide, by decide, by decide, by decide⟩

theorem witness_SeekMovesTheCursor :
    hp4.state = .headerPending ∧ (4 : Word).toNat ≤ hp4.inLen.toNat ∧ hp4.inLen.toNat < (5 : Word).toNat ∧
    dec2.state ≠ .headerPending := by decide

theorem witness_CfgbitsSetsTheBitReader :
    opcField 0x0900000000000010 = 0x09 ∧ (0x0900000000000010 : CmdWord) &&& 0x00FFFFFFFFFFFFF0 ≠ 0 ∧
    RefillUnit.bytes .one = 2 ^ (0 : BitVec 2).toNat ∧ RefillUnit.bytes .four = 2 ^ (2 : BitVec 2).toNat ∧
    hp4.state = .headerPending ∧ done2.state ≠ .headerPending ∧ done2.state ≠ .decoding ∧ dec2.state = .decoding := by decide

theorem witness_GetbitReadsTheNextBit :
    hp4.Inv ∧ hp4.InSession ∧ hp4.streamHas 1 ∧ (hp []).Inv ∧ (hp []).InSession ∧ ¬ (hp []).streamHas 1 ∧ ¬ done2.InSession :=
  ⟨hp4_inv, by decide, by decide, hpEmpty_inv, by decide, by decide, by decide⟩

theorem witness_GetbitsReadsAField :
    hp4.Inv ∧ hp4.InSession ∧ hp4.streamHas 0 ∧ hp4.streamHas 32 ∧ (hp []).Inv ∧ ¬ (hp []).streamHas 32 ∧ ¬ done2.InSession ∧
    32 < (33 : BitVec 6).toNat :=
  ⟨hp4_inv, by decide, by decide, by decide, hpEmpty_inv, by decide, by decide, by decide⟩

theorem witness_EightBitsAreTheNextByte :
    hp4.Inv ∧ hp4.InSession ∧ hp4.unit = .one ∧ hp4.used = 8 ∧ hp4.inPos.toNat + 1 ≤ hp4.inLen.toNat :=
  ⟨hp4_inv, by decide, by decide, by decide, by decide⟩

theorem witness_ByteOrderIsIdleForOneByteUnits :
    hp4.unit = .one ∧ Instr.op (.getbits 12) ∈ [Opcode.getbit, .getbits, .hbuild, .hwalk] ∧
    (gives (.getbits 12) hp4 fun t => t.res == 0x904) = true := by decide

theorem witness_AlignDiscardsTheUnit : hp4.InSession ∧ ¬ done2.InSession := by decide

theorem witness_GetbyteReadsAnAlignedByte :
    dec2.InSession ∧ dec2.inPos.toNat + 1 ≤ dec2.inLen.toNat ∧ (hp []).InSession ∧
    (hp []).inLen.toNat < (hp []).inPos.toNat + 1 ∧ ¬ done2.InSession := by decide

theorem witness_CfgwinSetsTheWindow : hp4.state ≠ .decoding ∧ dec2.state = .decoding := by decide

theorem witness_LitiAppendsItsByte :
    dec2.Inv ∧ dec2.state = .decoding ∧ dec2.outLen.toNat + 1 ≤ dec2.params.outMax ∧ full.state = .decoding ∧
    full.params.outMax < full.outLen.toNat + 1 ∧ hp4.state ≠ .decoding :=
  ⟨dec2_inv, by decide, by decide, by decide, by decide, by decide⟩

theorem witness_LitrAppendsTheLowByteOfRes :
    full.Inv ∧ (limited 3 4095 32 full).outLen.toNat + 1 = (limited 3 4095 32 full).params.outMax ∧ dec2.Inv ∧
    dec2.outLen.toNat + 1 ≤ dec2.params.outMax ∧ full.params.outMax < full.outLen.toNat + 1 :=
  ⟨full_inv, by decide, dec2_inv, by decide, by decide⟩

theorem witness_LitbReadsAndAppendsAByte :
    dec2.Inv ∧ dec2.state = .decoding ∧ dec2.outLen.toNat + 1 ≤ dec2.params.outMax ∧
    dec2.inPos.toNat + 1 ≤ dec2.inLen.toNat ∧ full.params.outMax < full.outLen.toNat + 1 ∧
    (let s : State := { dec2 with inPos := 1 }; s.state = .decoding ∧ s.outLen.toNat + 1 ≤ s.params.outMax ∧
      s.inLen.toNat < s.inPos.toNat + 1) ∧ hp4.state ≠ .decoding :=
  ⟨dec2_inv, by decide, by decide, by decide, by decide, by decide, by decide⟩

theorem witness_CopyRepeatsTheBytesBehindTheCursor :
    dec2.Inv ∧ dec2.state = .decoding ∧ 1 ≤ (3 : Field24).toNat ∧ (3 : Field24).toNat ≤ dec2.prebuf.toNat + dec2.outLen.toNat ∧
    (3 : Field24).toNat ≤ dec2.cap.toNat ∧ dec2.outLen.toNat + (0xFFE : Word).toNat ≤ dec2.params.outMax ∧
    dec2.prebuf.toNat + dec2.outLen.toNat < (4 : Field24).toNat ∧ dec2.cap.toNat < (5 : Field24).toNat ∧
    (0 : Field24).toNat < 1 ∧ dec2.params.outMax < dec2.outLen.toNat + (0xFFF : Word).toNat ∧ hp4.state ≠ .decoding :=
  ⟨dec2_inv, by decide, by decide, by decide, by decide, by decide, by decide, by decide, by decide, by decide, by decide⟩

theorem witness_HbuildBuildsTheDescribedTrie :
    hp4.Inv ∧ hp4.InSession ∧ hp4.tree = none ∧ 1 ≤ (8 : BitVec 6).toNat ∧ (8 : BitVec 6).toNat ≤ 32 ∧
    t1.fits (8 : BitVec 6).toNat ∧ t1.depth ≤ hp4.params.hufDepthMax ∧ t1.nodes ≤ hp4.params.hufNodesMax ∧
    hp4.streamHas (t1.describe hp4.bitOrd (8 : BitVec 6).toNat).length ∧
    hp4.nextBits (t1.describe hp4.bitOrd (8 : BitVec 6).toNat).length = t1.describe hp4.bitOrd (8 : BitVec 6).toNat ∧
    ¬ done2.InSession ∧ built.tree ≠ none ∧ (0 : BitVec 6).toNat < 1 ∧ 32 < (33 : BitVec 6).toNat :=
  ⟨hp4_inv, by decide, by decide, by decide, by decide, t1_fits, by decide, by decide, by decide, by decide, by decide, by decide,
    by decide, by decide⟩

/-- Tree of V-H6: five nodes, depth 2. -/
def t5 : Trie := .branch (.branch (.leaf 1) (.leaf 2)) (.leaf 3)

theorem t5_fits : t5.fits (8 : BitVec 6).toNat := ⟨⟨leaf_fits (by decide), leaf_fits (by decide)⟩, leaf_fits (by decide)⟩

/-- Three nodes of it begin in its first eight bits, at most one below the limit of depth. -/
theorem t5_nodes (ord : BitOrder) {j m k : Nat} (h : t5.NodeAt ord 8 j m k) (hm : m ≤ 8) : k ≤ 2 ∧ j < 3 := by
  rcases h with ⟨rfl, rfl, rfl⟩ | ⟨_, _, _, ⟨rfl, rfl, rfl⟩ | ⟨_, _, _, ⟨rfl, rfl, rfl⟩, rfl, rfl, rfl⟩ |
    ⟨_, _, _, ⟨rfl, rfl, rfl⟩, rfl, rfl, rfl⟩, rfl, rfl, rfl⟩ | ⟨_, _, _, ⟨rfl, rfl, rfl⟩, rfl, rfl, rfl⟩ <;>
    revert hm <;> cases ord <;> decide

theorem t1_nodes (ord : BitOrder) {j m k : Nat} (h : t1.NodeAt ord 8 j m k) : k ≤ 1 ∧ j < 3 := by
  rcases h with ⟨rfl, rfl, rfl⟩ | ⟨_, _, _, ⟨rfl, rfl, rfl⟩, rfl, rfl, rfl⟩ | ⟨_, _, _, ⟨rfl, rfl, rfl⟩, rfl, rfl, rfl⟩ <;>
    decide

theorem witness_HbuildRefusesTriesBeyondTheLimits :
    ∀ s ∈ [limited 0x1000 4 32 (hp [0xC0, 0x20, 0x20, 0x18]), limited 0x1000 4095 1 (hp [0xC0, 0x20, 0x20, 0x18])],
    s.Inv ∧ s.InSession ∧ s.tree = none ∧ 1 ≤ (8 : BitVec 6).toNat ∧ (8 : BitVec 6).toNat ≤ 32 ∧ t5.fits (8 : BitVec 6).toNat ∧
    (s.params.hufDepthMax < t5.depth ∨ s.params.hufNodesMax < t5.nodes) ∧
    s.streamHas (t5.describe s.bitOrd (8 : BitVec 6).toNat).length ∧
    s.nextBits (t5.describe s.bitOrd (8 : BitVec 6).toNat).length = t5.describe s.bitOrd (8 : BitVec 6).toNat := by
  intro s hs
  simp only [List.mem_cons, List.not_mem_nil, or_false] at hs
  rcases hs with rfl | rfl <;>
    exact ⟨inv_of_checks (by decide) (by decide) (by decide) (by decide) (by decide) (by decide) (noTrie rfl), by decide, by decide, by decide, by decide,
      t5_fits, by decide, by decide, by decide⟩

/-- The next `n` bits of a stream are the first `n` of the description of `t`, whose node `j` at depth `k` begins there and is
beyond the limits; whether the stream goes on is `more`. -/
abbrev EndsBefore (s : State) (t : Trie) (j n k : Nat) (more : Bool) : Prop :=
  s.Inv ∧ s.InSession ∧ s.tree = none ∧ t.fits (8 : BitVec 6).toNat ∧ t.NodeAt s.bitOrd (8 : BitVec 6).toNat j n k ∧
  (s.params.hufDepthMax < k ∨ s.params.hufNodesMax ≤ j) ∧ s.streamHas n ∧
  s.nextBits n = (t.describe s.bitOrd (8 : BitVec 6).toNat).take n ∧ decide (s.streamHas (n + 1)) = more

/-- `d` branches down the left side. -/
def comb : Nat → Trie
  | 0 => .leaf 0
  | d + 1 => .branch (comb d) (.leaf 0)

theorem comb_fits (w : Nat) : ∀ d, (comb d).fits w
  | 0 => Nat.two_pow_pos w
  | d + 1 => ⟨comb_fits w d, Nat.two_pow_pos w⟩

theorem comb_nodeAt (ord : BitOrder) (w : Nat) : ∀ d, (comb d).NodeAt ord w d d d
  | 0 => ⟨rfl, rfl, rfl⟩
  | d + 1 => .inr (.inl ⟨d, d, d, comb_nodeAt ord w d, Nat.add_comm _ _, Nat.add_comm _ _, Nat.add_comm _ _⟩)

/-- V-H5 (`HUF_DEPTH_MAX` = 2, `IN` = `FF`); the same input where it ends just before the refused node; and V-H6, where
the fourth node is one too many. -/
theorem witness_HbuildRefusesTriesBeyondTheLimits_early :
    EndsBefore (limited 0x1000 4095 2 (hp [0xFF])) (comb 3) 3 3 3 true ∧
    EndsBefore (limited 0x1000 4095 7 (hp [0xFF])) (comb 8) 8 8 8 false ∧
    EndsBefore (limited 0x1000 3 32 (hp [0xC0, 0x20])) t5 3 11 2 true :=
  ⟨⟨inv_of_checks (by decide) (by decide) (by decide) (by decide) (by decide) (by decide) (noTrie rfl), by decide, by decide,
      comb_fits _ _, comb_nodeAt _ _ _, by decide, by decide, by decide, by decide⟩,
    ⟨inv_of_checks (by decide) (by decide) (by decide) (by decide) (by decide) (by decide) (noTrie rfl), by decide, by decide,
      comb_fits _ _, comb_nodeAt _ _ _, by decide, by decide, by decide, by decide⟩,
    ⟨inv_of_checks (by decide) (by decide) (by decide) (by decide) (by decide) (by decide) (noTrie rfl), by decide, by decide,
      t5_fits, .inr (.inl ⟨2, 10, 1, .inr (.inr ⟨0, 0, 0, ⟨rfl, rfl, rfl⟩, by decide, by decide, rfl⟩), rfl, rfl, rfl⟩),
      by decide, by decide, by decide, by decide⟩⟩

theorem witness_HwalkDecodesASymbol :
    built.Inv ∧ built.InSession ∧ built.tree = some t1 ∧ t1.follow [false] = some 0x41 ∧ built.streamHas [false].length ∧
    built.nextBits [false].length = [false] ∧ ¬ done2.InSession ∧ hp4.tree = none :=
  ⟨built_inv, by decide, by decide, by decide, by decide, by decide, by decide, by decide⟩

/-- The stream ends after `n` bits of the description of `t`, and no node that begins before is beyond the limits. -/
abbrev EndsWithin (s : State) (t : Trie) (n : Nat) : Prop :=
  s.Inv ∧ s.InSession ∧ s.tree = none ∧ t.fits (8 : BitVec 6).toNat ∧
  (∀ j m k, t.NodeAt s.bitOrd (8 : BitVec 6).toNat j m k → m ≤ n → k ≤ s.params.hufDepthMax ∧ j < s.params.hufNodesMax) ∧
  n < (t.describe s.bitOrd (8 : BitVec 6).toNat).length ∧ s.streamHas n ∧ ¬ s.streamHas (n + 1) ∧
  s.nextBits n = (t.describe s.bitOrd (8 : BitVec 6).toNat).take n

/-- The stream ends inside the description of T1, within the limits; and in that of a trie of five nodes under a limit of
three, before the fourth. -/
theorem witness_HbuildBuildsTheDescribedTrie_truncated :
    EndsWithin (hp [0x90, 0x48]) t1 16 ∧ EndsWithin (limited 0x1000 3 32 (hp [0xC0])) t5 8 :=
  ⟨⟨inv_of_checks (by decide) (by decide) (by decide) (by decide) (by decide) (by decide) (noTrie rfl), by decide, by decide,
      t1_fits, fun _ _ _ h _ => ⟨Nat.le_trans (t1_nodes _ h).1 (by decide), Nat.lt_of_lt_of_le (t1_nodes _ h).2 (by decide)⟩,
      by decide, by decide, by decide, by decide⟩,
    ⟨inv_of_checks (by decide) (by decide) (by decide) (by decide) (by decide) (by decide) (noTrie rfl), by decide, by decide,
      t5_fits, fun _ _ _ h hm => ⟨Nat.le_trans (t5_nodes _ h hm).1 (by decide), (t5_nodes _ h hm).2⟩,
      by decide, by decide, by decide, by decide⟩⟩

/-- The stream ends before a leaf of T1 is reached (V-H3). -/
theorem witness_HwalkDecodesASymbol_truncated :
    (let s : State := { built with used := 8 }
     s.Inv ∧ s.InSession ∧ s.tree = some t1 ∧ s.streamHas 0 ∧ ¬ s.streamHas (0 + 1) ∧
     (∀ m, m ≤ 0 → t1.follow (s.nextBits m) = none)) :=
  ⟨inv_of_checks (by decide) (by decide) (by decide) (by decide) (by decide) (by decide) (by
    intro t h; cases h; exact ⟨by decide, by decide, by decide, t1_fits, by decide, by decide⟩), by decide, by decide, by decide,
    by decide, by decide⟩

theorem witness_HwalkReadsAtMostTheDepthLimit : built.Inv ∧ built.InSession ∧ built.tree = some t1 :=
  ⟨built_inv, by decide, by decide⟩

end Sys2Proof.Tests
end

section
/-! PROOF. Every step keeps the invariant. -/

namespace Sys2Proof.Machine

/-! ### The invariant taken apart -/

/-- What the invariant says whatever `STATE` holds: the part of it that a failed session keeps (60_exceptions.md R266). -/
structure State.DataOk (s : State) : Prop where
  params : s.params.wf
  inWf : s.inMem.wf none ∧ s.inMem.below s.params.inMax
  outWf : s.outMem.wf none ∧ s.outMem.below s.params.outMax
  winWf : s.win.wf s.winFill
  outLenLe : s.outLen.toNat ≤ s.params.outMax
  usedLe : s.used ≤ 32
  trie : ∀ t, s.tree = some t → s.TrieOk t

theorem State.Inv.dataOk {s : State} (h : s.Inv) : s.DataOk := { h with }

/-- Failure entry needs only the data, whatever the raising command had written (60_exceptions.md R266). -/
theorem raiseError_inv {s : State} (h : s.DataOk) (opc : Byte) (start : State) (k : ErrorKind) (d : Word) :
    (raiseError opc start k d s).Inv where
  __ := h
  cursors hs := nomatch hs
  decoding hs := nomatch hs
  wptrIdle hs := by rcases hs with hs | hs <;> cases hs
  idle hs := nomatch hs
  trie t ht := { h.trie t ht with }
  noTrie _ hs := absurd rfl hs
  record := iff_of_false nofun (not_not_intro rfl)
  noRecord hk := nomatch hk

/-- Elements that the invariant does not speak of. -/
theorem State.Inv.hostFields {s : State} (h : s.Inv) (a : Word) (g : Bool) (bus : List HostEvent) (r : Word) :
    State.Inv { s with cmdA := a, ign := g, bus := bus, rdata := r } where
  __ := h
  cursors hs := { h.cursors hs with }
  decoding hs := { h.decoding hs with }
  trie t ht := { h.trie t ht with }

theorem illegalCommand_inv {s : State} (h : s.Inv) (opc : Byte) : (illegalCommand opc s).Inv := by
  by_cases hs : s.InSession
  · rw [illegalCommand_session hs]
    exact raiseError_inv h.dataOk ..
  · rw [illegalCommand_rest hs]
    exact h.hostFields s.cmdA true s.bus s.rdata

/-! ### Host events -/

theorem reset_inv : State.reset.Inv where
  params := by decide
  inWf := ⟨reset_memories_wf.1, by decide⟩
  outWf := ⟨reset_memories_wf.2.1, by decide⟩
  winWf := reset_memories_wf.2.2
  outLenLe := by decide
  usedLe := by decide
  cursors hs := nomatch hs
  decoding hs := nomatch hs
  wptrIdle _ := rfl
  idle _ := ⟨rfl, rfl, rfl, rfl⟩
  trie _ ht := nomatch ht
  noTrie _ _ := ⟨rfl, rfl⟩
  record := by decide
  noRecord _ := ⟨rfl, rfl, rfl, rfl⟩

theorem platformReset_inv {s : State} (h : s.params.wf) : (platformReset s).Inv where
  __ := reset_inv
  params := h
  inWf := ⟨Memory.nil_wf _, nofun⟩
  outWf := ⟨Memory.nil_wf _, nofun⟩
  outLenLe := Nat.zero_le _
  cursors hs := nomatch hs
  decoding hs := nomatch hs
  trie _ ht := nomatch ht

/-- `IN_LEN` bounds a cursor in a session only, and there the host cannot write it (10_state.md R35). -/
theorem State.Inv.setInLen {s : State} (h : s.Inv) (hs : ¬ s.InSession) (v : Word) :
    State.Inv { s with inLen := v } where
  __ := h
  cursors hr := absurd ((isRest_iff s).2 hs) (by simpa using hr)
  decoding hd := { h.decoding hd with }
  trie t ht := { h.trie t ht with }

theorem storeLane_inv {s : State} (h : s.Inv) (k : Nat) (v : Word) (j : Nat) : (storeLane k v j s).Inv := by
  unfold storeLane
  split
  case isTrue hlt =>
    exact {
      h with
      inWf := ⟨Memory.write_wf _ _ h.inWf.1, Memory.write_below (dflt := none) h.inWf.2 hlt⟩
      cursors := fun hs => { h.cursors hs with }
      decoding := fun hd => { h.decoding hd with }
      trie := fun t ht => { h.trie t ht with } }
  case isFalse => exact h

theorem storeWord_inv {s : State} (h : s.Inv) (k : Nat) (v : Word) : (storeWord k v s).Inv :=
  storeLane_inv (storeLane_inv (storeLane_inv (storeLane_inv h ..) ..) ..) ..

/-! ### Reading commands -/

theorem State.Inv.cursorsOk {s : State} (h : s.Inv) (hs : s.InSession) : s.CursorsOk :=
  h.cursors (by simpa using mt (isRest_iff s).1 (not_not_intro hs))

theorem State.CursorsOk.readOk {s : State} (h : s.CursorsOk) : ReadOk s := { h with }

theorem State.InSession.ne_idle {s : State} (h : s.InSession) : s.state ≠ .idle := by
  rcases h with h | h <;> rw [h] <;> decide

theorem CursorOnly.inSession {s t : State} (hf : CursorOnly s t) (hs : s.InSession) : t.InSession := by
  rw [hf]; exact hs

theorem State.DataOk.withCursors {s t : State} (h : s.DataOk) (hf : CursorOnly s t) (hr : ReadOk t) : t.DataOk := by
  rw [hf] at hr ⊢
  exact { h with usedLe := hr.usedLe.trans (bits_le _), trie := fun t ht => { h.trie t ht with } }

/-- In a session the cursors may move wherever a read may leave them. -/
theorem State.Inv.withCursors {s t : State} (h : s.Inv) (hs : s.InSession) (hf : CursorOnly s t) (hr : ReadOk t) :
    t.Inv := by
  have hdata := h.dataOk.withCursors hf hr
  rw [hf] at hr hdata ⊢
  exact {
    h, hdata with
    usedLe := hdata.usedLe
    cursors := fun hst => { hr, h.cursors hst with }
    decoding := fun hd => { h.decoding hd with }
    idle := fun hi => absurd hi hs.ne_idle
    trie := hdata.trie }

/-- `RES` holds a value of the session's from `BEGIN` on. -/
theorem State.Inv.setRes {s : State} (h : s.Inv) (hs : s.InSession) (v : Word) : (s.setRes v).Inv where
  __ := h
  cursors hst := { h.cursors hst with }
  decoding hd := { h.decoding hd with }
  idle hi := absurd hi hs.ne_idle
  trie t ht := { h.trie t ht with }

theorem available_iff {s : State} {n : Nat} : s.available n = true ↔ s.inPos.toNat + n ≤ s.inLen.toNat := by
  simp [State.available]

theorem advance_readOk {s : State} (h : ReadOk s) {n : Nat} (ha : s.available n = true) : ReadOk (s.advance n) where
  __ := h
  inPosLe := by
    have hlen := available_iff.1 ha
    have := s.inLen.isLt
    rw [advance_inPos, advance_inLen, BitVec.toNat_add, BitVec.toNat_ofNat, Nat.add_mod_mod, Nat.mod_eq_of_lt (by omega)]
    exact hlen

theorem exhaust_readOk {s : State} (h : ReadOk s) : ReadOk s.exhaust := { h with usedLe := Nat.le_refl _ }

theorem State.Inv.advance {s : State} (h : s.Inv) (hs : s.InSession) {n : Nat} (ha : s.available n = true) :
    (s.advance n).Inv :=
  h.withCursors hs rfl (advance_readOk (h.cursorsOk hs).readOk ha)

theorem State.Inv.exhaust {s : State} (h : s.Inv) (hs : s.InSession) : s.exhaust.Inv :=
  h.withCursors hs rfl (exhaust_readOk (h.cursorsOk hs).readOk)

/-- A command that reads and then writes `RES`, or raises out of the read. -/
theorem conclude_setRes_inv {α : Type} {s : State} (h : s.Inv) (hs : s.InSession) (o : Opcode) {r : Attempt α}
    (hf : CursorOnly s r.final) (hr : ReadOk r.final) (value : α → Word) :
    (conclude o s r fun v t => t.setRes (value v)).Inv := by
  have ht := h.withCursors hs hf hr
  cases r with
  | done v t => exact ht.setRes (hf.inSession hs) _
  | raised k t => exact raiseError_inv ht.dataOk ..

theorem readBit_readOk {s : State} (h : ReadOk s) : ReadOk (readBit s).final := by
  rcases readBit_cases h with ⟨h1, he⟩ | ⟨_, he⟩ <;> rw [he]
  · exact h.skip h1
  · exact h

theorem readBits_readOk {s : State} (h : ReadOk s) {c : Nat} (hc : c ≤ 32) : ReadOk (readBits c s).final := by
  rcases readBits_cases h hc with ⟨h1, he⟩ | ⟨_, t, _, ht, he⟩ <;> rw [he]
  · exact h.skip h1
  · exact ht

/-! ### Appending commands -/

theorem outRoom_iff {s : State} {n : Nat} : s.outRoom n = true ↔ s.outLen.toNat + n ≤ s.params.outMax := by
  simp [State.outRoom]

theorem emit_inv {s : State} (h : s.Inv) (hd : s.state = .decoding) (hr : s.outRoom 1 = true) (b : Byte) :
    (emit b s).Inv := by
  have hroom := outRoom_iff.1 hr
  obtain ⟨-, -, -, -, -, hmax, -⟩ := h.params
  have hlen := emit_outLen_toNat b s (by omega)
  have hok := h.decoding hd
  have hptr := emit_wptr_toNat b s hok.capPos
  exact {
    h with
    outWf := ⟨Memory.write_wf _ _ h.outWf.1, Memory.write_below (dflt := none) h.outWf.2 hroom⟩
    winWf := Memory.write_wf _ _ h.winWf
    outLenLe := hlen ▸ hroom
    cursors := fun hs => { h.cursors hs with }
    decoding := fun _ => {
      hok with
      wptrLt := hptr ▸ Nat.mod_lt _ hok.capPos
      ring := Memory.write_below hok.ring hok.wptrLt }
    wptrIdle := fun hi => absurd (hd ▸ hi) (by decide)
    idle := fun hi => absurd (hd ▸ hi) (by decide)
    trie := fun t ht => { h.trie t ht with } }

theorem copyBytes_inv (d n : Nat) : ∀ s : State, s.Inv → s.state = .decoding → s.outRoom n = true →
    (copyBytes d n s).Inv := by
  induction n with
  | zero => exact fun s h _ _ => h
  | succ n ih =>
    intro s h hd hr
    have hroom := outRoom_iff.1 hr
    obtain ⟨-, -, -, -, -, hmax, -⟩ := h.params
    refine ih _ (emit_inv h hd (outRoom_iff.2 (by omega)) _) hd (outRoom_iff.2 ?_)
    rw [emit_outLen_toNat _ s (by omega), emit_params]
    omega

/-! ### The trie -/

/-- A trie that agrees with its registers may be built in a session. -/
theorem State.Inv.setTrie {s : State} (h : s.Inv) (hs : s.InSession) (t : Trie) (n : Word) (w : BitVec 6)
    (ht : State.TrieOk { s with tree := some t, hnodes := n, hwidth := w } t) :
    State.Inv { s with tree := some t, hnodes := n, hwidth := w } where
  __ := h
  cursors hst := { h.cursors hst with }
  decoding hd := { h.decoding hd with }
  idle hi := absurd hi hs.ne_idle
  trie _ hu := Option.some.inj hu ▸ ht
  noTrie hn := nomatch hn

/-- `HBUILD` with a legal width and no trie yet (45_huffman.md R202): the new trie is within its limits and agrees with
`HNODES` and `HWIDTH`. -/
theorem hbuild_inv {s : State} (h : s.Inv) (hs : s.InSession) (ht : s.tree = none) {w : BitVec 6} (h1 : 1 ≤ w.toNat)
    (hw : w.toNat ≤ 32) : (effect (.hbuild w) s).Inv := by
  have hread : ReadOk { s with hwidth := w } := { (h.cursorsOk hs).readOk with }
  have hdata : State.DataOk { s with hwidth := w } :=
    { h.dataOk with trie := fun t hsome => nomatch ht.symm.trans hsome }
  have hframe := buildNode_frame (s.params.hufDepthMax + 1) 0 { s with hwidth := w }
  simp only [effect]
  cases hb : buildNode (s.params.hufDepthMax + 1) 0 { s with hwidth := w } with
  | raised k u =>
    have hu := buildNode_raised_readOk _ 0 _ k u hread hw (Nat.zero_le _) hb
    rw [hb] at hframe
    exact raiseError_inv (hdata.withCursors hframe hu) ..
  | done p u =>
    obtain ⟨t, n⟩ := p
    obtain ⟨hn, hmax, hdepth, hfits, hu⟩ := buildNode_done _ 0 _ t n u hread hw (Nat.zero_le _) hb
    rw [hb] at hframe
    rw [Nat.zero_add] at hn
    obtain ⟨-, -, -, -, -, -, -, hnodes, -, -⟩ := h.params
    have hinv := h.setTrie hs t (BitVec.ofNat 32 n) w {
      count := by rw [BitVec.toNat_ofNat, Nat.mod_eq_of_lt (hmax.trans_lt hnodes), hn]
      nodesLe := hn ▸ hmax
      depthLe := Nat.le_of_lt_succ hdepth
      fits := hfits
      widthPos := h1
      widthLe := hw }
    exact hinv.withCursors hs
      (congrArg (fun x : State => { x with tree := some t, hnodes := BitVec.ofNat 32 n }) hframe) { hu with }

/-! ### Session control -/

/-- The new session of `BEGIN` within the input memory (46_dispatch.md R232). -/
theorem newSession_inv {s : State} (h : s.Inv) (hlen : s.inLen.toNat ≤ s.params.inMax) : (newSession s).Inv where
  __ := h
  winWf := Memory.nil_wf _
  outLenLe := Nat.zero_le _
  usedLe := bits_le _
  cursors _ := ⟨Nat.zero_le _, hlen, Nat.le_refl _, Nat.two_pow_pos _⟩
  decoding hd := nomatch hd
  wptrIdle _ := rfl
  idle hi := nomatch hi
  trie _ ht := nomatch ht
  noTrie _ _ := ⟨rfl, rfl⟩
  record := iff_of_true rfl nofun
  noRecord _ := ⟨rfl, rfl, rfl, rfl⟩

/-- A new session's data, even where its one check fails (46_dispatch.md R232). -/
theorem newSession_dataOk {s : State} (h : s.Inv) : (newSession s).DataOk where
  __ := h
  winWf := Memory.nil_wf _
  outLenLe := Nat.zero_le _
  usedLe := bits_le _
  trie _ ht := nomatch ht

theorem startOk_iff {s : State} : s.startOk = true ↔
    ((1 ≤ s.cap.toNat ∧ s.cap.toNat ≤ s.params.winMax) ∧ s.prebuf.toNat ≤ s.cap.toNat) ∧
      s.declen.toNat ≤ s.params.outMax := by
  simp [State.startOk]

/-- `START` enters Decoding with what it checked and a filled ring (46_dispatch.md R233; 43_window.md R175). -/
theorem start_inv {s : State} (h : s.Inv) (hs : s.state = .headerPending) (hok : s.startOk = true) :
    State.Inv { winInit s with state := .decoding } := by
  obtain ⟨⟨⟨hcap, hmax⟩, hpre⟩, hdec⟩ := startOk_iff.1 hok
  have hptr : (BitVec.ofNat 24 (s.prebuf.toNat % s.cap.toNat)).toNat < s.cap.toNat :=
    (Nat.mod_le _ _).trans_lt (Nat.mod_lt _ hcap)
  have hrec : s.errKind = none := h.record.2 (by rw [hs]; decide)
  exact {
    h with
    winWf := Memory.nil_wf _
    cursors := fun _ => { h.cursorsOk (.inl hs) with }
    decoding := fun _ => ⟨hcap, hmax, hpre, hdec, hptr, rfl, nofun⟩
    wptrIdle := fun hi => by rcases hi with hi | hi <;> cases hi
    idle := fun hi => nomatch hi
    trie := fun t ht => { h.trie t ht with }
    noTrie := fun hn _ => h.noTrie hn (by rw [hs]; decide)
    record := iff_of_true hrec nofun }

theorem finish_inv {s : State} (h : s.Inv) (hs : s.state = .decoding) : State.Inv { s with state := .complete } where
  __ := h
  cursors hc := nomatch hc
  decoding hd := nomatch hd
  wptrIdle hi := by rcases hi with hi | hi <;> cases hi
  idle hi := nomatch hi
  trie t ht := { h.trie t ht with }
  noTrie hn _ := h.noTrie hn (by rw [hs]; decide)
  record := iff_of_true (h.record.2 (by rw [hs]; decide)) nofun

/-! ### Configuration -/

/-- The configuration that `START` checks may change outside Decoding. -/
theorem State.Inv.setWindowConfig {s : State} (h : s.Inv) (hs : s.state ≠ .decoding) (c p : Field24) (f : Byte)
    (n : Word) : State.Inv { s with cap := c, prebuf := p, fill := f, declen := n } where
  __ := h
  cursors hc := { h.cursors hc with }
  decoding hd := absurd hd hs
  trie t ht := { h.trie t ht with }

/-- A new unit starts exhausted in HeaderPending, and in a rest state no cursor is bounded by it (42_bit_reader.md R149). -/
theorem setBitConfig_inv {s : State} (h : s.Inv) (hs : s.state ≠ .decoding) (b : BitOrder) (y : ByteOrder)
    (u : RefillUnit) : (setBitConfig b y u s).Inv := by
  unfold setBitConfig
  split
  case isTrue hp =>
    exact {
      h with
      usedLe := bits_le _
      cursors := fun hc => { h.cursors hc with usedLe := Nat.le_refl _, bufLt := Nat.two_pow_pos _ }
      decoding := fun hd => absurd hd hs
      trie := fun t ht => { h.trie t ht with } }
  case isFalse hp =>
    have hrest : ¬ s.InSession := not_or.2 ⟨hp, hs⟩
    exact {
      h with
      cursors := fun hc => absurd ((isRest_iff s).2 hrest) (by simpa using hc)
      decoding := fun hd => absurd hd hs
      trie := fun t ht => { h.trie t ht with } }

/-! ### The state table, as the proofs use it (46_dispatch.md R238) -/

theorem inSession_of_allowedIn {o : Opcode} {s : State} (h : Opcode.allowedIn o s.state = true)
    (ho : o ∉ [.nop, .begin, .cfgwin, .cfgbits, .cfglen]) : s.InSession := by
  unfold State.InSession
  revert h ho
  cases o <;> cases s.state <;> decide

theorem headerPending_of_allowedIn {o : Opcode} {st : SessionState} (h : Opcode.allowedIn o st = true)
    (ho : o ∈ [.start, .magic, .seek]) : st = .headerPending := by
  revert h ho; cases o <;> cases st <;> decide

theorem decoding_of_allowedIn {o : Opcode} {st : SessionState} (h : Opcode.allowedIn o st = true)
    (ho : o ∈ [.finish, .liti, .litr, .litb, .copy]) : st = .decoding := by
  revert h ho; cases o <;> cases st <;> decide

theorem ne_decoding_of_allowedIn {o : Opcode} {st : SessionState} (h : Opcode.allowedIn o st = true)
    (ho : o ∈ [.cfgwin, .cfgbits, .cfglen]) : st ≠ .decoding := by
  revert h ho; cases o <;> cases st <;> decide

/-! ### Executing a word -/

/-- A word that is no command legal in this state is the illegal command of its own opcode (60_exceptions.md R264, R265). -/
theorem execWord_of_illegal {w : CmdWord} {s : State} (h : ∀ i, decode w = .ok i → legal i s = false) :
    execWord w s = .next (illegalCommand (opcField w) s) := by
  cases hd : decode w with
  | ok i =>
    have hopc : opcField w = i.op.code := ((matches_iff w i.op).1 (decode_eq_ok.1 hd).1).1
    rw [execWord_ok hd, exec_of_illegal (h i hd), hopc]
  | error e => exact execWord_error hd s

/-- What executing a word can do: the effect of a legal command, or the illegal command. -/
theorem execWord_cases {w : CmdWord} {s t : State} (h : execWord w s = .next t) :
    (∃ i, decode w = .ok i ∧ legal i s = true ∧ t = effect i s) ∨
    ((∀ i, decode w = .ok i → legal i s = false) ∧ t = illegalCommand (opcField w) s) := by
  by_cases hl : ∃ i, decode w = .ok i ∧ legal i s = true
  · obtain ⟨i, hd, hl⟩ := hl
    rw [execWord_ok hd, exec_of_legal hl] at h
    cases h
    exact .inl ⟨i, hd, hl, rfl⟩
  · have hill : ∀ i, decode w = .ok i → legal i s = false := fun i hd => by simpa using fun hl' => hl ⟨i, hd, hl'⟩
    rw [execWord_of_illegal hill] at h
    cases h
    exact .inr ⟨hill, rfl⟩

/-! ### Every step -/

/-- A legal command keeps the invariant. -/
theorem effect_inv {i : Instr} {s : State} (h : s.Inv) (hl : legal i s = true) : (effect i s).Inv := by
  obtain ⟨hv, hst, htree⟩ := (legal_iff i s).1 hl
  have session := inSession_of_allowedIn hst
  have decoding := decoding_of_allowedIn hst
  have config := ne_decoding_of_allowedIn hst
  have read : s.InSession → ReadOk s := fun hs => (h.cursorsOk hs).readOk
  have failed : ∀ o k d, (raiseError (Opcode.code o) s k d s).Inv := fun _ _ _ => raiseError_inv h.dataOk ..
  cases i with
  | nop => exact h
  | begin =>
    simp only [effect]; split
    · exact newSession_inv h ‹_›
    · exact raiseError_inv (newSession_dataOk h) ..
  | start =>
    simp only [effect]; split
    · exact start_inv h (headerPending_of_allowedIn hst (by simp [Instr.op])) ‹_›
    · exact failed ..
  | finish => exact finish_inv h (decoding (by simp [Instr.op]))
  | fail kind diag =>
    simp only [effect]; split
    · exact failed ..
    · exact illegalCommand_inv h _
  | cfgwin cap prebuf fill => exact h.setWindowConfig (config (by simp [Instr.op])) cap prebuf fill s.declen
  | cfglen n => exact h.setWindowConfig (config (by simp [Instr.op])) s.cap s.prebuf s.fill n
  | cfgbits b y c =>
    simp only [effect]; split
    · exact setBitConfig_inv h (config (by simp [Instr.op])) ..
    · exact illegalCommand_inv h _
  | rdbytes n =>
    have hs := session (by simp [Instr.op])
    simp only [effect]; split
    · exact (h.advance hs ‹_›).setRes hs _
    · exact failed ..
  | magic n value =>
    have hs := session (by simp [Instr.op])
    simp only [effect]; split
    · split
      · exact h.advance hs ‹_›
      · exact failed ..
    · exact failed ..
  | seek pos =>
    have hs := session (by simp [Instr.op])
    simp only [effect]; split
    · exact h.withCursors hs rfl { exhaust_readOk (read hs) with inPosLe := ‹_› }
    · exact failed ..
  | getbit =>
    have hs := session (by simp [Instr.op])
    exact conclude_setRes_inv h hs _ (readBit_frame s) (readBit_readOk (read hs)) _
  | getbits count =>
    have hs := session (by simp [Instr.op])
    exact conclude_setRes_inv h hs _ (readBits_frame _ s) (readBits_readOk (read hs) hv) id
  | align => exact h.exhaust (session (by simp [Instr.op]))
  | getbyte =>
    have hs := session (by simp [Instr.op])
    simp only [effect]; split
    · exact ((h.exhaust hs).advance hs ‹_›).setRes hs _
    · exact raiseError_inv (h.exhaust hs).dataOk ..
  | liti b =>
    simp only [effect]; split
    · exact emit_inv h (decoding (by simp [Instr.op])) ‹_› b
    · exact failed ..
  | litr =>
    simp only [effect]; split
    · exact emit_inv h (decoding (by simp [Instr.op])) ‹_› _
    · exact failed ..
  | litb =>
    have hs := session (by simp [Instr.op])
    simp only [effect]; split
    · split
      · exact emit_inv ((h.advance hs ‹_›).setRes hs _) (decoding (by simp [Instr.op])) ‹_› _
      · exact failed ..
    · exact failed ..
  | copy d len =>
    simp only [effect]; split
    · split
      · exact copyBytes_inv _ _ s h (decoding (by simp [Instr.op])) ‹_›
      · exact failed ..
    · exact failed ..
  | hbuild w => exact hbuild_inv h (session (by simp [Instr.op])) (Option.isNone_iff_eq_none.1 htree) hv.1 hv.2
  | hwalk =>
    have hs := session (by simp [Instr.op])
    simp only [effect]; split
    · exact conclude_setRes_inv h hs _ (walk_frame _ s) (walk_readOk _ s (read hs)) id
    · exact illegalCommand_inv h _

theorem execWord_inv {w : CmdWord} {s t : State} (h : s.Inv) (ht : execWord w s = .next t) : t.Inv := by
  rcases execWord_cases ht with ⟨i, -, hl, rfl⟩ | ⟨-, rfl⟩
  · exact effect_inv h hl
  · exact illegalCommand_inv h _

/-- Settles O23: a step is one of few cases, and a legal command keeps the invariant by the state it is legal in. -/
theorem everyStepKeepsInv : Obligations.EveryStepKeepsInv := by
  intro s s' h hstep
  rcases step_cases hstep with ⟨-, rfl⟩ | ⟨e, rest, -, hcase⟩
  · exact h
  have hrest : State.Inv { s with bus := rest } := h.hostFields s.cmdA s.ign rest s.rdata
  rcases hcase with rfl | ⟨v, rfl⟩ | ⟨-, rfl⟩ | ⟨v, rfl⟩ | ⟨v, hs, rfl⟩ | ⟨k, v, -, -, rfl⟩ | ⟨v, -, hexec⟩
  · exact hrest
  · exact h.hostFields s.cmdA s.ign rest v
  · exact platformReset_inv h.params
  · exact h.hostFields v s.ign rest s.rdata
  · exact hrest.setInLen hs v
  · exact storeWord_inv hrest k v
  · exact execWord_inv hrest hexec

/-- Settles O22: the reset state, field by field. -/
theorem invHoldsAtReset : Obligations.InvHoldsAtReset := reset_inv

end Sys2Proof.Machine
end

section
/-! PROOF. What each command may write: its footprint, and the statements about who writes which element. -/

namespace Sys2Proof.Machine

/-- `s` with the elements that command `i` may write, besides `STATE` and the error record, taken from `t`. -/
def written : Instr → State → State → State
  | .nop, s, _ | .finish, s, _ | .fail _ _, s, _ => s
  | .begin, s, t =>
    { s with
      inPos := t.inPos
      buf := t.buf
      used := t.used
      outLen := t.outLen
      wptr := t.wptr
      win := t.win
      winFill := t.winFill
      winStamp := t.winStamp
      tree := t.tree
      hnodes := t.hnodes
      hwidth := t.hwidth
      res := t.res
      ign := t.ign }
  | .start, s, t => { s with win := t.win, winFill := t.winFill, wptr := t.wptr }
  | .cfgwin _ _ _, s, t => { s with cap := t.cap, prebuf := t.prebuf, fill := t.fill }
  | .cfgbits _ _ _, s, t =>
    { s with bitOrd := t.bitOrd, byteOrd := t.byteOrd, unit := t.unit, used := t.used, buf := t.buf }
  | .cfglen _, s, t => { s with declen := t.declen }
  | .rdbytes _, s, t | .getbit, s, t | .getbits _, s, t | .getbyte, s, t | .hwalk, s, t =>
    { s with inPos := t.inPos, buf := t.buf, used := t.used, res := t.res }
  | .magic _ _, s, t | .seek _, s, t | .align, s, t => { s with inPos := t.inPos, buf := t.buf, used := t.used }
  | .liti _, s, t | .litr, s, t | .copy _ _, s, t =>
    { s with win := t.win, wptr := t.wptr, outMem := t.outMem, outLen := t.outLen }
  | .litb, s, t =>
    { s with win := t.win, wptr := t.wptr, outMem := t.outMem, outLen := t.outLen, inPos := t.inPos, res := t.res }
  | .hbuild _, s, t =>
    { s with
      inPos := t.inPos, buf := t.buf, used := t.used, tree := t.tree, hnodes := t.hnodes, hwidth := t.hwidth }

/-- `t` differs from `u` at most in `STATE` and the error record. -/
abbrev RecordOnly (u t : State) : Prop :=
  t = { u with
    state := t.state
    errKind := t.errKind
    errOpc := t.errOpc
    errDisp := t.errDisp
    errOutLen := t.errOutLen
    errInPos := t.errInPos }

/-- `t` differs from `u` at most in `IGN`, `STATE` and the error record. -/
abbrev ControlOnly (u t : State) : Prop := RecordOnly { u with ign := t.ign } t

theorem illegalCommand_controlOnly (opc : Byte) (s : State) : ControlOnly s (illegalCommand opc s) := by
  unfold illegalCommand; split <;> rfl

theorem failKind_of_legal {kind : BitVec 3} (h : 1 ≤ kind.toNat ∧ kind.toNat ≤ 4) : failKind kind ≠ none := by
  revert kind; decide

theorem ofUcode_of_legal {c : BitVec 2} (h : c.toNat ≤ 2) : RefillUnit.ofUcode c ≠ none := by
  revert c; decide

/-- A command that reads and then writes `RES`, or raises out of the read, writes nothing else. -/
theorem conclude_setRes_recordOnly {α : Type} {s t : State} {o : Opcode} {r : Attempt α} {value : α → Word}
    (ht : t = conclude o s r fun v u => u.setRes (value v)) (hf : CursorOnly s r.final) :
    RecordOnly { s with inPos := t.inPos, buf := t.buf, used := t.used, res := t.res } t := by
  subst ht
  cases r with
  | done _ u | raised _ u => change u = _ at hf; simp only [conclude]; rw [hf]; rfl

/-- Each legal command keeps to its footprint. -/
theorem effect_recordOnly {i : Instr} {s : State} (hl : legal i s = true) :
    RecordOnly (written i s (effect i s)) (effect i s) := by
  obtain ⟨hv, -, htree⟩ := (legal_iff i s).1 hl
  cases i with
  | nop => rfl
  | finish => rfl
  | align => rfl
  | cfgwin _ _ _ => rfl
  | cfglen _ => rfl
  | begin => simp only [effect]; split <;> rfl
  | start => simp only [effect]; split <;> rfl
  | fail kind _ =>
    simp only [effect]; split
    · rfl
    · exact absurd ‹_› (failKind_of_legal hv)
  | cfgbits _ _ c =>
    simp only [effect]; split
    · unfold setBitConfig; split <;> rfl
    · exact absurd ‹_› (ofUcode_of_legal hv)
  | rdbytes _ => simp only [effect]; split <;> rfl
  | magic _ _ =>
    simp only [effect]; split
    · split <;> rfl
    · rfl
  | seek _ => simp only [effect]; split <;> rfl
  | getbyte => simp only [effect]; split <;> rfl
  | liti _ => simp only [effect]; split <;> rfl
  | litr => simp only [effect]; split <;> rfl
  | litb =>
    simp only [effect]; split
    · split <;> rfl
    · rfl
  | copy _ _ =>
    simp only [effect]; split
    · split
      · rw [copyBytes_frame]; rfl
      · rfl
    · rfl
  | getbit => exact conclude_setRes_recordOnly rfl (readBit_frame s)
  | getbits c => exact conclude_setRes_recordOnly (value := id) rfl (readBits_frame c.toNat s)
  | hbuild w =>
    have hf := buildNode_frame (s.params.hufDepthMax + 1) 0 { s with hwidth := w }
    simp only [effect]
    cases hb : buildNode (s.params.hufDepthMax + 1) 0 { s with hwidth := w } with
    | done _ u | raised _ u => rw [hb] at hf; change u = _ at hf; simp only [conclude]; rw [hf]; rfl
  | hwalk =>
    simp only [effect]; split
    · exact conclude_setRes_recordOnly (value := id) rfl (walk_frame _ s)
    · rename_i hnone
      simp [Opcode.trieOk, Instr.op, hnone] at htree

/-- Executing a command, whatever its outcome, changes at most its footprint, `IGN`, `STATE` and the error record. -/
theorem exec_controlOnly {i : Instr} {s t : State} (h : exec i s = .next t) : ControlOnly (written i s t) t := by
  rcases exec_cases h with ⟨hl, rfl⟩ | ⟨-, rfl⟩
  · rw [effect_recordOnly hl]
    cases i <;> rfl
  · rw [illegalCommand_controlOnly]
    cases i <;> rfl

theorem legal_begin (s : State) : legal .begin s = true := rfl

theorem effect_begin_ign_res (s : State) : (effect .begin s).ign = false ∧ (effect .begin s).res = 0 := by
  simp only [effect]; split <;> exact ⟨rfl, rfl⟩

/-! ### What the footprints leave out -/

section
variable (i : Instr) (s t : State)

@[simp] theorem written_cmdA : (written i s t).cmdA = s.cmdA := by cases i <;> rfl
@[simp] theorem written_inMem : (written i s t).inMem = s.inMem := by cases i <;> rfl
@[simp] theorem written_inLen : (written i s t).inLen = s.inLen := by cases i <;> rfl
@[simp] theorem written_params : (written i s t).params = s.params := by cases i <;> rfl
@[simp] theorem written_memStamp : (written i s t).memStamp = s.memStamp := by cases i <;> rfl
@[simp] theorem written_bus : (written i s t).bus = s.bus := by cases i <;> rfl
@[simp] theorem written_rdata : (written i s t).rdata = s.rdata := by cases i <;> rfl

end

theorem written_ign {i : Instr} (h : i ≠ .begin) (s t : State) : (written i s t).ign = s.ign := by
  cases i with
  | begin => exact absurd rfl h
  | _ => rfl

theorem effect_ign {i : Instr} {s : State} (hl : legal i s = true) (h : i ≠ .begin) : (effect i s).ign = s.ign := by
  rw [effect_recordOnly hl]
  exact written_ign h s _

theorem written_res {i : Instr} (h : i.op ∉ [.rdbytes, .getbit, .getbits, .getbyte, .litb, .hwalk, .begin])
    (s t : State) : (written i s t).res = s.res := by
  revert h; cases i <;> simp [written, Instr.op]

theorem written_window {i : Instr} (h : i.op ≠ .cfgwin) (s t : State) :
    (written i s t).cap = s.cap ∧ (written i s t).prebuf = s.prebuf ∧ (written i s t).fill = s.fill := by
  cases i with
  | cfgwin => exact absurd rfl h
  | _ => exact ⟨rfl, rfl, rfl⟩

theorem written_bitConfig {i : Instr} (h : i.op ≠ .cfgbits) (s t : State) :
    (written i s t).bitOrd = s.bitOrd ∧ (written i s t).byteOrd = s.byteOrd ∧ (written i s t).unit = s.unit := by
  cases i with
  | cfgbits => exact absurd rfl h
  | _ => exact ⟨rfl, rfl, rfl⟩

theorem written_declen {i : Instr} (h : i.op ≠ .cfglen) (s t : State) : (written i s t).declen = s.declen := by
  cases i with
  | cfglen => exact absurd rfl h
  | _ => rfl

/-- Settles O27: no footprint holds an element of the host's own. -/
theorem commandsKeepHostOwnedState : Obligations.CommandsKeepHostOwnedState := by
  intro i s t h
  rw [exec_controlOnly h]
  simp

/-- Settles O26: `RES` is in seven footprints, and `BEGIN` sets it to 0 whether or not its check passes. -/
theorem onlySixCommandsAndBeginWriteRes : Obligations.OnlySixCommandsAndBeginWriteRes := by
  intro i s t h
  constructor
  · intro hi
    rw [exec_controlOnly h]
    exact written_res hi s t
  · rintro rfl
    rw [exec_of_legal (legal_begin s)] at h
    cases h
    exact (effect_begin_ign_res s).2

/-- A configuration command executed in Decoding is illegal (46_dispatch.md R238), so it configures nothing. -/
theorem exec_config_decoding {i : Instr} {s t : State} (h : exec i s = .next t) (hs : s.state = .decoding)
    (hi : i.op ∈ [.cfgwin, .cfgbits, .cfglen]) : ControlOnly s t := by
  rcases exec_cases h with ⟨hl, -⟩ | ⟨-, rfl⟩
  · exact absurd hs (ne_decoding_of_allowedIn ((legal_iff i s).1 hl).2.1 hi)
  · exact illegalCommand_controlOnly ..

/-- Settles O28: each configuration register is in one footprint, and in Decoding its command is illegal. -/
theorem configurationHasOneWriterEach : Obligations.ConfigurationHasOneWriterEach := by
  intro i s t h
  have hframe := exec_controlOnly h
  have writer : ∀ o ∈ [Opcode.cfgwin, .cfgbits, .cfglen], i.op ≠ o ∨ s.state = .decoding →
      i.op ≠ o ∨ ControlOnly s t := by
    rintro o ho (hne | hs)
    · exact .inl hne
    · by_cases hi : i.op = o
      · exact .inr (exec_config_decoding h hs (hi ▸ ho))
      · exact .inl hi
  refine ⟨fun hc => ?_, fun hc => ?_, fun hc => ?_⟩
  · rcases writer _ (by decide) hc with hi | hs
    · rw [hframe]; exact written_window hi s t
    · rw [hs]; exact ⟨rfl, rfl, rfl⟩
  · rcases writer _ (by decide) hc with hi | hs
    · rw [hframe]; exact written_bitConfig hi s t
    · rw [hs]; exact ⟨rfl, rfl, rfl⟩
  · rcases writer _ (by decide) hc with hi | hs
    · rw [hframe]; exact written_declen hi s t
    · rw [hs]

/-! ### `IGN` -/

@[simp] theorem storeLane_ign (k : Nat) (v : Word) (j : Nat) (s : State) : (storeLane k v j s).ign = s.ign := by
  unfold storeLane; split <;> rfl

@[simp] theorem storeWord_ign (k : Nat) (v : Word) (s : State) : (storeWord k v s).ign = s.ign := by simp [storeWord]

theorem illegalCommand_ign_session {s : State} (hs : s.InSession) (opc : Byte) :
    (illegalCommand opc s).ign = s.ign := by
  rw [illegalCommand_session hs, raiseError_ign]

theorem illegalCommand_ign_rest {s : State} (hs : ¬ s.InSession) (opc : Byte) :
    (illegalCommand opc s).ign = true := by
  rw [illegalCommand_rest hs]

/-- Everything a step can do to `IGN`: keep it, clear it by reset or `BEGIN`, or set it by an illegal word in a rest
state. -/
theorem step_ign_cases {s t : State} (h : step s = .next t) :
    t.ign = s.ign ∨
    (t.ign = false ∧ ((∃ rest, s.bus = .reset :: rest) ∨ ∃ w, Issues s w ∧ decode w = .ok .begin)) ∨
    (t.ign = true ∧ ¬ s.InSession ∧ ∃ w, Issues s w ∧ ∀ i, decode w = .ok i → legal i s = false) := by
  rcases step_cases h with ⟨-, rfl⟩ | ⟨e, rest, hbus, hcase⟩
  · exact .inl rfl
  rcases hcase with rfl | ⟨v, rfl⟩ | ⟨rfl, rfl⟩ | ⟨v, rfl⟩ | ⟨v, -, rfl⟩ | ⟨k, v, -, -, rfl⟩ | ⟨v, rfl, hexec⟩
  · exact .inl rfl
  · exact .inl rfl
  · exact .inr (.inl ⟨rfl, .inl ⟨rest, hbus⟩⟩)
  · exact .inl rfl
  · exact .inl rfl
  · exact .inl (storeWord_ign ..)
  have hissue : Issues s (v ++ s.cmdA) := ⟨v, rest, hbus, rfl⟩
  rcases execWord_cases hexec with ⟨i, hd, hl, rfl⟩ | ⟨hill, rfl⟩
  · by_cases hi : i = .begin
    · subst hi
      exact .inr (.inl ⟨(effect_begin_ign_res _).1, .inr ⟨_, hissue, hd⟩⟩)
    · exact .inl (effect_ign hl hi)
  · by_cases hs : s.InSession
    · exact .inl (illegalCommand_ign_session (s := { s with bus := rest }) hs _)
    · exact .inr (.inr ⟨illegalCommand_ign_rest (s := { s with bus := rest }) hs _, hs, _, hissue, hill⟩)

/-- Settles O25: by the three things a step can do to `IGN`, and by executing the issued word. -/
theorem ignIsStickyUntilBeginOrReset : Obligations.IgnIsStickyUntilBeginOrReset := by
  intro s t h
  have executes : ∀ w, Issues s w → ∃ rest, execWord w { s with bus := rest } = .next t := by
    rintro w ⟨v, rest, hbus, rfl⟩
    exact ⟨rest, step_cmdOp hbus ▸ h⟩
  refine ⟨fun h1 h0 => ?_, fun h0 h1 => ?_, fun w hw hs hill => ?_, fun w hw hd => ?_⟩
  · rcases step_ign_cases h with hk | ⟨-, hc⟩ | ⟨hset, -⟩
    · exact absurd (h0.symm.trans (hk.trans h1)) (by decide)
    · exact hc
    · exact absurd (h0.symm.trans hset) (by decide)
  · rcases step_ign_cases h with hk | ⟨hclear, -⟩ | ⟨-, hc⟩
    · exact absurd (h1.symm.trans (hk.trans h0)) (by decide)
    · exact absurd (h1.symm.trans hclear) (by decide)
    · exact hc
  · obtain ⟨rest, he⟩ := executes w hw
    rcases execWord_cases he with ⟨i, hd, hl, -⟩ | ⟨-, rfl⟩
    · exact absurd ((hill i hd).symm.trans hl) (by decide)
    · exact illegalCommand_ign_rest (s := { s with bus := rest }) hs _
  · obtain ⟨rest, he⟩ := executes w hw
    rw [execWord_ok hd, exec_of_legal (legal_begin _)] at he
    cases he
    exact (effect_begin_ign_res _).1

end Sys2Proof.Machine
end

section
/-! PROOF. What the host reads of the registers and the windows, and what it may store. -/

namespace Sys2Proof.Machine

/-! ### The register window -/

theorem accessOk_reg (r : Reg) : accessOk r.offset 32 = true := by cases r <;> rfl

/-- An aligned word read at a register's offset reads the register. -/
theorem hostRead_reg (s : State) (r : Reg) : hostRead s r.offset 32 = readReg s r := by
  simp only [hostRead, accessOk_reg, if_true, regionOf_reg.2 rfl]

theorem hostWrite_reg (r : Reg) (v : Word) (s : State) : hostWrite r.offset 32 v s = writeReg r v s := by
  simp only [hostWrite, accessOk_reg, if_true, regionOf_reg.2 rfl]

/-- A register outside the data path reads its value in every state (10_state.md R42). -/
theorem readReg_shown {r : Reg} (h : r.hiddenInFailed = false) (s : State) : readReg s r = regValue s r := by
  simp [readReg, h]

theorem readReg_live {s : State} (h : s.state ≠ .failed) (r : Reg) : readReg s r = regValue s r := by
  simp [readReg, h]

theorem readReg_hidden {s : State} {r : Reg} (h : r.hiddenInFailed = true) (hs : s.state = .failed) :
    readReg s r = 0 := by
  simp [readReg, h, hs]

/-- What the host reads of a register outside the data path. -/
theorem hostRead_shown (s : State) (r : Reg) (h : r.hiddenInFailed = false) :
    hostRead s r.offset 32 = regValue s r := (hostRead_reg s r).trans (readReg_shown h s)

theorem hostRead_live {s : State} (h : s.state ≠ .failed) (r : Reg) :
    hostRead s r.offset 32 = regValue s r := (hostRead_reg s r).trans (readReg_live h r)

/-! ### Reserved offsets -/

theorem ofOffset_eq_none {off : Nat} (h : ∀ r : Reg, off ≠ r.offset) : Reg.ofOffset off = none := by
  cases ho : Reg.ofOffset off with
  | none => rfl
  | some r => exact absurd (offset_of_ofOffset ho).symm (h r)

/-- Every offset outside the registers and the two windows is reserved (20_memory.md R61). -/
theorem regionOf_reserved {p : Params} {off : Nat} (hreg : ∀ r : Reg, off ≠ r.offset)
    (hin : ¬ (0x1000000 ≤ off ∧ off < 0x1000000 + p.inMax))
    (hout : ¬ (0x2000000 ≤ off ∧ off < 0x2000000 + p.outMax)) : regionOf p off = .reserved := by
  simp only [regionOf, if_neg hin, if_neg hout, ofOffset_eq_none hreg, ite_self]

/-- Settles O12: such an offset is reserved, where a read gives 0 and a write does nothing. -/
theorem reservedOffsetsReadZeroAndIgnoreWrites : Obligations.ReservedOffsetsReadZeroAndIgnoreWrites := by
  intro s off bits v hlist hin hout
  have hreg : ∀ r : Reg, off ≠ r.offset := by
    rintro r rfl
    revert hlist; cases r <;> decide
  have hres := regionOf_reserved hreg hin hout
  constructor
  · simp only [hostRead, hres, ite_self]
  · simp only [hostWrite, hres, ite_self]

/-! ### The windows -/

/-- Where a word of the OUT window's range lies, in a block the spec admits: the IN window ends below it. -/
theorem regionOf_outWindow {p : Params} (h : p.inMax ≤ 0x1000000) (k : Nat) :
    regionOf p (0x2000000 + 4 * k) = if 4 * k < p.outMax then .outWord k else .reserved := by
  rw [regionOf, if_neg (by omega), if_neg (by omega)]
  by_cases hk : 4 * k < p.outMax
  · rw [if_pos (by omega), if_pos hk]
    congr 1; omega
  · rw [if_neg (by omega), if_neg hk]

theorem outWindowByte_eq_zero {s : State} (h : s.state ≠ .complete) (i : Nat) : s.outWindowByte i = 0 :=
  if_neg fun hc => h hc.1

/-- Outside Complete every word of the OUT window reads 0 (20_memory.md R65). -/
theorem hostRead_outWindow_eq_zero {s : State} (hp : s.params.inMax ≤ 0x1000000) (h : s.state ≠ .complete) (k : Nat) :
    hostRead s (0x2000000 + 4 * k) 32 = 0 := by
  have hlanes : laneWord s.outWindowByte k = 0 := by
    simp only [laneWord, outWindowByte_eq_zero h]; decide
  have hok : accessOk (0x2000000 + 4 * k) 32 = true := by simp [accessOk]
  rw [hostRead, if_pos hok, regionOf_outWindow hp]
  by_cases hk : 4 * k < s.params.outMax
  · rw [if_pos hk]; exact hlanes
  · rw [if_neg hk]

/-! ### Stores -/

/-- Settles O16: both registers are stored by their write and lie outside the data path that Failed hides. -/
theorem writableRegistersStore : Obligations.WritableRegistersStore := by
  intro s v
  have hwrite : hostWrite 0x24 32 v s = .next (if s.state.isRest then { s with inLen := v } else s) :=
    hostWrite_reg .inLen v s
  refine ⟨hostWrite_reg .cmdA v s, hostRead_shown s .cmdA rfl, fun hs => ?_, fun hs => ?_, hostRead_shown s .inLen rfl⟩
  · rw [hwrite, if_pos ((isRest_iff s).2 hs)]
  · rw [hwrite, if_neg (mt (isRest_iff s).1 (not_not_intro hs))]

/-! ### Reset -/

/-- The registers that show the block's constants read alike in every state of the block (10_state.md R22, R40). -/
theorem readReg_constant {s t : State} (hp : t.params = s.params) {r : Reg}
    (hr : r = .id ∨ r = .pWinMax ∨ r = .pInMax ∨ r = .pOutMax ∨ r = .pHufNodesMax ∨ r = .pHufDepthMax) :
    readReg t r = readReg s r := by
  rcases hr with rfl | rfl | rfl | rfl | rfl | rfl <;> simp [readReg, Reg.hiddenInFailed, regValue, hp]

/-- Settles O9: the reset values of every element, and the constants that a reset event keeps. -/
theorem resetGivesTheResetValues : Obligations.ResetGivesTheResetValues := by
  refine ⟨by decide, fun s rest hbus => ⟨platformReset { s with bus := rest }, ?_, ?_, rfl, rfl, ?_⟩⟩
  · simp only [step, hbus, serve]
  · have : ResetValues State.reset := by decide
    exact this
  · exact fun r hr => readReg_constant (by rfl) hr

/-! ### The packed registers -/

theorem bcfg_fields {w : Word} {u : BitVec 2} {y b : Bool} (hw : w = 0#28 ++ u ++ BitVec.ofBool y ++ BitVec.ofBool b) :
    w.getLsbD 0 = b ∧ w.getLsbD 1 = y ∧ w.extractLsb' 2 2 = u ∧ w.extractLsb' 4 28 = 0 := by
  subst hw; revert u y b; decide

theorem two_pow_ucode (u : RefillUnit) : 2 ^ u.ucode.toNat = u.bytes := by cases u <;> rfl

theorem bitOrder_bit_eq_beq (b : BitOrder) : b.bit = (b == .lsbFirst) := by cases b <;> rfl

theorem byteOrder_bit_eq_beq (y : ByteOrder) : y.bit = (y == .big) := by cases y <;> rfl

/-- `BCFG` as the host reads it, field by field (10_state.md R39). -/
theorem hostRead_bcfg (s : State) :
    (hostRead s 0x40 32).getLsbD 0 = s.bitOrd.bit ∧ (hostRead s 0x40 32).getLsbD 1 = s.byteOrd.bit ∧
    (hostRead s 0x40 32).extractLsb' 2 2 = s.unit.ucode ∧ (hostRead s 0x40 32).extractLsb' 4 28 = 0 :=
  bcfg_fields (hostRead_shown s .bcfg rfl)

/-- Settles O18: the packed fields of `BCFG` and what their codes stand for. -/
theorem bcfgShowsTheBitReaderConfiguration : Obligations.BcfgShowsTheBitReaderConfiguration := by
  intro s
  obtain ⟨hbit, hbyte, hunit, hzero⟩ := hostRead_bcfg s
  refine ⟨?_, ?_, ?_, hzero⟩
  · rw [hbit, bitOrder_bit_eq_beq, beq_iff_eq]
  · rw [hbyte, byteOrder_bit_eq_beq, beq_iff_eq]
  · rw [hunit, two_pow_ucode]

theorem status_fields {w : Word} {t g l : Bool} {c : BitVec 3}
    (hw : w = 0#26 ++ BitVec.ofBool t ++ BitVec.ofBool g ++ BitVec.ofBool l ++ c) :
    w.extractLsb' 0 3 = c ∧ w.getLsbD 3 = l ∧ w.getLsbD 4 = g ∧ w.getLsbD 5 = t ∧ w.extractLsb' 6 26 = 0 := by
  subst hw; revert t g l c; decide

/-- `STATUS` as the host reads it, field by field (10_state.md R23). -/
theorem hostRead_status (s : State) :
    (hostRead s 0x04 32).extractLsb' 0 3 = s.state.code ∧ (hostRead s 0x04 32).getLsbD 3 = s.lenReached ∧
    (hostRead s 0x04 32).getLsbD 4 = s.ign ∧ (hostRead s 0x04 32).getLsbD 5 = s.trieBit ∧
    (hostRead s 0x04 32).extractLsb' 6 26 = 0 :=
  status_fields (hostRead_shown s .status rfl)

theorem lenReached_eq_true {s : State} : s.lenReached = true ↔
    (s.state = .decoding ∨ s.state = .complete) ∧ s.declen.toNat ≤ s.outLen.toNat := by
  simp [State.lenReached]

theorem trieBit_eq_true {s : State} : s.trieBit = true ↔ s.tree ≠ none ∧ s.state ≠ .failed := by
  simp [State.trieBit, Option.isSome_iff_ne_none]

/-- Settles O19: the packed fields of `STATUS` and what the derived ones mean. -/
theorem statusShowsItsFields : Obligations.StatusShowsItsFields := by
  intro s
  obtain ⟨hstate, hlen, hign, htrie, hzero⟩ := hostRead_status s
  refine ⟨?_, ?_, hign, ?_, hzero⟩
  · rw [hstate]; cases s.state <;> rfl
  · rw [hlen, lenReached_eq_true]
  · rw [htrie, trieBit_eq_true]

/-! ### Every register -/

/-- A field under leading zeros. -/
theorem zeros_append_field (v : Field24) : 0#8 ++ v = v.setWidth 32 :=
  (BitVec.setWidth_eq_append (x := v) (by decide)).symm

theorem errInfo_fields {w : Word} {opc kind : Byte} (hw : w = 0#16 ++ opc ++ kind) :
    w.extractLsb' 0 8 = kind ∧ w.extractLsb' 8 8 = opc ∧ w.extractLsb' 16 16 = 0 := by
  subst hw
  refine ⟨BitVec.extractLsb'_append_eq_right, ?_, ?_⟩
  · rw [BitVec.extractLsb'_append_eq_of_le (by decide)]
    exact BitVec.extractLsb'_append_eq_right
  · rw [BitVec.extractLsb'_append_eq_of_le (by decide)]
    exact BitVec.extractLsb'_append_eq_left

/-- `ERR_INFO` as the host reads it, field by field (10_state.md R31). -/
theorem hostRead_errInfo (s : State) :
    (hostRead s 0x14 32).extractLsb' 0 8 = errKindCode s.errKind ∧ (hostRead s 0x14 32).extractLsb' 8 8 = s.errOpc ∧
    (hostRead s 0x14 32).extractLsb' 16 16 = 0 :=
  errInfo_fields (hostRead_shown s .errInfo rfl)

theorem remain_of_le {s : State} (h : s.inPos.toNat ≤ s.inLen.toNat) : s.remain = s.inLen - s.inPos := by
  rw [State.remain, if_pos h]
  have := s.inLen.isLt
  apply BitVec.eq_of_toNat_eq
  rw [BitVec.toNat_sub_of_le h, BitVec.toNat_ofNat, Nat.mod_eq_of_lt (by omega)]

/-- Settles O17: each register's value, by the invariant where the register shows less than the element holds. -/
theorem registersReadTheirState : Obligations.RegistersReadTheirState := by
  intro s h hs
  obtain ⟨_, hwin, _, hin, _, hout, _, hnodes, _, hdepth⟩ := h.params
  have hnone := h.record.2 hs
  obtain ⟨hopc, hdisp, houtlen, hinpos⟩ := h.noRecord hnone
  have live := hostRead_live hs
  have constant : ∀ {n : Nat}, n < 2 ^ 32 → (BitVec.ofNat 32 n).toNat = n := fun hn => Nat.mod_eq_of_lt hn
  have hinfo : regValue s .errInfo = 0 := by
    simp only [regValue, hopc, hnone]; rfl
  have hptr : regValue s .wptr = s.wptr.setWidth 32 := by
    simp only [regValue]
    split
    · rw [h.wptrIdle ‹_›]; rfl
    · exact zeros_append_field _
  have hused : (regValue s .bstate).toNat = s.used := by
    have := h.usedLe
    simp only [regValue, BitVec.toNat_setWidth, BitVec.toNat_ofNat]
    omega
  have hcount : regValue s .hnodes = s.hnodes := by
    simp only [regValue]
    split
    · exact (h.noTrie ‹_› hs).1.symm
    · rfl
  have hwidth : regValue s .hwidth = s.hwidth.setWidth 32 := by
    simp only [regValue]
    split
    · rw [(h.noTrie ‹_› hs).2]; rfl
    · rfl
  exact ⟨live .id, live .cmdOp, live .res, (live .errInfo).trans hinfo, (live .errDisp).trans hdisp,
    (live .errOutLen).trans houtlen, (live .errInPos).trans hinpos, live .inPos,
    fun hle => (live .remain).trans (remain_of_le hle), live .outLen, live .declen,
    (live .wcap).trans (zeros_append_field _), live .wpre, (live .wptr).trans hptr,
    (congrArg BitVec.toNat (live .bstate)).trans hused, live .buf, (live .hnodes).trans hcount,
    (live .hwidth).trans hwidth,
    (congrArg BitVec.toNat (live .pWinMax)).trans (constant (by omega)),
    (congrArg BitVec.toNat (live .pInMax)).trans (constant (by omega)),
    (congrArg BitVec.toNat (live .pOutMax)).trans (constant (by omega)),
    (congrArg BitVec.toNat (live .pHufNodesMax)).trans (constant hnodes),
    (congrArg BitVec.toNat (live .pHufDepthMax)).trans (constant hdepth)⟩

/-- Settles O20: Failed hides the data path and the OUT window, and shows the record and the configuration. -/
theorem failedHidesTheDataPath : Obligations.FailedHidesTheDataPath := by
  intro s hp hs
  obtain ⟨-, -, -, hin, -⟩ := hp
  have hidden : ∀ r : Reg, r.hiddenInFailed = true → hostRead s r.offset 32 = 0 := fun r hr =>
    (hostRead_reg s r).trans (readReg_hidden hr hs)
  obtain ⟨-, hlen, -, htrie, -⟩ := hostRead_status s
  obtain ⟨hkind, hopc, hzero⟩ := hostRead_errInfo s
  refine ⟨?_, ?_, ?_, fun k _ => hostRead_outWindow_eq_zero hin (by rw [hs]; decide) k, ?_, hopc, hzero,
    hostRead_shown s .errDisp rfl, hostRead_shown s .errOutLen rfl, hostRead_shown s .errInPos rfl,
    hostRead_shown s .inLen rfl, hostRead_shown s .declen rfl, ?_, hostRead_shown s .wpre rfl, ?_⟩
  · simp only [List.forall_mem_cons]
    exact ⟨hidden .res rfl, hidden .inPos rfl, hidden .remain rfl, hidden .outLen rfl, hidden .wptr rfl,
      hidden .bstate rfl, hidden .buf rfl, hidden .hnodes rfl, hidden .hwidth rfl, nofun⟩
  · rw [hlen]; simp [State.lenReached, hs]
  · rw [htrie]; simp [State.trieBit, hs]
  · rw [hkind]; rcases s.errKind with _ | k
    · rfl
    · cases k <;> rfl
  · exact (hostRead_shown s .wcap rfl).trans (zeros_append_field _)
  · rw [← byteOrder_bit_eq_beq, ← bitOrder_bit_eq_beq]
    exact hostRead_shown s .bcfg rfl

end Sys2Proof.Machine
end

section
/-! PROOF. The two windows word by word, and what the host's accesses can do. -/

namespace Sys2Proof.Machine

/-! ### Accesses -/

/-- Words above an aligned base are aligned (20_memory.md R62). -/
theorem accessOk_word {base : Nat} (h : base % 4 = 0) (k : Nat) : accessOk (base + 4 * k) 32 = true :=
  decide_eq_true ⟨by omega, rfl⟩

theorem accessOk_eq_false {off bits : Nat} (h : off % 4 ≠ 0 ∨ bits ≠ 32) : accessOk off bits = false :=
  decide_eq_false fun hok => h.elim (absurd hok.1) (absurd hok.2)

/-- Settles O11: neither the read nor the write gets past the check of the access. -/
theorem misalignedAccessesHaveNoEffect : Obligations.MisalignedAccessesHaveNoEffect := by
  intro s off bits h
  have hbad : ¬ accessOk off bits = true := by rw [accessOk_eq_false h]; exact Bool.false_ne_true
  exact ⟨if_neg hbad, fun v => if_neg hbad⟩

/-- A step whose event reads the block latches the word read (20_memory.md R68; log 2). -/
theorem step_read {s : State} {off bits : Nat} {rest : List HostEvent} (hoff : off < 2 ^ 26)
    (h : s.bus = .read (s.params.swdBase + off) bits :: rest) :
    step s = .next { s with bus := rest, rdata := hostRead s off bits } := by
  simp only [step, h, serve, localOffset_base hoff]
  rfl

/-- A step whose event writes the block is `hostWrite`. -/
theorem step_write {s : State} {off bits : Nat} {v : Word} {rest : List HostEvent} (hoff : off < 2 ^ 26)
    (h : s.bus = .write (s.params.swdBase + off) bits v :: rest) :
    step s = hostWrite off bits v { s with bus := rest } := by
  simp only [step, h, serve, localOffset_base hoff]

/-- Outside `CMD_A`, `CMD_OP`, `IN_LEN` and the IN window a host write has no effect (20_memory.md R68). -/
theorem hostWrite_elsewhere {s : State} {off : Nat} (hcmdA : off ≠ 0x08) (hcmdOp : off ≠ 0x0C) (hinLen : off ≠ 0x24)
    (hwin : ¬ (0x1000000 ≤ off ∧ off < 0x1000000 + s.params.inMax)) (bits : Nat) (v : Word) :
    hostWrite off bits v s = .next s := by
  rcases hostWrite_cases off bits v s with hnone | ⟨hoff, -⟩ | ⟨hoff, -⟩ | ⟨hoff, -⟩ | ⟨k, hoff, hk, -⟩
  · exact hnone
  · exact absurd hoff hcmdA
  · exact absurd hoff hcmdOp
  · exact absurd hoff hinLen
  · exact absurd (by omega) hwin

/-- Settles O10: a step serves the access at its local offset, and the effects of a write are `hostWrite_cases`. -/
theorem onlyFourKindsOfAccessHaveEffects : Obligations.OnlyFourKindsOfAccessHaveEffects := by
  refine ⟨fun s off bits rest hoff hbus => step_read hoff hbus,
    fun s off bits v rest hoff hbus => step_write hoff hbus,
    fun s off bits v rest hoff hbus hcmdA hcmdOp hinLen hwin => ?_⟩
  rw [step_write hoff hbus]
  exact hostWrite_elsewhere (s := { s with bus := rest }) hcmdA hcmdOp hinLen hwin bits v

/-! ### The words of the windows -/

/-- Where a word of the IN window's range lies: the OUT window begins above it. -/
theorem regionOf_inWindow {k : Nat} (h : 4 * k < 0x1000000) (p : Params) :
    regionOf p (0x1000000 + 4 * k) = if 4 * k < p.inMax then .inWord k else .reserved := by
  rw [regionOf, if_neg (by omega)]
  by_cases hk : 4 * k < p.inMax
  · rw [if_pos (by omega), if_pos hk]
    congr 1; omega
  · rw [if_neg (by omega), if_neg (by omega), if_neg hk]

/-- Lane `j` of a bus word is byte `4k + j` (20_memory.md R62). -/
theorem laneWord_lane (byteAt : Nat → Byte) (k : Nat) {j : Nat} (h : j < 4) :
    (laneWord byteAt k).extractLsb' (8 * j) 8 = byteAt (4 * k + j) := by
  have upper : ∀ {n m : Nat} (x : BitVec n) (b : Byte), (x ++ b).extractLsb' (8 + m) 8 = x.extractLsb' m 8 := by
    intro n m x b
    rw [BitVec.extractLsb'_append_eq_of_le (by omega), Nat.add_sub_cancel_left]
  match j with
  | 0 => exact BitVec.extractLsb'_append_eq_right
  | 1 => exact (upper (m := 0) ..).trans BitVec.extractLsb'_append_eq_right
  | 2 => exact (upper (m := 8) ..).trans ((upper (m := 0) ..).trans BitVec.extractLsb'_append_eq_right)
  | 3 => exact (upper (m := 16) ..).trans ((upper (m := 8) ..).trans BitVec.extractLsb'_append_eq_left)

/-- The word read past `IN_MAX` is a reserved one, whose 0 is also what `inWindowByte` gives there (20_memory.md R64). -/
theorem hostRead_inWindow_lane (s : State) {k j : Nat} (hk : 4 * k < 0x1000000) (hj : j < 4) :
    (hostRead s (0x1000000 + 4 * k) 32).extractLsb' (8 * j) 8 = s.inWindowByte (4 * k + j) := by
  rw [hostRead, if_pos (accessOk_word rfl k), regionOf_inWindow hk]
  by_cases hin : 4 * k < s.params.inMax
  · rw [if_pos hin]
    exact laneWord_lane _ _ hj
  · rw [if_neg hin, State.inWindowByte, if_neg (by omega)]
    exact BitVec.extractLsb'_zero

/-- Settles O14: the lane read is what `inWindowByte` says. -/
theorem inWindowReadReturnsItsLanes : Obligations.InWindowReadReturnsItsLanes :=
  fun s _ _ hk hj => hostRead_inWindow_lane s hk hj

theorem hostRead_outWindow_lane {s : State} (hp : s.params.inMax ≤ 0x1000000) (k : Nat) {j : Nat} (hj : j < 4) :
    (hostRead s (0x2000000 + 4 * k) 32).extractLsb' (8 * j) 8 = s.outWindowByte (4 * k + j) := by
  rw [hostRead, if_pos (accessOk_word rfl k), regionOf_outWindow hp]
  by_cases hout : 4 * k < s.params.outMax
  · rw [if_pos hout]
    exact laneWord_lane _ _ hj
  · rw [if_neg hout, State.outWindowByte, if_neg (by omega)]
    exact BitVec.extractLsb'_zero

/-- `OUTLEN` alone bounds the bytes shown where it does not exceed `OUT_MAX`. -/
theorem outWindowByte_of_outLen_le {s : State} (h : s.outLen.toNat ≤ s.params.outMax) (i : Nat) :
    s.outWindowByte i = if s.state = .complete ∧ i < s.outLen.toNat then s.outByte i else 0 :=
  if_congr (and_congr_right fun _ => ⟨fun hi => hi.1, fun hi => ⟨hi, by omega⟩⟩) rfl rfl

/-- Settles O15: the lane read is what `outWindowByte` says, and the OUT window is none of the places a write affects. -/
theorem outWindowShowsOnlyCompletedOutput : Obligations.OutWindowShowsOnlyCompletedOutput := by
  intro s k j v h _ hj
  obtain ⟨-, -, -, hin, -⟩ := h.params
  constructor
  · rw [hostRead_outWindow_lane hin k hj, outWindowByte_of_outLen_le h.outLenLe]
  · exact hostWrite_elsewhere (by omega) (by omega) (by omega) (by omega) 32 v

/-! ### Storing in the IN window -/

theorem storeLane_frame (k : Nat) (v : Word) (j : Nat) (s : State) :
    storeLane k v j s = { s with inMem := (storeLane k v j s).inMem } := by
  unfold storeLane; split <;> rfl

@[simp] theorem storeLane_params (k : Nat) (v : Word) (j : Nat) (s : State) :
    (storeLane k v j s).params = s.params := by
  rw [storeLane_frame]

theorem storeWord_frame (k : Nat) (v : Word) (s : State) :
    storeWord k v s = { s with inMem := (storeWord k v s).inMem } := by
  have frame := storeLane_frame k v
  unfold storeWord
  rw [frame 3, frame 2, frame 1, frame 0]

/-- Reading `IN` after one lane is stored. -/
theorem inByte_storeLane {s : State} (h : s.inMem.wf none) (k : Nat) (v : Word) (j i : Nat) :
    (storeLane k v j s).inByte i =
      if i = 4 * k + j ∧ i < s.params.inMax then laneByte v j else s.inByte i := by
  unfold storeLane
  split
  case isTrue hlt =>
    rw [inByte_write s _ _ i h]
    exact if_congr (iff_self_and.2 fun hi => hi ▸ hlt) rfl rfl
  case isFalse hge =>
    exact (if_neg fun ⟨hi, hlt⟩ => hge (hi ▸ hlt)).symm

/-- Reading `IN` after a word is stored: its four lanes below `IN_MAX`, every other byte as before (20_memory.md R63). -/
theorem inByte_storeWord {s : State} (h : s.Inv) (k : Nat) (v : Word) (i : Nat) :
    (storeWord k v s).inByte i =
      if (4 * k ≤ i ∧ i < 4 * k + 4) ∧ i < s.params.inMax then laneByte v (i - 4 * k) else s.inByte i := by
  have h1 := storeLane_inv h k v 0
  have h2 := storeLane_inv h1 k v 1
  have h3 := storeLane_inv h2 k v 2
  rw [storeWord, inByte_storeLane h3.inWf.1, inByte_storeLane h2.inWf.1, inByte_storeLane h1.inWf.1,
    inByte_storeLane h.inWf.1]
  simp only [storeLane_params]
  by_cases hi : i < s.params.inMax
  · by_cases hlane : 4 * k ≤ i ∧ i < 4 * k + 4
    · obtain ⟨j, hj, rfl⟩ : ∃ j, j < 4 ∧ i = 4 * k + j := ⟨i - 4 * k, by omega, by omega⟩
      simp only [hi, hlane, and_self, and_true, if_true, Nat.add_sub_cancel_left, Nat.add_left_cancel_iff]
      match j, hj with
      | 0, _ | 1, _ | 2, _ | 3, _ => rfl
    · rw [if_neg (by omega), if_neg (by omega), if_neg (by omega), if_neg (by omega), if_neg (by omega)]
  · simp only [hi, and_false, if_false]

/-- A host write to a word of the IN window (20_memory.md R63). -/
theorem hostWrite_inWindow {s : State} {k : Nat} (hk : 4 * k < s.params.inMax) (hp : s.params.inMax ≤ 0x1000000)
    (v : Word) :
    hostWrite (0x1000000 + 4 * k) 32 v s = .next (if s.state.isRest then storeWord k v s else s) := by
  rw [hostWrite, if_pos (accessOk_word rfl k), regionOf_inWindow (by omega), if_pos hk]

/-- Settles O13: in a rest state the write is `storeWord`, whose every byte `inByte_storeWord` gives. -/
theorem inWindowWriteStoresItsLanes : Obligations.InWindowWriteStoresItsLanes := by
  intro s k v h hk
  obtain ⟨-, -, -, hin, -⟩ := h.params
  have hwrite := hostWrite_inWindow hk hin v
  refine ⟨fun hs => ⟨storeWord k v s, ?_, storeWord_frame k v s, fun j hj hlt => ?_, fun i hi => ?_⟩, fun hs => ?_⟩
  · rw [hwrite, if_pos ((isRest_iff s).2 hs)]
  · rw [inByte_storeWord h, if_pos (by omega), Nat.add_sub_cancel_left, laneByte]
  · rw [inByte_storeWord h, if_neg (by omega)]
  · rw [hwrite, if_neg (mt (isRest_iff s).1 (not_not_intro hs))]

end Sys2Proof.Machine
end

section
/-! PROOF. The command word: encoding and decoding are inverse, and what becomes of a word that is no command. -/

namespace Sys2Proof

/-! ### The fields of a word, rebuilt from the operands -/

/-- A field whose upper bits must be zero is its low part under zeros (30_encoding.md R94). -/
theorem zeros_append_low {n m : Nat} {x : BitVec (n + m)} (h : x &&& (BitVec.allOnes n ++ 0#m) = 0#(n + m)) :
    0#n ++ x.extractLsb' 0 m = x := by
  apply BitVec.eq_of_getLsbD_eq
  intro i hi
  by_cases him : i < m
  · simp [BitVec.getLsbD_append, him]
  · have hin : i - m < n := by omega
    have hzero : x.getLsbD i = false := by
      simpa [BitVec.getLsbD_append, him, hin] using congrArg (·.getLsbD i) h
    rw [BitVec.getLsbD_append, if_neg him, BitVec.getLsbD_zero, hzero]

@[simp] theorem bit_ofBit_bitOrder (b : Bool) : (BitOrder.ofBit b).bit = b := by cases b <;> rfl

@[simp] theorem bit_ofBit_byteOrder (b : Bool) : (ByteOrder.ofBit b).bit = b := by cases b <;> rfl

theorem cfgbits_fields : ∀ v : BitVec 4,
    (0 : BitVec 28) ++ (0#28 ++ v).extractLsb' 2 2 ++ BitVec.ofBool ((0#28 ++ v).getLsbD 1) ++
      BitVec.ofBool ((0#28 ++ v).getLsbD 0) = 0#28 ++ v := by decide

/-- Field `X` is rebuilt from the operands taken from it, where its must-be-zero bits are zero (30_encoding.md R100). -/
theorem x_withFields {o : Opcode} {x : Field24} (a : Word) (h : x &&& o.zeroX = 0) : (o.withFields x a).x = x := by
  cases o with
  | cfgwin | copy => rfl
  | fail | rdbytes | magic => exact zeros_append_low (n := 21) (m := 3) h
  | getbits | hbuild => exact zeros_append_low (n := 18) (m := 6) h
  | _ => exact (BitVec.and_allOnes.symm.trans h).symm

/-- Field `A` is rebuilt from the operands taken from it, where its must-be-zero bits are zero (30_encoding.md R100). -/
theorem a_withFields {o : Opcode} (x : Field24) {a : Word} (h : a &&& o.zeroA = 0) : (o.withFields x a).a = a := by
  cases o with
  | fail | cfglen | magic | seek | copy => rfl
  | cfgwin =>
    exact (BitVec.extractLsb'_append_extractLsb'_eq_extractLsb' (by decide)).trans BitVec.extractLsb'_eq_self
  | cfgbits =>
    have hlow := zeros_append_low (n := 28) (m := 4) h
    rw [← hlow]
    simpa only [Opcode.withFields, Instr.a, bit_ofBit_bitOrder, bit_ofBit_byteOrder] using cfgbits_fields _
  | liti => exact zeros_append_low (n := 24) (m := 8) h
  | _ => exact (BitVec.and_allOnes.symm.trans h).symm

/-! ### The round trip -/

/-- Settles O1: the word matches its opcode's pattern, and its fields give the command back. -/
theorem decodeOfEncodeIsTheCommand : Obligations.DecodeOfEncodeIsTheCommand := by
  intro i hwf
  refine decode_eq_ok.2 ⟨Laws.EncodeFields.all i, ?_, hwf⟩
  rw [encode, xField_packWord, aField_packWord, withFields_fields]

/-- Settles O2: a word that matches has zeros where they must be, so its command's fields are its own. -/
theorem encodeOfDecodeIsTheWord : Obligations.EncodeOfDecodeIsTheWord := by
  intro w i h
  obtain ⟨hmatch, hi, hwf⟩ := decode_eq_ok.1 h
  obtain ⟨hopc, hx, ha⟩ := (matches_iff w i.op).1 hmatch
  have hix : i.x = xField w := by rw [hi, x_withFields _ hx]
  have hia : i.a = aField w := by rw [hi, a_withFields _ ha]
  exact ⟨by rw [encode, ← hopc, hix, hia, packWord_fields], hwf⟩

/-! ### Refused words -/

theorem decode_error_iff {w : CmdWord} : (∃ e, decode w = .error e) ↔ ∀ i, decode w ≠ .ok i := by
  cases decode w <;> simp

/-- A word decodes exactly when it matches some opcode's pattern with fields in their legal values. -/
theorem decode_ok_iff {w : CmdWord} :
    (∃ i, decode w = .ok i) ↔
      ∃ o : Opcode, w &&& o.mask = o.pattern ∧ (o.withFields (xField w) (aField w)).WellFormed := by
  constructor
  · rintro ⟨i, h⟩
    obtain ⟨hmatch, hi, hwf⟩ := decode_eq_ok.1 h
    exact ⟨i.op, hmatch, hi ▸ hwf⟩
  · rintro ⟨o, hmatch, hwf⟩
    exact ⟨o.withFields (xField w) (aField w), decode_eq_ok.2 (by rw [op_withFields]; exact ⟨hmatch, rfl, hwf⟩)⟩

/-- Settles O3: refusal is the absence of a command, and two patterns that one word matches have one opcode byte. -/
theorem decoderRefusesExactlyTheIllegalWords : Obligations.DecoderRefusesExactlyTheIllegalWords := by
  constructor
  · intro w
    rw [decode_error_iff, ← not_exists, decode_ok_iff]
    simp only [not_exists, not_and]
  · intro w o p ho hp
    obtain ⟨hopc, -⟩ := (matches_iff w o).1 ho
    obtain ⟨hopc', -⟩ := (matches_iff w p).1 hp
    exact code_injective (hopc.symm.trans hopc')

/-- Settles O4: the decoder evaluated on each word. -/
theorem sampleWordsDecode : Obligations.SampleWordsDecode := by
  unfold Obligations.SampleWordsDecode
  decide

/-- The opcode numbers that 30_encoding.md R96 leaves unassigned. -/
abbrev UnassignedNumber (n : Nat) : Prop :=
  (0x05 ≤ n ∧ n ≤ 0x07) ∨ (0x0B ≤ n ∧ n ≤ 0x0F) ∨ (0x13 ≤ n ∧ n ≤ 0x17) ∨ (0x1C ≤ n ∧ n ≤ 0x1F) ∨
  (0x24 ≤ n ∧ n ≤ 0x27) ∨ 0x2A ≤ n

theorem code_assigned (o : Opcode) : ¬ UnassignedNumber o.code.toNat := by cases o <;> decide

theorem ofCode_of_unassigned {opc : Byte} (h : UnassignedNumber opc.toNat) : Opcode.ofCode opc = none :=
  Option.eq_none_iff_forall_ne_some.2 fun o ho => code_assigned o (ofCode_eq_some.1 ho ▸ h)

/-- The first test of 30_encoding.md R98. -/
theorem decode_of_ofCode_eq_none {w : CmdWord} (h : Opcode.ofCode (opcField w) = none) :
    decode w = .error (.unassignedOpcode (opcField w)) := by
  simp only [decode, h]

end Sys2Proof

namespace Sys2Proof.Machine

/-- A refused word is ignored with `IGN` set in a rest state, and fails the session in a call state (60_exceptions.md R264,
R265). -/
theorem execWord_refused {w : CmdWord} {e : DecodeError} (h : decode w = .error e) (s : State) :
    (¬ s.InSession → execWord w s = .next { s with ign := true }) ∧
    (s.InSession → ∃ t, execWord w s = .next t ∧ FailedWith s t .illegalCommand (opcField w) 0) := by
  rw [execWord_error h]
  exact ⟨fun hs => by rw [illegalCommand_rest hs], fun hs => ⟨_, rfl, illegalCommand_session hs _⟩⟩

/-- Settles O5: no opcode has a listed number, and a refused word is an illegal command. -/
theorem unassignedOpcodesAreIllegalCommands : Obligations.UnassignedOpcodesAreIllegalCommands := by
  intro w hn
  have hdecode := decode_of_ofCode_eq_none (ofCode_of_unassigned hn)
  exact ⟨hdecode, fun s => (execWord_refused hdecode s).1, fun s => (execWord_refused hdecode s).2⟩

/-! ### The step -/

/-- Settles O6: the write reaches its register, and a write to `CMD_OP` executes the word. -/
theorem commandIssueExecutesTheWord : Obligations.CommandIssueExecutesTheWord := by
  refine ⟨fun s a rest hbus => ?_, fun s v rest i hbus hd => ?_, fun s v rest e hbus hd => ?_⟩
  · rw [step_write (by decide) hbus]
    exact hostWrite_reg .cmdA a { s with bus := rest }
  · rw [step_cmdOp hbus, execWord_ok hd]
  · rw [step_cmdOp hbus, execWord_error hd]

/-- Every word has a defined outcome (30_encoding.md R96). -/
theorem execWord_next (w : CmdWord) (s : State) : ∃ t, execWord w s = .next t := by
  cases hd : decode w with
  | ok i => exact ⟨_, (execWord_ok hd s).trans (exec_next i s)⟩
  | error e => exact ⟨_, execWord_error hd s⟩

/-- Every host write has a defined outcome (20_memory.md R66, R67). -/
theorem hostWrite_next (off bits : Nat) (v : Word) (s : State) : ∃ t, hostWrite off bits v s = .next t := by
  rcases hostWrite_cases off bits v s with h | ⟨-, -, h⟩ | ⟨-, -, h⟩ | ⟨-, -, -, h⟩ | ⟨k, -, -, -, -, h⟩
  · exact ⟨_, h⟩
  · exact ⟨_, h⟩
  · rw [h]; exact execWord_next ..
  · exact ⟨_, h⟩
  · exact ⟨_, h⟩

/-- Every event but a reset during an access has a defined outcome. -/
theorem serve_next {e : HostEvent} (h : e ≠ .resetDuringAccess) (s : State) : ∃ t, serve e s = .next t := by
  cases e with
  | read addr bits => simp only [serve]; split <;> exact ⟨_, rfl⟩
  | write addr bits v =>
    simp only [serve]; split
    · exact hostWrite_next ..
    · exact ⟨_, rfl⟩
  | reset => exact ⟨_, rfl⟩
  | resetDuringAccess => exact absurd rfl h

/-- Settles O8: the step serves the first pending event, and only a reset during an access is refused. -/
theorem onlyATornResetStopsTheMachine : Obligations.OnlyATornResetStopsTheMachine := by
  intro s
  unfold step
  cases hbus : s.bus with
  | nil => exact .inl ⟨s, rfl⟩
  | cons e rest =>
    by_cases he : e = .resetDuringAccess
    · exact .inr ⟨by rw [he]; rfl, rest, by rw [he]⟩
    · exact .inl (serve_next he { s with bus := rest })

end Sys2Proof.Machine
end

section
/-! PROOF. The byte cursor: its commands (41_byte_cursor.md R124-R126), and that no command moves it past the input (R121). -/

namespace Sys2Proof.Machine

/-! ### Fields of bytes -/

/-- `Assemble` in little-endian order as the sum of 41_byte_cursor.md R123. -/
theorem assembleLittle_map_range (n : Nat) : ∀ f : Nat → Byte,
    assembleLittle ((List.range n).map f) = ∑ k ∈ Finset.range n, (f k).toNat * 2 ^ (8 * k) := by
  induction n with
  | zero => exact fun f => rfl
  | succ n ih =>
    intro f
    rw [List.range_succ_eq_map, List.map_cons, List.map_map, assembleLittle, ih, Finset.sum_range_succ', Finset.mul_sum,
      Nat.mul_zero, Nat.pow_zero, Nat.mul_one, Nat.add_comm]
    congr 1
    refine Finset.sum_congr rfl fun k _ => ?_
    rw [Function.comp_apply, Nat.mul_succ, Nat.pow_add]
    exact (Nat.mul_comm _ _).trans (Nat.mul_assoc _ _ _)

theorem assemble_little_inBytes (s : State) (p n : Nat) :
    assemble .little (s.inBytes p n) = ∑ k ∈ Finset.range n, (s.inByte (p + k)).toNat * 2 ^ (8 * k) :=
  assembleLittle_map_range n _

/-- Big-endian order weighs the reversed list, so its sum is the little-endian one reflected (41_byte_cursor.md R123). -/
theorem assemble_big_inBytes (s : State) (p n : Nat) :
    assemble .big (s.inBytes p n) =
      ∑ k ∈ Finset.range n, (s.inByte (p + k)).toNat * 2 ^ (8 * (n - 1 - k)) := by
  rw [assemble, State.inBytes, ← List.map_reverse, List.range_eq_range', List.reverse_range', List.map_map,
    assembleLittle_map_range, ← Finset.sum_range_reflect]
  refine Finset.sum_congr rfl fun k hk => ?_
  have hk := Finset.mem_range.1 hk
  rw [Function.comp_apply, show 0 + n - 1 - (n - 1 - k) = k by omega]

/-- The comparison of `MAGIC`, byte by byte (41_byte_cursor.md R125). -/
theorem magicMatches_iff {s : State} {n : Nat} {value : Word} :
    s.magicMatches n value = true ↔
      ∀ k, k < n → s.inByte (s.inPos.toNat + k) = value.extractLsb' (8 * k) 8 := by
  simp [State.magicMatches, sigByte]

/-! ### Legality and outcomes of the byte cursor commands -/

theorem legal_rdbytes_iff {n : BitVec 3} {s : State} :
    legal (.rdbytes n) s = true ↔ s.InSession ∧ 1 ≤ n.toNat ∧ n.toNat ≤ 4 := by
  simp [legal_iff, Instr.op, Opcode.allowedIn, Opcode.trieOk, and_comm]

theorem legal_magic_iff {n : BitVec 3} {value : Word} {s : State} :
    legal (.magic n value) s = true ↔ s.state = .headerPending ∧ 1 ≤ n.toNat ∧ n.toNat ≤ 4 := by
  simp [legal_iff, Instr.op, Opcode.allowedIn, Opcode.trieOk, and_comm]

theorem legal_seek_iff {pos : Word} {s : State} : legal (.seek pos) s = true ↔ s.state = .headerPending := by
  simp [legal_iff, Instr.op, Opcode.allowedIn, Opcode.trieOk]

/-- A command that is not legal is handled as illegal. -/
theorem handledAsIllegal_of_not {i : Instr} {s : State} (h : ¬ legal i s = true) : HandledAsIllegal i s :=
  handledAsIllegal (Bool.eq_false_iff.2 h)

/-- A legal command whose effect is a raise out of the state it began in fails the session and changes nothing else
(60_exceptions.md R266). -/
theorem exec_failedWith {i : Instr} {s : State} {k : ErrorKind} {d : Word} (hl : legal i s = true)
    (h : effect i s = raiseError i.op.code s k d s) :
    ∃ t, exec i s = .next t ∧ FailedWith s t k i.op.code d :=
  ⟨_, (exec_of_legal hl).trans (congrArg _ h), rfl⟩

theorem not_available_iff {s : State} {n : Nat} : ¬ s.available n = true ↔ s.inLen.toNat < s.inPos.toNat + n :=
  available_iff.not.trans Nat.not_le

/-! ### The byte cursor commands -/

/-- Settles O42: the availability check splits the legal cases, and the assembled field is the sum of its byte order. -/
theorem rdbytesReadsAField : Obligations.RdbytesReadsAField := by
  refine fun n => ⟨rfl, fun s => ⟨fun hs h1 h4 hlen => ?_, fun hs h1 h4 hlen => ?_, fun hill => ?_⟩⟩
  · have hfield : effect (.rdbytes n) s =
        (s.setRes (BitVec.ofNat 32 (assemble s.byteOrd (s.inBytes s.inPos.toNat n.toNat)))).advance n.toNat :=
      if_pos (available_iff.2 hlen)
    rw [exec_of_legal (legal_rdbytes_iff.2 ⟨hs, h1, h4⟩), hfield]
    refine congrArg (fun v => Host.Outcome.next ((s.setRes (BitVec.ofNat 32 v)).advance n.toNat)) ?_
    cases s.byteOrd with
    | little => exact assemble_little_inBytes s _ _
    | big => exact assemble_big_inBytes s _ _
  · exact exec_failedWith (legal_rdbytes_iff.2 ⟨hs, h1, h4⟩) (if_neg (not_available_iff.2 hlen))
  · refine handledAsIllegal_of_not ?_
    rwa [legal_rdbytes_iff, not_and_or, not_and_or, Nat.not_le, Nat.not_le]

/-- Settles O43: availability splits the legal cases first, then the comparison does. -/
theorem magicChecksTheSignature : Obligations.MagicChecksTheSignature := by
  refine fun n value => ⟨rfl, fun s => ⟨fun hs h1 h4 hlen => ?_, fun hs h1 h4 hlen => ?_, fun hill => ?_⟩⟩
  · have hl : legal (.magic n value) s = true := legal_magic_iff.2 ⟨hs, h1, h4⟩
    have hcompare : effect (.magic n value) s =
        if s.magicMatches n.toNat value then s.advance n.toNat
        else raiseError (Opcode.code .magic) s .invalidHeader 0 s := if_pos (available_iff.2 hlen)
    refine ⟨fun heq => ?_, fun ⟨k, hk, hne⟩ => exec_failedWith hl (hcompare.trans (if_neg fun hm => ?_))⟩
    · rw [exec_of_legal hl, hcompare, if_pos (magicMatches_iff.2 heq)]
      rfl
    · exact hne (magicMatches_iff.1 hm k hk)
  · exact exec_failedWith (legal_magic_iff.2 ⟨hs, h1, h4⟩) (if_neg (not_available_iff.2 hlen))
  · refine handledAsIllegal_of_not ?_
    rwa [legal_magic_iff, not_and_or, not_and_or, Nat.not_le, Nat.not_le]

/-- Settles O44: the one check of `SEEK` splits the legal case. -/
theorem seekMovesTheCursor : Obligations.SeekMovesTheCursor := by
  refine fun pos => ⟨rfl, fun s => ⟨fun hs hle => ?_, fun hs hlt => ?_, fun hs => ?_⟩⟩
  · exact (exec_of_legal (legal_seek_iff.2 hs)).trans (congrArg _ (if_pos hle))
  · exact exec_failedWith (legal_seek_iff.2 hs) (if_neg (Nat.not_le.2 hlt))
  · exact handledAsIllegal_of_not (mt legal_seek_iff.1 hs)

/-! ### No command moves the cursor past the input -/

/-- The cursor is within the input (41_byte_cursor.md R121). -/
abbrev State.CursorInInput (s : State) : Prop := s.inPos.toNat ≤ s.inLen.toNat

/-- What the availability check is for (41_byte_cursor.md R122): the advance does not wrap, and stays in the input. -/
theorem advance_cursorInInput {s : State} {n : Nat} (h : s.available n = true) : (s.advance n).CursorInInput := by
  have hlen := available_iff.1 h
  have := s.inLen.isLt
  rw [State.CursorInInput, advance_inPos, advance_inLen, BitVec.toNat_add, BitVec.toNat_ofNat, Nat.add_mod_mod,
    Nat.mod_eq_of_lt (by omega)]
  exact hlen

theorem andThen_cursorInInput {α β : Type} {r : Attempt α} {f : α → State → Attempt β} (hr : r.final.CursorInInput)
    (hf : ∀ v t, t.CursorInInput → (f v t).final.CursorInInput) : (r.andThen f).final.CursorInInput := by
  cases r with
  | done v t => exact hf v t hr
  | raised k t => exact hr

theorem conclude_cursorInInput {α : Type} {o : Opcode} {start : State} {r : Attempt α} {finish : α → State → State}
    (hr : r.final.CursorInInput) (hf : ∀ v t, t.CursorInInput → (finish v t).CursorInInput) :
    (conclude o start r finish).CursorInInput := by
  cases r with
  | done v t => exact hf v t hr
  | raised k t => exact hr

theorem refill_cursorInInput {s : State} (h : s.CursorInInput) : (refill s).final.CursorInInput := by
  unfold refill
  split
  case isTrue ha => exact advance_cursorInInput ha
  case isFalse => exact h

theorem readBit_cursorInInput {s : State} (h : s.CursorInInput) : (readBit s).final.CursorInInput := by
  unfold readBit
  split
  · exact andThen_cursorInInput (refill_cursorInInput h) fun _ _ ht => ht
  · exact h

theorem readBitsFrom_cursorInInput (n : Nat) : ∀ (i : Nat) (v : Word) (s : State), s.CursorInInput →
    (readBitsFrom n i v s).final.CursorInInput := by
  induction n with
  | zero => exact fun i v s h => h
  | succ n ih => exact fun i v s h => andThen_cursorInInput (readBit_cursorInInput h) fun _ _ ht => ih _ _ _ ht

theorem buildNode_cursorInInput (levels : Nat) : ∀ (count : Nat) (s : State), s.CursorInInput →
    (buildNode levels count s).final.CursorInInput := by
  induction levels with
  | zero => exact fun count s h => h
  | succ levels ih =>
    intro count s h
    unfold buildNode
    split
    · exact h
    · refine andThen_cursorInInput (readBit_cursorInInput h) fun b t ht => ?_
      split
      · exact andThen_cursorInInput (ih _ _ ht) fun _ _ hu => andThen_cursorInInput (ih _ _ hu) fun _ _ hv => hv
      · exact andThen_cursorInInput (readBitsFrom_cursorInInput _ _ _ _ ht) fun _ _ hu => hu

theorem walk_cursorInInput (t : Trie) : ∀ s : State, s.CursorInInput → (walk t s).final.CursorInInput := by
  induction t with
  | leaf v => exact fun s h => h
  | branch l r hl hr =>
    refine fun s h => andThen_cursorInInput (readBit_cursorInInput h) fun b u hu => ?_
    split
    · exact hr u hu
    · exact hl u hu

theorem illegalCommand_cursorInInput {s : State} (h : s.CursorInInput) (opc : Byte) :
    (illegalCommand opc s).CursorInInput := by
  rw [illegalCommand_controlOnly]; exact h

/-- A legal command with `INPOS` in its footprint restarts the cursor, checks the new position, or reads; a raise leaves it
where the command had got to. -/
theorem effect_cursorInInput {i : Instr} {s : State} (h : s.CursorInInput) (hl : legal i s = true) :
    (effect i s).CursorInInput := by
  cases i with
  | begin =>
    simp only [effect]; split <;> exact Nat.zero_le _
  | rdbytes n =>
    simp only [effect]; split
    · exact advance_cursorInInput (s := s) ‹_›
    · exact h
  | magic n value =>
    simp only [effect]; split
    · split
      · exact advance_cursorInInput ‹_›
      · exact h
    · exact h
  | seek pos =>
    simp only [effect]; split
    · assumption
    · exact h
  | getbyte =>
    simp only [effect]; split
    · exact advance_cursorInInput (s := s) ‹_›
    · exact h
  | litb =>
    simp only [effect]; split
    · split
      · exact advance_cursorInInput (s := s) ‹_›
      · exact h
    · exact h
  | getbit => exact conclude_cursorInInput (readBit_cursorInInput h) fun _ _ ht => ht
  | getbits c => exact conclude_cursorInInput (readBitsFrom_cursorInInput _ _ _ _ h) fun _ _ ht => ht
  | hbuild w => exact conclude_cursorInInput (buildNode_cursorInInput _ _ _ h) fun _ _ ht => ht
  | hwalk =>
    simp only [effect]; split
    · exact conclude_cursorInInput (walk_cursorInInput _ s h) fun _ _ ht => ht
    · exact illegalCommand_cursorInInput h _
  | align | nop | start | finish | fail | cfgwin | cfgbits | cfglen | liti | litr | copy =>
    rw [effect_recordOnly hl]; exact h

/-- Settles O29: legal commands keep the cursor within the input, and an illegal one does not move it. -/
theorem noCommandMovesInposPastInLen : Obligations.NoCommandMovesInposPastInLen := by
  intro i s t h hexec
  rcases exec_cases hexec with ⟨hl, rfl⟩ | ⟨-, rfl⟩
  · exact effect_cursorInInput h hl
  · exact illegalCommand_cursorInInput h _

end Sys2Proof.Machine
end

section
/-! PROOF. The bit reader: its commands (42_bit_reader.md R149-R153) against the unread bit stream. -/

namespace Sys2Proof

/-- The second test of 30_encoding.md R98. -/
theorem decode_of_mustBeZero {w : CmdWord} {o : Opcode} (hopc : opcField w = o.code)
    (h : w &&& packWord 0 o.zeroX o.zeroA ≠ 0) : decode w = .error (.mustBeZero o) := by
  have hfields : ¬ (xField w &&& o.zeroX = 0 ∧ aField w &&& o.zeroA = 0) := fun ⟨hx, ha⟩ => h <| by
    rw [← packWord_fields w, packWord_and, hx, ha]
    exact congrArg (packWord · 0 0) BitVec.and_zero
  simp only [decode, ofCode_eq_some.2 hopc, if_neg hfields]

end Sys2Proof

namespace Sys2Proof.Machine

/-! ### Legality -/

/-- The commands that read the stream are legal in a session (46_dispatch.md R238). -/
theorem legal_bitReader_iff {i : Instr} {s : State} (h : i.op ∈ [.getbit, .getbits, .align, .getbyte]) :
    legal i s = true ↔ i.WellFormed ∧ s.InSession := by
  cases i with
  | getbit | getbits _ | align | getbyte => simp [legal_iff, Instr.op, Opcode.allowedIn, Opcode.trieOk]
  | _ => simp [Instr.op] at h

theorem handledAsIllegal_of_rest {i : Instr} {s : State} (h : i.op ∈ [.getbit, .getbits, .align, .getbyte])
    (hs : ¬ s.InSession) : HandledAsIllegal i s :=
  handledAsIllegal_of_not fun hl => hs ((legal_bitReader_iff h).1 hl).2

theorem legal_cfgbits_iff {b : BitOrder} {y : ByteOrder} {c : BitVec 2} {s : State} :
    legal (.cfgbits b y c) s = true ↔ c.toNat ≤ 2 ∧ s.state ≠ .decoding := by
  simp [legal_iff, Instr.op, Opcode.allowedIn, Opcode.trieOk]

/-! ### Configuration -/

/-- A unit code names the unit of `2 ^ code` bytes (42_bit_reader.md R143, R149). -/
theorem ofUcode_of_bytes {c : BitVec 2} {u : RefillUnit} (h : u.bytes = 2 ^ c.toNat) :
    RefillUnit.ofUcode c = some u ∧ c.toNat ≤ 2 := by
  cases u <;> revert c <;> decide

/-- A legal `CFGBITS` sets the configuration. -/
theorem exec_cfgbits {c : BitVec 2} {u : RefillUnit} {s : State} (hu : u.bytes = 2 ^ c.toNat) (hs : s.state ≠ .decoding)
    (b : BitOrder) (y : ByteOrder) : exec (.cfgbits b y c) s = .next (setBitConfig b y u s) := by
  obtain ⟨hunit, hc⟩ := ofUcode_of_bytes hu
  rw [exec_of_legal (legal_cfgbits_iff.2 ⟨hc, hs⟩)]
  simp only [effect, hunit]

/-- Settles O45: a legal unit code names its unit, and `setBitConfig` splits on HeaderPending. -/
theorem cfgbitsSetsTheBitReader : Obligations.CfgbitsSetsTheBitReader := by
  refine fun b y c => ⟨?_, fun w hopc hw => decode_of_mustBeZero hopc hw,
    fun s => ⟨fun u hu => ⟨fun hs => ?_, fun hp hd => ?_⟩, fun hill => ?_⟩⟩
  · rw [← byteOrder_bit_eq_beq, ← bitOrder_bit_eq_beq]
    rfl
  · rw [exec_cfgbits hu (by rw [hs]; decide), setBitConfig, if_pos hs]
    rfl
  · rw [exec_cfgbits hu hd, setBitConfig, if_neg hp]
  · refine handledAsIllegal_of_not ?_
    rw [legal_cfgbits_iff]
    rintro ⟨hc, hd⟩
    rcases hill with hs | rfl
    · exact hd hs
    · exact absurd hc (by decide)

/-! ### `ALIGN` and `GETBYTE` -/

/-- Settles O50: `ALIGN` is `exhaust`. -/
theorem alignDiscardsTheUnit : Obligations.AlignDiscardsTheUnit :=
  ⟨rfl, fun _ => ⟨fun hs => exec_of_legal ((legal_bitReader_iff (by decide)).2 ⟨trivial, hs⟩),
    handledAsIllegal_of_rest (by decide)⟩⟩

/-- `GETBYTE` with a byte left (42_bit_reader.md R153). -/
theorem exec_getbyte_done {s : State} (hs : s.InSession) (hlen : s.inPos.toNat + 1 ≤ s.inLen.toNat) :
    exec .getbyte s = .next ((s.exhaust.setRes ((s.inByte s.inPos.toNat).setWidth 32)).advance 1) :=
  (exec_of_legal ((legal_bitReader_iff (by decide)).2 ⟨trivial, hs⟩)).trans
    (congrArg _ (if_pos (available_iff.2 hlen)))

/-- Settles O51: the availability check splits the legal case, after the buffer is discarded. -/
theorem getbyteReadsAnAlignedByte : Obligations.GetbyteReadsAnAlignedByte := by
  refine ⟨rfl, fun s => ⟨exec_getbyte_done, fun hs hlen => ⟨_, ?_, rfl⟩, handledAsIllegal_of_rest (by decide)⟩⟩
  exact (exec_of_legal ((legal_bitReader_iff (by decide)).2 ⟨trivial, hs⟩)).trans
    (congrArg _ (if_neg (not_available_iff.2 hlen)))

/-! ### `GETBIT` and `GETBITS` -/

theorem bitWord_eq_ite (b : Bool) : bitWord b = if b then 1 else 0 := by cases b <;> rfl

/-- Settles O46: the two outcomes of `ReadBit`. -/
theorem getbitReadsTheNextBit : Obligations.GetbitReadsTheNextBit := by
  have hlegal : ∀ {s : State}, s.InSession → legal .getbit s = true := fun hs =>
    (legal_bitReader_iff (by decide)).2 ⟨trivial, hs⟩
  refine ⟨rfl, fun s => ⟨fun hinv hs hbit => ?_, fun hinv hs hbit => exec_failedWith (hlegal hs) ?_,
    handledAsIllegal_of_rest (by decide)⟩⟩
  · rw [exec_of_legal (hlegal hs), effect, readBit_done (hinv.cursorsOk hs).usedLe hbit, ← bitWord_eq_ite]
    rfl
  · rw [effect, readBit_raised (hinv.cursorsOk hs).usedLe (hinv.cursorsOk hs).inPosLe hbit]
    rfl

theorem legal_getbits_iff {c : BitVec 6} {s : State} : legal (.getbits c) s = true ↔ c.toNat ≤ 32 ∧ s.InSession :=
  legal_bitReader_iff (by simp [Instr.op])

/-- `GETBITS` on a stream that holds its bits (42_bit_reader.md R151). -/
theorem exec_getbits_done {c : BitVec 6} {s : State} (hs : s.InSession) (hc : c.toNat ≤ 32)
    (hused : s.used ≤ s.unit.bits) (hbits : s.streamHas c.toNat) :
    exec (.getbits c) s =
      .next ((s.skipBits c.toNat).setRes (BitVec.ofNat 32 (bitsValue s.bitOrd (s.nextBits c.toNat)))) := by
  rw [exec_of_legal (legal_getbits_iff.2 ⟨hc, hs⟩), effect, readBits_done hc hused hbits]
  rfl

/-- Settles O47: the outcomes of `ReadBits`; a raise leaves the bits before the missing unit consumed. -/
theorem getbitsReadsAField : Obligations.GetbitsReadsAField := by
  refine fun c => ⟨rfl, fun s => ⟨fun hinv hs hc => exec_getbits_done hs hc (hinv.cursorsOk hs).usedLe,
    fun hinv hs hc hbits => ?_, fun hill => handledAsIllegal_of_not ?_⟩⟩
  · obtain ⟨k, -, -, -, hraise⟩ := readBits_raised (hinv.cursorsOk hs).usedLe (hinv.cursorsOk hs).inPosLe hbits
    refine ⟨_, exec_of_legal (legal_getbits_iff.2 ⟨hc, hs⟩), ?_⟩
    rw [effect, hraise]
    rfl
  · rw [legal_getbits_iff]
    rintro ⟨hc, hs⟩
    exact hill.elim (absurd hs) (Nat.not_lt.2 hc)

/-! ### A whole unit read as one group -/

/-- An exhausted buffer leaves the next unit's bits, in the order in which they stand for its value. -/
theorem nextBits_of_exhausted {s : State} (h : s.used = s.unit.bits) :
    s.nextBits s.unit.bits = valueBits s.bitOrd s.unit.bits (s.unitNo 1) := by
  have hbit : ∀ i ∈ List.range s.unit.bits, s.streamBit i = unitBit s.bitOrd s.unit.bits (s.unitNo 1) i := by
    intro i hi
    have hlt := List.mem_range.1 hi
    rw [State.streamBit, h, Nat.add_div_left _ (bits_pos _), Nat.div_eq_of_lt hlt,
      Nat.add_mod_left, Nat.mod_eq_of_lt hlt]
  rw [State.nextBits, List.map_congr_left hbit]
  cases s.bitOrd <;> rfl

/-- Reading a whole unit takes one refill. -/
theorem unitsFor_of_exhausted {s : State} (h : s.used = s.unit.bits) : s.unitsFor s.unit.bits = 1 := by
  have hpos := bits_pos s.unit
  rw [State.unitsFor, h, Nat.add_sub_assoc hpos, Nat.add_div_left _ hpos, Nat.div_eq_of_lt (by omega)]

theorem unitNo_one (s : State) : s.unitNo 1 = s.loadUnit.buf := by
  rw [State.unitNo, Nat.zero_mul, Nat.add_zero, loadUnit_buf]

/-- Reading a whole unit loads it and exhausts it. -/
theorem skipBits_of_exhausted {s : State} (h : s.used = s.unit.bits) : s.skipBits s.unit.bits = s.loadUnit.exhaust := by
  rw [State.skipBits, unitsFor_of_exhausted h, unitNo_one, h, Nat.one_mul, Nat.one_mul, Nat.add_sub_cancel]
  rfl

/-- `GETBITS` of a whole unit gives the unit, under either bit order (42_bit_reader.md R141, R148). -/
theorem exec_getbits_unit {c : BitVec 6} {s : State} (hs : s.InSession) (hc : c.toNat = s.unit.bits)
    (hused : s.used = s.unit.bits) (hbuf : s.buf.toNat < 2 ^ s.unit.bits)
    (hlen : s.inPos.toNat + s.unit.bytes ≤ s.inLen.toNat) :
    exec (.getbits c) s = .next (s.loadUnit.exhaust.setRes s.loadUnit.buf) := by
  have hbits : s.streamHas c.toNat := by
    rwa [State.streamHas, hc, unitsFor_of_exhausted hused, Nat.one_mul]
  rw [exec_getbits_done hs (hc ▸ bits_le _) hused.le hbits, hc, skipBits_of_exhausted hused, nextBits_of_exhausted hused,
    bitsValue_valueBits _ _ _ (unitNo_lt hbuf 1), BitVec.ofNat_toNat, BitVec.setWidth_eq, unitNo_one]

/-- One byte assembles to itself under either byte order (42_bit_reader.md R142). -/
theorem assemble_singleton (ord : ByteOrder) (b : Byte) : assemble ord [b] = b.toNat := by
  cases ord <;> rfl

theorem inBytes_one (s : State) (p : Nat) : s.inBytes p 1 = [s.inByte p] := rfl

/-- A one-byte unit is its byte. -/
theorem loadUnit_buf_of_one {s : State} (h : s.unit = .one) :
    s.loadUnit.buf = (s.inByte s.inPos.toNat).setWidth 32 := by
  rw [loadUnit_buf, h, RefillUnit.bytes, inBytes_one, assemble_singleton, BitVec.ofNat_toNat]

/-- Settles O48: the eight bits are the one unit that the exhausted buffer takes next, and that unit is the byte. -/
theorem eightBitsAreTheNextByte : Obligations.EightBitsAreTheNextByte := by
  intro s hinv hs hunit hused hlen
  have hbits : s.unit.bits = 8 := congrArg RefillUnit.bits hunit
  have hbytes : s.unit.bytes = 1 := congrArg RefillUnit.bytes hunit
  have hgetbits := exec_getbits_unit (c := 8) hs hbits.symm (hused.trans hbits.symm) (hinv.cursorsOk hs).bufLt
    (by rwa [hbytes])
  have hpos : s.inPos + BitVec.ofNat 32 s.unit.bytes = s.inPos + 1 := by rw [hbytes]; rfl
  have hbyte := loadUnit_buf_of_one hunit
  exact ⟨_, _, hgetbits, exec_getbyte_done hs hlen, hbyte, hbyte.symm, hpos, hpos.symm, hbits, hbits⟩

end Sys2Proof.Machine
end

section
/-! PROOF. With `UNIT = 1` the byte order has no effect on bit reads (42_bit_reader.md R142). -/

namespace Sys2Proof.Machine

/-- `s` under byte order `y`. -/
def State.withByteOrd (y : ByteOrder) (s : State) : State := { s with byteOrd := y }

/-- An attempt with the state it leaves changed. -/
def Attempt.mapState {α : Type} (f : State → State) : Attempt α → Attempt α
  | .done v s => .done v (f s)
  | .raised k s => .raised k (f s)

/-- With one-byte units, which it keeps, the reader `r` comes to the same under byte order `y`. -/
def ByteOrderFree {α : Type} (y : ByteOrder) (r : State → Attempt α) : Prop :=
  ∀ s : State, s.unit = .one → r (s.withByteOrd y) = (r s).mapState (State.withByteOrd y) ∧ (r s).final.unit = .one

section
variable {y : ByteOrder}

/-- Readers one after the other. -/
theorem ByteOrderFree.andThen {α β : Type} {r : State → Attempt α} {f : α → State → Attempt β}
    (hr : ByteOrderFree y r) (hf : ∀ v, ByteOrderFree y (f v)) : ByteOrderFree y fun s => (r s).andThen f := by
  intro s hs
  obtain ⟨heq, hunit⟩ := hr s hs
  dsimp only
  rw [heq]
  cases hrs : r s with
  | done v t => rw [hrs] at hunit; exact hf v t hunit
  | raised k t => rw [hrs] at hunit; exact ⟨rfl, hunit⟩

/-- A choice between two readers that does not look at the byte order. -/
theorem ByteOrderFree.ite {α : Type} {p : State → Prop} [DecidablePred p] {r r' : State → Attempt α}
    (hp : ∀ s, p (s.withByteOrd y) ↔ p s) (hr : ByteOrderFree y r) (hr' : ByteOrderFree y r') :
    ByteOrderFree y fun s => if p s then r s else r' s := by
  intro s hs
  by_cases h : p s
  · simp only [if_pos h, if_pos ((hp s).2 h)]; exact hr s hs
  · simp only [if_neg h, if_neg (mt (hp s).1 h)]; exact hr' s hs

theorem done_byteOrderFree {α : Type} (v : α) : ByteOrderFree y (Attempt.done v) := fun _ hs => ⟨rfl, hs⟩

theorem raised_byteOrderFree {α : Type} (k : ErrorKind) : ByteOrderFree y (Attempt.raised (α := α) k) :=
  fun _ hs => ⟨rfl, hs⟩

/-- The one place where the byte order is looked at: a refill, which assembles one byte. -/
theorem loadUnit_withByteOrd {s : State} (h : s.unit = .one) :
    (s.withByteOrd y).loadUnit = s.loadUnit.withByteOrd y := by
  have hbuf : (s.withByteOrd y).loadUnit.buf = s.loadUnit.buf :=
    (loadUnit_buf_of_one (s := s.withByteOrd y) h).trans (loadUnit_buf_of_one h).symm
  exact congrArg (fun b => { s.loadUnit.withByteOrd y with buf := b }) hbuf

theorem refill_byteOrderFree : ByteOrderFree y refill :=
  .ite (p := fun s => s.available s.unit.bytes = true) (fun _ => Iff.rfl)
    (fun _ hs => ⟨congrArg _ (loadUnit_withByteOrd hs), hs⟩) (raised_byteOrderFree _)

theorem takeBit_byteOrderFree : ByteOrderFree y takeBit := fun _ hs => ⟨rfl, hs⟩

theorem readBit_byteOrderFree : ByteOrderFree y readBit :=
  .ite (p := fun s => s.used = s.unit.bits) (fun _ => Iff.rfl)
    (refill_byteOrderFree.andThen fun _ => takeBit_byteOrderFree) takeBit_byteOrderFree

theorem readBitsFrom_byteOrderFree (n : Nat) : ∀ (i : Nat) (v : Word), ByteOrderFree y (readBitsFrom n i v) := by
  induction n with
  | zero => exact fun _ v => done_byteOrderFree v
  | succ n ih => exact fun i v => readBit_byteOrderFree.andThen fun b t => ih (i + 1) (joinBit t.bitOrd v i b) t

theorem readBits_byteOrderFree (c : Nat) : ByteOrderFree y (readBits c) := readBitsFrom_byteOrderFree c 0 0

theorem buildNode_byteOrderFree (levels : Nat) : ∀ count : Nat, ByteOrderFree y (buildNode levels count) := by
  induction levels with
  | zero => exact fun _ => raised_byteOrderFree _
  | succ levels ih =>
    have branch : ∀ count, ByteOrderFree y fun s => (buildNode levels (count + 1) s).andThen fun l u =>
        (buildNode levels l.2 u).andThen fun r v => .done (Trie.branch l.1 r.1, r.2) v := fun count =>
      (ih _).andThen fun _ => (ih _).andThen fun _ => done_byteOrderFree _
    have leaf : ∀ count : Nat, ByteOrderFree y fun s => (readBits s.hwidth.toNat s).andThen fun v u =>
        .done (Trie.leaf v, count + 1) u := fun count s =>
      ((readBits_byteOrderFree s.hwidth.toNat).andThen fun _ => done_byteOrderFree _) s
    exact fun count => .ite (p := fun s => count = s.params.hufNodesMax) (fun _ => Iff.rfl) (raised_byteOrderFree _)
      (readBit_byteOrderFree.andThen fun b => .ite (p := fun _ => b = true) (fun _ => Iff.rfl) (branch count) (leaf count))

theorem walk_byteOrderFree (t : Trie) : ByteOrderFree y (walk t) := by
  induction t with
  | leaf v => exact done_byteOrderFree v
  | branch l r hl hr =>
    exact readBit_byteOrderFree.andThen fun b => .ite (p := fun _ => b = true) (fun _ => Iff.rfl) hr hl

/-- A command that concludes such a reader ends alike under either byte order. -/
theorem ByteOrderFree.conclude {α : Type} {r : State → Attempt α} (hr : ByteOrderFree y r) (o : Opcode) (start : State)
    {s : State} (hs : s.unit = .one) {finish : α → State → State}
    (hf : ∀ v t, finish v (t.withByteOrd y) = (finish v t).withByteOrd y) :
    conclude o (start.withByteOrd y) (r (s.withByteOrd y)) finish = (conclude o start (r s) finish).withByteOrd y := by
  rw [(hr s hs).1]
  cases r s with
  | done v t => exact hf v t
  | raised k t => rfl

theorem illegalCommand_withByteOrd (opc : Byte) (s : State) :
    illegalCommand opc (s.withByteOrd y) = (illegalCommand opc s).withByteOrd y := by
  by_cases hs : s.InSession
  · rw [illegalCommand_session (s := s.withByteOrd y) hs, illegalCommand_session hs]
    rfl
  · rw [illegalCommand_rest (s := s.withByteOrd y) hs, illegalCommand_rest hs]
    rfl

/-- The commands that read bits. -/
theorem effect_withByteOrd {i : Instr} {s : State} (hs : s.unit = .one)
    (hi : i.op ∈ [.getbit, .getbits, .hbuild, .hwalk]) :
    effect i (s.withByteOrd y) = (effect i s).withByteOrd y := by
  cases i with
  | getbit => exact readBit_byteOrderFree.conclude _ s hs fun _ _ => rfl
  | getbits c => exact (readBits_byteOrderFree _).conclude _ s hs fun _ _ => rfl
  | hbuild w => exact (buildNode_byteOrderFree _ _).conclude (s := { s with hwidth := w }) _ s hs fun _ _ => rfl
  | hwalk =>
    have htree : (s.withByteOrd y).tree = s.tree := rfl
    simp only [effect, htree]
    cases s.tree with
    | some t => exact (walk_byteOrderFree t).conclude _ s hs fun _ _ => rfl
    | none => exact illegalCommand_withByteOrd ..
  | _ => simp [Instr.op] at hi

end

/-- Settles O49: neither legality nor the effect of such a command depends on the byte order. -/
theorem byteOrderIsIdleForOneByteUnits : Obligations.ByteOrderIsIdleForOneByteUnits := by
  intro i s t y hs hi hexec
  have hlegal : legal i (s.withByteOrd y) = legal i s := rfl
  show exec i (s.withByteOrd y) = .next (t.withByteOrd y)
  rcases exec_cases hexec with ⟨hl, rfl⟩ | ⟨hl, rfl⟩
  · rw [exec_of_legal (hlegal.trans hl), effect_withByteOrd hs hi]
  · rw [exec_of_illegal (hlegal.trans hl), illegalCommand_withByteOrd]

end Sys2Proof.Machine
end

section
/-! PROOF. The circular window: `CFGWIN` and the commands that append to ring and output (43_window.md R174-R181). -/

namespace Sys2Proof.Machine

/-! ### Legality (46_dispatch.md R238) -/

theorem legal_cfgwin_iff {cap prebuf : Field24} {fill : Byte} {s : State} :
    legal (.cfgwin cap prebuf fill) s = true ↔ s.state ≠ .decoding := by
  simp [legal_iff, Instr.op, Opcode.allowedIn, Opcode.trieOk]

/-- The commands that append to ring and output are legal in Decoding. -/
theorem legal_appending_iff {i : Instr} {s : State} (h : i.op ∈ [.liti, .litr, .litb, .copy]) :
    legal i s = true ↔ s.state = .decoding := by
  cases i with
  | liti _ | litr | litb | copy _ _ => simp [legal_iff, Instr.op, Opcode.allowedIn, Opcode.trieOk]
  | _ => simp [Instr.op] at h

theorem handledAsIllegal_of_ne_decoding {i : Instr} {s : State} (h : i.op ∈ [.liti, .litr, .litb, .copy])
    (hs : s.state ≠ .decoding) : HandledAsIllegal i s :=
  handledAsIllegal_of_not (mt (legal_appending_iff h).1 hs)

/-! ### The checks (43_window.md R176, R182) -/

theorem not_outRoom_iff {s : State} {n : Nat} : ¬ s.outRoom n = true ↔ s.params.outMax < s.outLen.toNat + n :=
  outRoom_iff.not.trans Nat.not_le

theorem displacementOk_iff {s : State} {d : Nat} :
    s.displacementOk d = true ↔ 1 ≤ d ∧ d ≤ s.prebuf.toNat + s.outLen.toNat ∧ d ≤ s.cap.toNat := by
  simp [State.displacementOk]

theorem not_displacementOk_iff {s : State} {d : Nat} :
    ¬ s.displacementOk d = true ↔ d < 1 ∨ s.prebuf.toNat + s.outLen.toNat < d ∨ s.cap.toNat < d := by
  rw [displacementOk_iff, not_and_or, not_and_or, Nat.not_le, Nat.not_le, Nat.not_le]

/-! ### Configuration -/

/-- Settles O52: legality splits the states, and the effect is the assignment itself. -/
theorem cfgwinSetsTheWindow : Obligations.CfgwinSetsTheWindow := fun _ _ _ =>
  ⟨rfl, fun _ => ⟨fun hs => exec_of_legal (legal_cfgwin_iff.2 hs),
    fun hs => handledAsIllegal_of_not fun hl => legal_cfgwin_iff.1 hl hs⟩⟩

/-! ### The literal commands -/

/-- `Emit` in Decoding with room in the output (43_window.md R173). -/
theorem State.Inv.appended_emit {s : State} (h : s.Inv) (hd : s.state = .decoding)
    (hroom : s.outLen.toNat + 1 ≤ s.params.outMax) (b : Byte) : Appended s (emit b s) b := by
  obtain ⟨-, -, -, -, -, hmax, -⟩ := h.params
  exact emit_appended b s h.winWf h.outWf.1 (h.decoding hd).capPos (by omega)

/-- Settles O53: the output check splits the legal case, and with room the effect is `Emit`. -/
theorem litiAppendsItsByte : Obligations.LitiAppendsItsByte := by
  intro b
  have hlegal : ∀ {s : State}, s.state = .decoding → legal (.liti b) s = true :=
    (legal_appending_iff (by simp [Instr.op])).2
  refine ⟨rfl, fun s => ⟨fun hinv hs hroom => ?_, fun hs hfull => ?_,
    handledAsIllegal_of_ne_decoding (by simp [Instr.op])⟩⟩
  · have heffect : effect (.liti b) s = emit b s := if_pos (outRoom_iff.2 hroom)
    exact ⟨_, exec_of_legal (hlegal hs), heffect ▸ hinv.appended_emit hs hroom b⟩
  · exact exec_failedWith (hlegal hs) (if_neg (not_outRoom_iff.2 hfull))

/-- Settles O54: as `LITI`, with the low byte of `RES`. -/
theorem litrAppendsTheLowByteOfRes : Obligations.LitrAppendsTheLowByteOfRes := by
  have hlegal : ∀ {s : State}, s.state = .decoding → legal .litr s = true := (legal_appending_iff (by decide)).2
  refine ⟨rfl, fun s => ⟨fun hinv hs hroom => ?_, fun hs hfull => ?_, handledAsIllegal_of_ne_decoding (by decide)⟩⟩
  · have heffect : effect .litr s = emit (s.res.setWidth 8) s := by
      rw [BitVec.setWidth_eq_extractLsb' (by decide)]
      exact if_pos (outRoom_iff.2 hroom)
    exact ⟨_, exec_of_legal (hlegal hs), heffect ▸ hinv.appended_emit hs hroom _⟩
  · exact exec_failedWith (hlegal hs) (if_neg (not_outRoom_iff.2 hfull))

/-- Settles O55: the output check splits the legal case first, then the availability check does. The byte is appended to
the state with `INPOS` and `RES` already written, which meets the invariant too. -/
theorem litbReadsAndAppendsAByte : Obligations.LitbReadsAndAppendsAByte := by
  have hlegal : ∀ {s : State}, s.state = .decoding → legal .litb s = true := (legal_appending_iff (by decide)).2
  have hinput : ∀ {s : State}, s.outLen.toNat + 1 ≤ s.params.outMax → effect .litb s =
      if s.available 1 then
        emit (s.inByte s.inPos.toNat) ((s.advance 1).setRes ((s.inByte s.inPos.toNat).setWidth 32))
      else raiseError (Opcode.code .litb) s .truncatedStream 0 s := fun hroom => if_pos (outRoom_iff.2 hroom)
  refine ⟨rfl, fun s => ⟨fun hinv hs hroom hlen => ?_, fun hs hfull => ?_, fun hs hroom hlen => ?_,
    handledAsIllegal_of_ne_decoding (by decide)⟩⟩
  · have hread := (hinv.advance (.inr hs) (available_iff.2 hlen)).setRes (.inr hs) ((s.inByte s.inPos.toNat).setWidth 32)
    refine ⟨_, exec_of_legal (hlegal hs), ?_⟩
    rw [hinput hroom, if_pos (available_iff.2 hlen)]
    exact hread.appended_emit hs hroom _
  · exact exec_failedWith (hlegal hs) (if_neg (not_outRoom_iff.2 hfull))
  · exact exec_failedWith (hlegal hs) ((hinput hroom).trans (if_neg (not_available_iff.2 hlen)))

/-! ### Back-reference copy -/

/-- Settles O56: the displacement check splits the legal case first, then the output check does, and a copy that passes both
is periodic (43_window.md R181). -/
theorem copyRepeatsTheBytesBehindTheCursor : Obligations.CopyRepeatsTheBytesBehindTheCursor := by
  intro d len
  have hlegal : ∀ {s : State}, s.state = .decoding → legal (.copy d len) s = true :=
    (legal_appending_iff (by simp [Instr.op])).2
  have hvalid : ∀ {s : State}, s.displacementOk d.toNat = true → effect (.copy d len) s =
      if s.outRoom len.toNat then copyBytes d.toNat len.toNat s
      else raiseError (Opcode.code .copy) s .unsupportedConfiguration 0 s := fun hd => if_pos hd
  refine ⟨rfl, fun s => ⟨fun hinv hs h1 havail hcap hroom => ?_, fun hs hd => ?_, fun hs h1 havail hcap hfull => ?_,
    handledAsIllegal_of_ne_decoding (by simp [Instr.op])⟩⟩
  · obtain ⟨-, -, -, -, -, hmax, -⟩ := hinv.params
    refine ⟨_, exec_of_legal (hlegal hs), ?_⟩
    rw [hvalid (displacementOk_iff.2 ⟨h1, havail, hcap⟩), if_pos (outRoom_iff.2 hroom)]
    exact (copyBytes_copied _ h1 _ s hinv.winWf hinv.outWf.1 (hinv.decoding hs).wptrLt hcap (by omega)).1
  · exact exec_failedWith (hlegal hs) (if_neg (not_displacementOk_iff.2 hd))
  · exact exec_failedWith (hlegal hs) ((hvalid (displacementOk_iff.2 ⟨h1, havail, hcap⟩)).trans
      (if_neg (not_outRoom_iff.2 hfull)))

end Sys2Proof.Machine
end

section
/-! PROOF. No command but `START` looks at `DECLEN` (43_window.md R183, 46_dispatch.md R235): every other one commutes with
a change of it. -/

namespace Sys2Proof.Machine

/-- `s` with declared length `n`. -/
def State.withDeclen (n : Word) (s : State) : State := { s with declen := n }

/-- Going on after an attempt whose state was changed by `f`, where what follows is changed by `f` too. -/
theorem Attempt.andThen_mapState {α β : Type} {f : State → State} {g g' : α → State → Attempt β}
    (h : ∀ v t, g v (f t) = (g' v t).mapState f) (r : Attempt α) :
    (r.mapState f).andThen g = (r.andThen g').mapState f := by
  cases r with
  | done v t => exact h v t
  | raised k t => rfl

section
variable (n : Word)

@[simp] theorem withDeclen_params (s : State) : (s.withDeclen n).params = s.params := rfl
@[simp] theorem withDeclen_unit (s : State) : (s.withDeclen n).unit = s.unit := rfl
@[simp] theorem withDeclen_used (s : State) : (s.withDeclen n).used = s.used := rfl
@[simp] theorem withDeclen_hwidth (s : State) : (s.withDeclen n).hwidth = s.hwidth := rfl
@[simp] theorem withDeclen_tree (s : State) : (s.withDeclen n).tree = s.tree := rfl

/-- A check that does not look at `DECLEN` chooses between two such branches. -/
theorem ite_withDeclen {p : Prop} [Decidable p] {a a' b b' : State} (ha : a' = a.withDeclen n)
    (hb : b' = b.withDeclen n) : (if p then a' else b') = (if p then a else b).withDeclen n := by
  split <;> assumption

theorem illegalCommand_withDeclen (opc : Byte) (s : State) :
    illegalCommand opc (s.withDeclen n) = (illegalCommand opc s).withDeclen n :=
  ite_withDeclen n rfl rfl

/-! ### The shared operations -/

theorem refill_withDeclen (s : State) : refill (s.withDeclen n) = (refill s).mapState (State.withDeclen n) := by
  rw [refill, refill, apply_ite (Attempt.mapState _)]
  rfl

theorem readBit_withDeclen (s : State) : readBit (s.withDeclen n) = (readBit s).mapState (State.withDeclen n) := by
  rw [readBit, readBit, withDeclen_used, withDeclen_unit, refill_withDeclen]
  split
  · exact Attempt.andThen_mapState (fun _ _ => rfl) _
  · rfl

theorem readBitsFrom_withDeclen (c : Nat) : ∀ (i : Nat) (v : Word) (s : State),
    readBitsFrom c i v (s.withDeclen n) = (readBitsFrom c i v s).mapState (State.withDeclen n) := by
  induction c with
  | zero => exact fun _ _ _ => rfl
  | succ c ih =>
    intro i v s
    rw [readBitsFrom, readBitsFrom, readBit_withDeclen]
    exact Attempt.andThen_mapState (fun b t => ih (i + 1) (joinBit t.bitOrd v i b) t) _

theorem readBits_withDeclen (c : Nat) (s : State) :
    readBits c (s.withDeclen n) = (readBits c s).mapState (State.withDeclen n) := readBitsFrom_withDeclen n c 0 0 s

theorem buildNode_withDeclen (levels : Nat) : ∀ (count : Nat) (s : State),
    buildNode levels count (s.withDeclen n) = (buildNode levels count s).mapState (State.withDeclen n) := by
  induction levels with
  | zero => exact fun _ _ => rfl
  | succ levels ih =>
    intro count s
    rw [buildNode, buildNode, withDeclen_params, readBit_withDeclen]
    split
    · rfl
    refine Attempt.andThen_mapState (fun b t => ?_) _
    split
    · rw [ih]
      refine Attempt.andThen_mapState (fun l u => ?_) _
      rw [ih]
      exact Attempt.andThen_mapState (fun _ _ => rfl) _
    · rw [withDeclen_hwidth, readBits_withDeclen]
      exact Attempt.andThen_mapState (fun _ _ => rfl) _

theorem walk_withDeclen (t : Trie) : ∀ s : State,
    walk t (s.withDeclen n) = (walk t s).mapState (State.withDeclen n) := by
  induction t with
  | leaf v => exact fun _ => rfl
  | branch l r hl hr =>
    intro s
    rw [walk, walk, readBit_withDeclen]
    refine Attempt.andThen_mapState (fun b u => ?_) _
    split
    · exact hr u
    · exact hl u

theorem copyBytes_withDeclen (d len : Nat) : ∀ s : State,
    copyBytes d len (s.withDeclen n) = (copyBytes d len s).withDeclen n := by
  induction len with
  | zero => exact fun _ => rfl
  | succ len ih => exact fun s => ih (emit (s.winByte (s.sourceIndex d)) s)

theorem setBitConfig_withDeclen (b : BitOrder) (y : ByteOrder) (u : RefillUnit) (s : State) :
    setBitConfig b y u (s.withDeclen n) = (setBitConfig b y u s).withDeclen n :=
  ite_withDeclen n rfl rfl

/-- A command that concludes an attempt which commutes with a change of `DECLEN`. -/
theorem conclude_withDeclen {α : Type} (o : Opcode) (start : State) {r r' : Attempt α}
    {finish : α → State → State} (hr : r' = r.mapState (State.withDeclen n))
    (hf : ∀ v t, finish v (t.withDeclen n) = (finish v t).withDeclen n) :
    conclude o (start.withDeclen n) r' finish = (conclude o start r finish).withDeclen n := by
  subst hr
  cases r with
  | done v t => exact hf v t
  | raised k t => rfl

/-! ### The commands -/

theorem effect_withDeclen {i : Instr} (hstart : i.op ≠ .start) (hcfglen : i.op ≠ .cfglen) (s : State) :
    effect i (s.withDeclen n) = (effect i s).withDeclen n := by
  cases i with
  | start => exact absurd rfl hstart
  | cfglen _ => exact absurd rfl hcfglen
  | nop | finish | cfgwin _ _ _ | align => rfl
  | begin | rdbytes _ | seek _ | getbyte | liti _ | litr => exact ite_withDeclen n rfl rfl
  | magic _ _ | litb => exact ite_withDeclen n (ite_withDeclen n rfl rfl) rfl
  | copy d len => exact ite_withDeclen n (ite_withDeclen n (copyBytes_withDeclen n d.toNat len.toNat s) rfl) rfl
  | fail kind _ =>
    simp only [effect]; split
    · rfl
    · exact illegalCommand_withDeclen ..
  | cfgbits _ _ c =>
    simp only [effect]; split
    · exact setBitConfig_withDeclen ..
    · exact illegalCommand_withDeclen ..
  | getbit => exact conclude_withDeclen n _ s (readBit_withDeclen n s) fun _ _ => rfl
  | getbits c => exact conclude_withDeclen n _ s (readBits_withDeclen n c.toNat s) fun _ _ => rfl
  | hbuild w =>
    exact conclude_withDeclen n _ s (buildNode_withDeclen n _ 0 { s with hwidth := w }) fun _ _ => rfl
  | hwalk =>
    simp only [effect, withDeclen_tree]; split
    · exact conclude_withDeclen n _ s (walk_withDeclen n _ s) fun _ _ => rfl
    · exact illegalCommand_withDeclen ..

end

/-- Settles O31: neither legality nor the effect of such a command depends on the declared length. -/
theorem declaredLengthIsNotEnforced : Obligations.DeclaredLengthIsNotEnforced := by
  intro i s t n hstart hcfglen hexec
  have hlegal : legal i (s.withDeclen n) = legal i s := rfl
  show exec i (s.withDeclen n) = .next (t.withDeclen n)
  rcases exec_cases hexec with ⟨hl, rfl⟩ | ⟨hl, rfl⟩
  · rw [exec_of_legal (hlegal.trans hl), effect_withDeclen n hstart hcfglen]
  · rw [exec_of_illegal (hlegal.trans hl), illegalCommand_withDeclen]

end Sys2Proof.Machine
end

section
/-! PROOF. The Huffman commands against the unread bit stream (45_huffman.md R202-R206). -/

namespace Sys2Proof.Machine

/-! ### Legality (30_encoding.md R98, 46_dispatch.md R238) -/

theorem legal_hbuild_iff {w : BitVec 6} {s : State} :
    legal (.hbuild w) s = true ↔ (1 ≤ w.toNat ∧ w.toNat ≤ 32) ∧ s.InSession ∧ s.tree = none := by
  simp [legal_iff, Instr.op, Opcode.allowedIn, Opcode.trieOk]

theorem legal_hwalk_iff {s : State} : legal .hwalk s = true ↔ s.InSession ∧ s.tree ≠ none := by
  simp [legal_iff, Instr.op, Opcode.allowedIn, Opcode.trieOk, Option.isSome_iff_ne_none]

/-! ### What the commands come to -/

/-- Failure entry after a read that moved only the cursors records the cursors of its start and changes nothing else
(60_exceptions.md R266). -/
theorem raiseError_failedWith {s u : State} (h : CursorOnly s u) (opc : Byte) (k : ErrorKind) (d : Word) :
    FailedWith s { raiseError opc s k d u with inPos := s.inPos, buf := s.buf, used := s.used } k opc d := by
  rw [h]
  rfl

/-- The state in which a build begins: `HWIDTH` is written first (45_huffman.md R202). -/
abbrev State.withHwidth (w : BitVec 6) (s : State) : State := { s with hwidth := w }

theorem hbuild_failedWith {w : BitVec 6} {s u : State} {k : ErrorKind} (hl : legal (.hbuild w) s = true)
    (hraise : buildNode (s.params.hufDepthMax + 1) 0 (s.withHwidth w) = .raised k u) :
    ∃ u, exec (.hbuild w) s = .next u ∧
      FailedWith s { u with inPos := s.inPos, buf := s.buf, used := s.used, hwidth := s.hwidth } k 0x28 0 := by
  have hframe := buildNode_frame (s.params.hufDepthMax + 1) 0 (s.withHwidth w)
  rw [hraise] at hframe
  have hfail := raiseError_failedWith hframe (Opcode.code .hbuild) k 0
  refine ⟨_, exec_of_legal hl, ?_⟩
  rw [effect, hraise]
  exact congrArg (State.withHwidth s.hwidth) hfail

/-- `HWALK` in a session with a trie is legal and walks it (45_huffman.md R204). -/
theorem exec_hwalk {s : State} {t : Trie} (hs : s.InSession) (ht : s.tree = some t) :
    exec .hwalk s = .next (conclude .hwalk s (walk t s) fun v u => u.setRes v) := by
  rw [exec_of_legal (legal_hwalk_iff.2 ⟨hs, by simp [ht]⟩)]
  simp only [effect, ht]

theorem exec_hwalk_done {s u : State} {t : Trie} {v : Word} (hs : s.InSession) (ht : s.tree = some t)
    (hdone : walk t s = .done v u) : exec .hwalk s = .next (u.setRes v) := by
  rw [exec_hwalk hs ht, hdone, conclude]

theorem hwalk_failedWith {s u : State} {t : Trie} {k : ErrorKind} (hs : s.InSession) (ht : s.tree = some t)
    (hraise : walk t s = .raised k u) :
    ∃ u, exec .hwalk s = .next u ∧
      FailedWith s { u with inPos := s.inPos, buf := s.buf, used := s.used } k 0x29 0 := by
  have hframe := walk_frame t s
  rw [hraise] at hframe
  refine ⟨_, exec_hwalk hs ht, ?_⟩
  rw [hraise]
  exact raiseError_failedWith hframe _ k 0

/-! ### `HBUILD` -/

theorem nextBits_take (s : State) {m n : Nat} (h : m ≤ n) : (s.nextBits n).take m = s.nextBits m := by
  rw [State.nextBits, ← List.map_take, List.take_range, Nat.min_eq_left h, State.nextBits]

/-- Writing `HWIDTH` leaves the cursors of a session alone. -/
theorem State.Inv.readOk_withHwidth {s : State} (h : s.Inv) (hs : s.InSession) (w : BitVec 6) :
    ReadOk (s.withHwidth w) := { (h.cursorsOk hs).readOk with }

/-- Settles O57: legality splits the states, and the build from the state with `HWIDTH` written gives the described trie or
ends with the stream. -/
theorem hbuildBuildsTheDescribedTrie : Obligations.HbuildBuildsTheDescribedTrie := by
  refine fun w => ⟨rfl, fun s => ⟨fun hinv hs hnone h1 h32 t hfits hdepth hnodes hhas hbits => ?_,
    fun hinv hs hnone h1 h32 t n hfits hwithin hlen hhas hend hbits => ?_,
    fun hill => handledAsIllegal_of_not fun hl => ?_⟩⟩
  · have hbuild := buildNode_describe t (s.params.hufDepthMax + 1) 0 (s.withHwidth w)
      (hinv.cursorsOk hs).usedLe h32 hfits (Nat.lt_succ_of_le hdepth) (by simpa using hnodes) hhas hbits
    rw [exec_of_legal (legal_hbuild_iff.2 ⟨⟨h1, h32⟩, hs, hnone⟩), effect, hbuild, Nat.zero_add]
    rfl
  · obtain ⟨u, hraise⟩ := buildNode_truncated t (s.params.hufDepthMax + 1) 0 (s.withHwidth w) n
      (hinv.readOk_withHwidth hs w) h32 hfits
      (fun j m k hnode hm => (hwithin j m k hnode hm).imp Nat.lt_succ_of_le (by simp)) hlen hhas hend hbits
    exact hbuild_failedWith (legal_hbuild_iff.2 ⟨⟨h1, h32⟩, hs, hnone⟩) hraise
  · obtain ⟨⟨h1, h32⟩, hs, hnone⟩ := legal_hbuild_iff.1 hl
    rcases hill with h | h | h | h
    · exact h hs
    · exact h hnone
    · exact Nat.not_lt.2 h1 h
    · exact Nat.not_lt.2 h32 h

/-- Settles O58: a build is refused at a node beyond the limits, and a trie beyond them has such a node within its
description. -/
theorem hbuildRefusesTriesBeyondTheLimits : Obligations.HbuildRefusesTriesBeyondTheLimits := by
  intro w s t hinv hs hnone h1 h32 hfits
  refine (and_iff_right_of_imp fun hrefuse hover hhas hbits => ?_).2 fun j n k hnode hover hhas hbits => ?_
  · obtain ⟨j, n, k, hnode, hbeyond⟩ := t.nodeAt_over s.bitOrd w.toNat
      (levels := s.params.hufDepthMax + 1) (count := 0) (max := s.params.hufNodesMax) (by simpa using hover)
    have hn := (t.nodeAt_lt _ _ j n k hnode).le
    exact hrefuse j n k hnode (by simpa using hbeyond) (streamHas_mono hn hhas) (by rw [← hbits, nextBits_take s hn])
  · obtain ⟨u, hraise⟩ := buildNode_refused t (s.params.hufDepthMax + 1) 0 (s.withHwidth w) j n k
      (hinv.readOk_withHwidth hs w) h32 hfits (Nat.zero_le _) hnode (by simpa using hover) hhas hbits
    exact hbuild_failedWith (legal_hbuild_iff.2 ⟨⟨h1, h32⟩, hs, hnone⟩) hraise

/-! ### `HWALK` -/

/-- Reading nothing takes no refill. -/
theorem streamHas_zero {s : State} (h : ReadOk s) : s.streamHas 0 := by
  have hpos := bits_pos s.unit
  have hused := h.usedLe
  rw [State.streamHas, State.unitsFor, Nat.div_eq_of_lt (by omega), Nat.zero_mul]
  exact h.inPosLe

/-- A walk of `t` reads at most its depth: the bits down to a leaf, or those that the stream still holds (45_huffman.md
R204, R206). -/
abbrev WalkEnds (t : Trie) (s : State) : Prop :=
  (∃ n v, n ≤ t.depth ∧ s.streamHas n ∧ t.follow (s.nextBits n) = some v ∧ walk t s = .done v (s.skipBits n)) ∨
  (∃ n u, n ≤ t.depth ∧ ¬ s.streamHas n ∧ walk t s = .raised .truncatedStream u)

/-- At a branch a walk goes on at the child that the next bit names, one bit further down. -/
theorem walkEnds_branch {l r : Trie} {s : State} (h : ReadOk s) (h1 : s.streamHas 1)
    (hchild : WalkEnds (if s.streamBit 0 then r else l) (s.skipBits 1)) : WalkEnds (.branch l r) s := by
  have hwalk : walk (.branch l r) s = walk (if s.streamBit 0 then r else l) (s.skipBits 1) := by
    rw [walk, readBit_done h.usedLe h1, Attempt.andThen, apply_ite (walk · _)]
  have hdepth : 1 + (if s.streamBit 0 then r else l).depth ≤ (Trie.branch l r).depth := by
    rw [Trie.depth]; split <;> omega
  have hhas : ∀ n, s.streamHas (n + 1) ↔ (s.skipBits 1).streamHas n := fun n =>
    Nat.add_comm 1 n ▸ streamHas_add n h.usedLe h1
  rcases hchild with ⟨n, v, hn, hbits, hleaf, hdone⟩ | ⟨n, u, hn, hend, hraise⟩
  · refine .inl ⟨n + 1, v, by omega, (hhas n).2 hbits, ?_, ?_⟩
    · rw [nextBits_succ n h.usedLe h1, Trie.follow, ← hleaf, apply_ite (Trie.follow · _)]
    · rw [hwalk, hdone, skipBits_skip h.usedLe (Nat.add_comm n 1 ▸ (hhas n).2 hbits), Nat.add_comm]
  · exact .inr ⟨n + 1, u, by omega, mt (hhas n).1 hend, hwalk.trans hraise⟩

theorem walkEnds (t : Trie) : ∀ s : State, ReadOk s → WalkEnds t s := by
  induction t with
  | leaf v => exact fun s h => .inl ⟨0, v, Nat.le_refl _, streamHas_zero h, rfl, by rw [walk, skipBits_zero s h.usedLe]⟩
  | branch l r hl hr =>
    intro s h
    rcases readBit_cases h with ⟨h1, -⟩ | ⟨h1, hread⟩
    · refine walkEnds_branch h h1 ?_
      split
      · exact hr _ (h.skip h1)
      · exact hl _ (h.skip h1)
    · exact .inr ⟨1, s, Nat.le_add_right _ _, h1, by rw [walk, hread, Attempt.andThen]⟩

/-- Settles O59: a walk along a path gives its leaf, and a walk that ends at a leaf has read no more bits than the stream
holds. -/
theorem hwalkDecodesASymbol : Obligations.HwalkDecodesASymbol := by
  refine ⟨rfl, fun s => ⟨fun hinv hs t p v ht hpath hhas hbits => ?_, fun hinv hs t n ht hhas hend hnoLeaf => ?_,
    fun hill => handledAsIllegal_of_not ?_⟩⟩
  · exact exec_hwalk_done hs ht (walk_follow t p v s (hinv.cursorsOk hs).usedLe hpath hhas hbits)
  · rcases walkEnds t s (hinv.cursorsOk hs).readOk with ⟨m, v, -, hm, hleaf, -⟩ | ⟨-, u, -, -, hraise⟩
    · have hle : m ≤ n := Nat.not_lt.1 fun hlt => hend (streamHas_mono hlt hm)
      exact absurd ((hnoLeaf m hle).symm.trans hleaf) nofun
    · exact hwalk_failedWith hs ht hraise
  · rw [legal_hwalk_iff]
    rintro ⟨hs, hsome⟩
    exact hill.elim (absurd hs) (absurd · hsome)

/-- Settles O60: the depth of a built trie is within the limit. -/
theorem hwalkReadsAtMostTheDepthLimit : Obligations.HwalkReadsAtMostTheDepthLimit := by
  intro s t hinv hs ht
  have hlimit := (hinv.trie t ht).depthLe
  rcases walkEnds t s (hinv.cursorsOk hs).readOk with ⟨n, v, hn, hhas, hleaf, hdone⟩ | ⟨n, u, hn, hend, hraise⟩
  · exact .inl ⟨n, v, hn.trans hlimit, hhas, hleaf, exec_hwalk_done hs ht hdone⟩
  · obtain ⟨u, hexec, hfail⟩ := hwalk_failedWith hs ht hraise
    exact .inr ⟨n, u, hn.trans hlimit, hend, hexec, hfail⟩

end Sys2Proof.Machine
end

section
/-! PROOF. The session control commands (46_dispatch.md R231-R237), the state table (R238), the transitions of the session
state machine (R230), and what a completed session keeps (R239). -/

namespace Sys2Proof.Machine

/-! ### Legality (46_dispatch.md R238) -/

theorem legal_start_iff {s : State} : legal .start s = true ↔ s.state = .headerPending := by
  simp [legal_iff, Instr.op, Opcode.allowedIn, Opcode.trieOk]

theorem legal_finish_iff {s : State} : legal .finish s = true ↔ s.state = .decoding := by
  simp [legal_iff, Instr.op, Opcode.allowedIn, Opcode.trieOk]

theorem legal_fail_iff {kind : BitVec 3} {diag : Word} {s : State} :
    legal (.fail kind diag) s = true ↔ s.InSession ∧ 1 ≤ kind.toNat ∧ kind.toNat ≤ 4 := by
  simp [legal_iff, Instr.op, Opcode.allowedIn, Opcode.trieOk, and_comm]

/-- The configuration commands are legal outside Decoding. -/
theorem legal_config_iff {i : Instr} {s : State} (h : i.op ∈ [.cfgwin, .cfgbits, .cfglen]) :
    legal i s = true ↔ i.WellFormed ∧ s.state ≠ .decoding := by
  cases i with
  | cfgwin _ _ _ | cfgbits _ _ _ | cfglen _ => simp [legal_iff, Instr.op, Opcode.allowedIn, Opcode.trieOk]
  | _ => simp [Instr.op] at h

/-- Settles O32: a refused word and an illegal command are one operation, and the state table and the trie tests are read off
command by command. -/
theorem illegalCommandsFailOrAreIgnored : Obligations.IllegalCommandsFailOrAreIgnored := by
  refine ⟨fun w e s hd => execWord_refused hd s, fun i s => handledAsIllegal, fun i s => ?_⟩
  rw [legal_iff]
  refine and_congr_right fun _ => ?_
  cases i with
  | hwalk => simp [Instr.op, Opcode.allowedIn, Opcode.trieOk, Option.isSome_iff_ne_none]
  | _ => simp [Instr.op, Opcode.allowedIn, Opcode.trieOk]

/-! ### `NOP` and `BEGIN` -/

/-- Every bit below the opcode of `NOP` must be zero (30_encoding.md R94). -/
theorem and_zeros_nop {w : CmdWord} (hopc : opcField w = 0) :
    w &&& packWord 0 (Opcode.zeroX .nop) (Opcode.zeroA .nop) = w := by
  have ho : opcField w &&& 0 = opcField w := by rw [hopc]; rfl
  have hx : xField w &&& Opcode.zeroX .nop = xField w := BitVec.and_allOnes
  have ha : aField w &&& Opcode.zeroA .nop = aField w := BitVec.and_allOnes
  conv_lhs => rw [← packWord_fields w, packWord_and, ho, hx, ha, packWord_fields]

/-- Settles O36: `NOP` is legal everywhere and has no effect; a non-zero bit of its word is a must-be-zero bit. -/
theorem nopChangesNothing : Obligations.NopChangesNothing := by
  refine ⟨rfl, fun s => exec_of_legal rfl, fun w hopc hw => decode_of_mustBeZero hopc ?_⟩
  rwa [and_zeros_nop hopc]

/-- Settles O37: the one check of `BEGIN` comes after the new session has begun. -/
theorem beginStartsASession : Obligations.BeginStartsASession := by
  refine ⟨rfl, fun s => ⟨fun hlen => ⟨newSession s, ?_, rfl⟩, fun hlen => ⟨newSession s, _, ?_, rfl, rfl⟩⟩⟩
  · exact (exec_of_legal (legal_begin s)).trans (congrArg _ (if_pos hlen))
  · exact (exec_of_legal (legal_begin s)).trans (congrArg _ (if_neg (Nat.not_le.2 hlen)))

/-! ### `START` -/

theorem not_startOk_iff {s : State} : ¬ s.startOk = true ↔
    s.cap.toNat < 1 ∨ s.params.winMax < s.cap.toNat ∨ s.cap.toNat < s.prebuf.toNat ∨ s.params.outMax < s.declen.toNat := by
  rw [startOk_iff, not_and_or, not_and_or, not_and_or, Nat.not_le, Nat.not_le, Nat.not_le, Nat.not_le, or_assoc, or_assoc]

/-- `START` with a configuration the block can run (46_dispatch.md R233). -/
theorem exec_start_ok {s : State} (hs : s.state = .headerPending) (h1 : 1 ≤ s.cap.toNat)
    (hmax : s.cap.toNat ≤ s.params.winMax) (hpre : s.prebuf.toNat ≤ s.cap.toNat)
    (hdec : s.declen.toNat ≤ s.params.outMax) : exec .start s = .next { winInit s with state := .decoding } :=
  (exec_of_legal (legal_start_iff.2 hs)).trans
    (congrArg _ (if_pos (startOk_iff.2 ⟨⟨⟨h1, hmax⟩, hpre⟩, hdec⟩)))

/-- `WPTR` is 24 bits wide, as `PREBUF` is, so the cursor that `START` sets is not truncated (43_window.md R175). -/
theorem winInit_wptr_toNat (s : State) : (winInit s).wptr.toNat = s.prebuf.toNat % s.cap.toNat := by
  rw [winInit_wptr, BitVec.toNat_ofNat]
  exact Nat.mod_eq_of_lt ((Nat.mod_le _ _).trans_lt s.prebuf.isLt)

/-- Settles O38: the checks of `startOk` split the legal case, and a ring that lists nothing holds its fill byte. -/
theorem startChecksAndFillsTheRing : Obligations.StartChecksAndFillsTheRing := by
  refine ⟨rfl, fun s => ⟨fun hs h1 hmax hpre hdec => ?_, fun hs hbad => ?_, fun hs => ?_⟩⟩
  · exact ⟨_, exec_start_ok hs h1 hmax hpre hdec, rfl, winInit_wptr_toNat s, fun _ => rfl⟩
  · exact exec_failedWith (legal_start_iff.2 hs) (if_neg (not_startOk_iff.2 hbad))
  · exact handledAsIllegal_of_not (mt legal_start_iff.1 hs)

/-! ### `FINISH`, `FAIL` and `CFGLEN` -/

/-- Settles O39: legality splits the states, and the effect is the assignment itself. -/
theorem finishCompletesTheSession : Obligations.FinishCompletesTheSession :=
  ⟨rfl, fun _ => ⟨fun hs => exec_of_legal (legal_finish_iff.2 hs),
    fun hs => handledAsIllegal_of_not (mt legal_finish_iff.1 hs)⟩⟩

theorem failKind_eq_some_iff {kind : BitVec 3} {k : ErrorKind} : failKind kind = some k ↔ NamesKind kind k := by
  revert kind; cases k <;> decide

theorem NamesKind.legal {kind : BitVec 3} {k : ErrorKind} (h : NamesKind kind k) : 1 ≤ kind.toNat ∧ kind.toNat ≤ 4 := by
  omega

/-- Settles O40: a legal kind names its error, which is raised out of the state the command began in. -/
theorem failRecordsTheHostsError : Obligations.FailRecordsTheHostsError := by
  refine fun kind diag => ⟨rfl, fun s => ⟨fun hs k hk => ?_, fun hill => ?_⟩⟩
  · have hraise : effect (.fail kind diag) s = raiseError (Opcode.code .fail) s k diag s := by
      simp only [effect, failKind_eq_some_iff.2 hk]
    exact exec_failedWith (legal_fail_iff.2 ⟨hs, hk.legal⟩) hraise
  · refine handledAsIllegal_of_not ?_
    rwa [legal_fail_iff, not_and_or, not_and_or, Nat.not_le, Nat.not_le]

/-- Settles O41: legality splits the states, and the effect is the assignment itself. -/
theorem cfglenSetsTheDeclaredLength : Obligations.CfglenSetsTheDeclaredLength := by
  intro n
  have hlegal : ∀ {s : State}, legal (.cfglen n) s = true ↔ True ∧ s.state ≠ .decoding :=
    legal_config_iff (by simp [Instr.op])
  exact ⟨rfl, fun s => ⟨fun hs => exec_of_legal (hlegal.2 ⟨trivial, hs⟩),
    fun hs => handledAsIllegal_of_not fun hl => (hlegal.1 hl).2 hs⟩⟩

/-! ### Commands in a rest state -/

/-- `t` differs from `s` at most in the configuration registers (46_dispatch.md R239). -/
abbrev ConfigOnly (s t : State) : Prop :=
  t = { s with
    cap := t.cap
    prebuf := t.prebuf
    fill := t.fill
    bitOrd := t.bitOrd
    byteOrd := t.byteOrd
    unit := t.unit
    declen := t.declen }

/-- A command but `BEGIN` that is legal in a rest state is `NOP` or configures (46_dispatch.md R238). -/
theorem effect_rest_cases {i : Instr} {s : State} (hl : legal i s = true) (hs : ¬ s.InSession) (hi : i ≠ .begin) :
    (i = .nop ∧ effect i s = s) ∨ (i.op ∈ [.cfgwin, .cfgbits, .cfglen] ∧ ConfigOnly s (effect i s)) := by
  obtain ⟨hv, hallowed, -⟩ := (legal_iff i s).1 hl
  cases i with
  | nop => exact .inl ⟨rfl, rfl⟩
  | begin => exact absurd rfl hi
  | cfgwin _ _ _ | cfglen _ => exact .inr ⟨by simp [Instr.op], rfl⟩
  | cfgbits b y c =>
    refine .inr ⟨by simp [Instr.op], ?_⟩
    obtain ⟨u, hu⟩ := Option.ne_none_iff_exists'.1 (ofUcode_of_legal hv)
    simp only [effect, hu, setBitConfig, if_neg (not_or.1 hs).1]
  | _ => exact absurd (inSession_of_allowedIn hallowed (by simp [Instr.op])) hs

/-- In a rest state a command but `BEGIN` changes at most `IGN` and the configuration. -/
theorem exec_rest_configOnly {i : Instr} {s t : State} (h : exec i s = .next t) (hs : ¬ s.InSession) (hi : i ≠ .begin) :
    ConfigOnly { s with ign := t.ign } t := by
  rcases exec_cases h with ⟨hl, rfl⟩ | ⟨-, rfl⟩
  · rw [effect_ign hl hi]
    rcases effect_rest_cases hl hs hi with ⟨-, he⟩ | ⟨-, he⟩
    · rw [he]
    · exact he
  · rw [illegalCommand_rest hs]

/-- Settles O30: Complete is a rest state, where only `NOP` and the configuration commands are legal; a well-formed
configuration command is, and so keeps `IGN`. -/
theorem completedSessionIsFrozen : Obligations.CompletedSessionIsFrozen := by
  intro i s t hs hi h
  have hrest : ¬ s.InSession := by rw [State.InSession, hs]; decide
  refine ⟨exec_rest_configOnly h hrest hi, fun hconfig => ?_, fun hconfig hv => ?_⟩
  · rcases exec_cases h with ⟨hl, rfl⟩ | ⟨-, rfl⟩
    · rcases effect_rest_cases hl hrest hi with ⟨-, he⟩ | ⟨hmem, -⟩
      · rw [he]
      · exact absurd hmem hconfig
    · rw [illegalCommand_rest hrest]
  · have hl : legal i s = true := (legal_config_iff hconfig).2 ⟨hv, by rw [hs]; decide⟩
    rw [exec_of_legal hl] at h
    cases h
    exact effect_ign hl hi

/-! ### The session state machine (46_dispatch.md R230) -/

theorem effect_begin_state (s : State) :
    (effect .begin s).state = if s.inLen.toNat ≤ s.params.inMax then .headerPending else .failed :=
  apply_ite State.state ..

/-- In a session a command but `BEGIN` fails it, or is legal, not `FAIL`, and changes `STATE` as only `START` and `FINISH`
do. -/
theorem exec_session_cases {i : Instr} {s t : State} (h : exec i s = .next t) (hs : s.InSession) (hi : i ≠ .begin) :
    t.state = .failed ∨ (legal i s = true ∧ i.op ≠ .fail ∧
      t.state = if i = .start then .decoding else if i = .finish then .complete else s.state) := by
  rcases exec_cases h with ⟨hl, rfl⟩ | ⟨-, rfl⟩
  · rcases effect_cases i s hl with ⟨k, d, u, he, -⟩ | ⟨hb, -⟩ | ⟨-, hfail, hstate⟩
    · exact .inl (he ▸ rfl)
    · exact absurd hb hi
    · exact .inr ⟨hl, hfail, hstate⟩
  · exact .inl (illegalCommand_session hs _ ▸ rfl)

/-- Settles O24: `BEGIN` by its own check, a rest state by what a command may change there, a session by its cases. -/
theorem commandsMakeOnlyTheListedTransitions : Obligations.CommandsMakeOnlyTheListedTransitions := by
  intro i s t h
  refine ⟨?_, fun hi hs => ?_, ?_, ?_, fun hi hs hfail => ?_, fun hi hs => ?_⟩
  · rintro rfl
    rw [exec_of_legal (legal_begin s)] at h
    cases h
    exact effect_begin_state s
  · rw [exec_rest_configOnly h hs hi]
  · rintro rfl hs ⟨h1, hmax, hpre, hdec⟩
    rw [exec_start_ok hs h1 hmax hpre hdec] at h
    cases h
    rfl
  · rintro rfl hs
    rw [exec_of_legal (legal_finish_iff.2 hs)] at h
    cases h
    rfl
  · rcases exec_session_cases h hs hi with hf | ⟨hl, hne, -⟩
    · exact hf
    · rcases hfail with hill | hop
      · exact absurd (hl.symm.trans hill) (by decide)
      · exact absurd hop hne
  · rcases exec_session_cases h hs hi with hf | ⟨hl, -, hstate⟩
    · exact .inr (.inl hf)
    split at hstate
    · subst i
      exact .inr (.inr (.inl ⟨rfl, legal_start_iff.1 hl, hstate⟩))
    split at hstate
    · subst i
      exact .inr (.inr (.inr ⟨rfl, legal_finish_iff.1 hl, hstate⟩))
    · exact .inl hstate

end Sys2Proof.Machine
end

section
/-! PROOF. The error record: what a failing command records (60_exceptions.md R261-R263, R266), and how long the record stays
(R270). -/

namespace Sys2Proof.Machine

/-! ### What each command may raise -/

/-- The error kinds that 60_exceptions.md R262 lists for a command. -/
def MayRaise : Instr → ErrorKind → Prop
  | .magic _ _, k => k = .invalidHeader ∨ k = .truncatedStream
  | .rdbytes _, k | .seek _, k | .getbit, k | .getbits _, k | .getbyte, k | .hwalk, k => k = .truncatedStream
  | .litb, k | .hbuild _, k => k = .truncatedStream ∨ k = .unsupportedConfiguration
  | .copy _ _, k => k = .displacementOutOfRange ∨ k = .unsupportedConfiguration
  | .begin, k | .start, k | .liti _, k | .litr, k => k = .unsupportedConfiguration
  | .fail kind _, k => NamesKind kind k
  | .nop, _ | .finish, _ | .cfgwin _ _ _, _ | .cfgbits _ _ _, _ | .cfglen _, _ | .align, _ => False

/-- The diagnostic displacement that a command records with an error (60_exceptions.md R263). -/
def errorDisp : Instr → Option ErrorKind → Word
  | .copy disp _, k => if k = some .displacementOutOfRange then disp.setWidth 32 else 0
  | .fail _ diag, k => if k = some .illegalCommand then 0 else diag
  | _, _ => 0

/-- The state whose cursors a failing command records: for `BEGIN`, that of the new session (60_exceptions.md R263). -/
def beginsIn : Instr → State → State
  | .begin, s => newSession s
  | _, s => s

theorem errorDisp_illegalCommand (i : Instr) : errorDisp i (some .illegalCommand) = 0 := by cases i <;> rfl

theorem beginsIn_of_ne_begin {i : Instr} (h : i ≠ .begin) (s : State) : beginsIn i s = s := by
  cases i with
  | begin => exact absurd rfl h
  | _ => rfl

theorem beginsIn_outLen (i : Instr) (s : State) : (beginsIn i s).outLen = if i = .begin then 0 else s.outLen := by
  split
  case isTrue h => rw [h]; rfl
  case isFalse h => rw [beginsIn_of_ne_begin h]

theorem beginsIn_inPos (i : Instr) (s : State) : (beginsIn i s).inPos = if i = .begin then 0 else s.inPos := by
  split
  case isTrue h => rw [h]; rfl
  case isFalse h => rw [beginsIn_of_ne_begin h]

/-! ### Failing commands -/

/-- Command `i`, issued in `s`, enters Failed as `t` with error kind `k` (60_exceptions.md R266). -/
def FailsWith (i : Instr) (s t : State) (k : ErrorKind) : Prop :=
  ∃ u, t = raiseError i.op.code (beginsIn i s) k (errorDisp i (some k)) u

/-- If command `i`, issued in `s`, has failed in `t`, it is with a kind listed for it. -/
def FailsAsListed (i : Instr) (s t : State) : Prop := t.state = .failed → ∃ k, MayRaise i k ∧ FailsWith i s t k

section
variable {i : Instr} {s t : State}

theorem FailsAsListed.of_live (h : t.state ≠ .failed) : FailsAsListed i s t := fun hf => absurd hf h

theorem FailsAsListed.of_raise {k : ErrorKind} {u : State} (h : MayRaise i k) :
    FailsAsListed i s (raiseError i.op.code (beginsIn i s) k (errorDisp i (some k)) u) := fun _ => ⟨k, h, u, rfl⟩

theorem FailsAsListed.ite {p : Prop} [Decidable p] {u : State} (ht : FailsAsListed i s t) (hu : FailsAsListed i s u) :
    FailsAsListed i s (if p then t else u) := by
  split <;> assumption

/-- A command that reads, and ends in the session state it began in or raises out of the read with displacement 0. -/
theorem FailsAsListed.conclude {α : Type} {r : Attempt α} {finish : α → State → State} (hi : beginsIn i s = s)
    (hd : ∀ k, errorDisp i k = 0) (hraises : r.Raises (MayRaise i)) (hframe : CursorOnly t r.final)
    (hlive : t.state ≠ .failed) (hfinish : ∀ v u, (finish v u).state = u.state) :
    FailsAsListed i s (conclude i.op s r finish) := by
  cases r with
  | done v u =>
    refine .of_live (t := finish v u) ?_
    change CursorOnly t u at hframe
    rwa [hfinish, hframe]
  | raised k u =>
    have hraise := of_raise (s := s) (u := u) (hraises k u rfl)
    rwa [hi, hd] at hraise

end

/-- No operand of `FAIL` names `IllegalCommand` (60_exceptions.md R261). -/
theorem failKind_ne_illegalCommand {kind : BitVec 3} {k : ErrorKind} (h : failKind kind = some k) :
    k ≠ .illegalCommand := by
  rintro rfl
  revert kind; decide

/-- A legal command that has failed, where it was not issued in Failed or began a new session, raised a kind listed for it
(60_exceptions.md R262). -/
theorem effect_failsAsListed {i : Instr} {s : State} (hl : legal i s = true) (hs : i ≠ .begin → s.state ≠ .failed) :
    FailsAsListed i s (effect i s) := by
  obtain ⟨hv, -, htree⟩ := (legal_iff i s).1 hl
  have live : i ≠ .begin → ∀ {t : State}, t.state = s.state → FailsAsListed i s t := fun hi _ ht =>
    .of_live (ht ▸ hs hi)
  have raised : ∀ {k u}, MayRaise i k →
      FailsAsListed i s (raiseError i.op.code (beginsIn i s) k (errorDisp i (some k)) u) := .of_raise
  cases i with
  | nop | cfgwin _ _ _ | cfglen _ | align => exact live nofun rfl
  | begin | start => exact .ite (.of_live nofun) (raised rfl)
  | finish => exact .of_live nofun
  | fail kind diag =>
    simp only [effect]; split
    case h_1 k hk =>
      have hraise := raised (u := s) (failKind_eq_some_iff.1 hk)
      rwa [errorDisp, if_neg (by simpa using failKind_ne_illegalCommand hk)] at hraise
    case h_2 hnone => exact absurd hnone (failKind_of_legal hv)
  | cfgbits _ _ c =>
    simp only [effect]; split
    · exact live nofun (by unfold setBitConfig; split <;> rfl)
    · exact absurd ‹_› (ofUcode_of_legal hv)
  | rdbytes _ | seek _ | getbyte | liti _ | litr => exact .ite (live nofun rfl) (raised rfl)
  | magic _ _ | litb => exact .ite (.ite (live nofun rfl) (raised (.inl rfl))) (raised (.inr rfl))
  | copy d len =>
    exact .ite (.ite (live nofun (by rw [copyBytes_frame])) (raised (.inr rfl))) (raised (.inl rfl))
  | getbit =>
    exact .conclude rfl (fun _ => rfl) (readBit_raises s) (readBit_frame s) (hs nofun) fun _ _ => rfl
  | getbits c =>
    exact .conclude rfl (fun _ => rfl) (readBits_raises _ s) (readBits_frame _ s) (hs nofun) fun _ _ => rfl
  | hbuild w =>
    have hframe := buildNode_frame (s.params.hufDepthMax + 1) 0 { s with hwidth := w }
    exact .conclude rfl (fun _ => rfl) (buildNode_raises _ 0 _) hframe (hs nofun) fun _ _ => rfl
  | hwalk =>
    obtain ⟨t, ht⟩ := Option.isSome_iff_exists.1 htree
    simp only [effect, ht]
    exact .conclude rfl (fun _ => rfl) (walk_raises t s) (walk_frame t s) (hs nofun) fun _ _ => rfl

/-- A command that has failed raised a kind listed for it or was illegal, in a session. -/
theorem exec_failed {i : Instr} {s t : State} (h : exec i s = .next t) (hf : t.state = .failed)
    (hs : s.state ≠ .failed ∨ i = .begin) : ∃ k, (k ≠ .illegalCommand → MayRaise i k) ∧ FailsWith i s t k := by
  have hlive : i ≠ .begin → s.state ≠ .failed := hs.resolve_right
  rcases exec_cases h with ⟨hl, rfl⟩ | ⟨hl, rfl⟩
  · obtain ⟨k, hk, hw⟩ := effect_failsAsListed hl hlive hf
    exact ⟨k, fun _ => hk, hw⟩
  · have hi : i ≠ .begin := by rintro rfl; exact absurd (hl.symm.trans (legal_begin s)) (by decide)
    by_cases hsess : s.InSession
    · refine ⟨.illegalCommand, absurd rfl, s, ?_⟩
      rw [illegalCommand_session hsess, beginsIn_of_ne_begin hi, errorDisp_illegalCommand]
    · rw [illegalCommand_rest hsess] at hf
      exact absurd hf (hlive hi)

/-- Settles O33: a failed command entered Failed by `raiseError`, which writes the record. -/
theorem failureRecordIsPrecise : Obligations.FailureRecordIsPrecise := by
  intro i s t h hf hs
  obtain ⟨k, -, u, rfl⟩ := exec_failed h hf hs
  refine ⟨nofun, rfl, beginsIn_outLen i s, beginsIn_inPos i s, ?_⟩
  cases i <;> rfl

/-- Settles O34: the recorded kind is the one raised. -/
theorem eachCommandRaisesOnlyItsKinds : Obligations.EachCommandRaisesOnlyItsKinds := by
  intro i s t k h hf hs hk hne
  obtain ⟨k', hraises, u, rfl⟩ := exec_failed h hf hs
  obtain rfl : k' = k := Option.some.inj hk
  have hlisted := hraises hne
  cases i <;> exact hlisted

/-! ### How long the record stays -/

/-- `t` holds the failure of `s` (60_exceptions.md R270). -/
abbrev SameFailure (s t : State) : Prop :=
  t.state = .failed ∧ t.errKind = s.errKind ∧ t.errOpc = s.errOpc ∧ t.errDisp = s.errDisp ∧
  t.errOutLen = s.errOutLen ∧ t.errInPos = s.errInPos

/-- In Failed a word other than `BEGIN` leaves the record: it configures, does nothing, or is ignored as illegal. -/
theorem execWord_sameFailure {w : CmdWord} {s t : State} (hs : s.state = .failed) (h : execWord w s = .next t)
    (hw : decode w ≠ .ok .begin) : SameFailure s t := by
  have hrest : ¬ s.InSession := by rw [State.InSession, hs]; decide
  cases hd : decode w with
  | ok i =>
    rw [execWord_ok hd] at h
    rw [exec_rest_configOnly h hrest fun hi => hw (hi ▸ hd)]
    exact ⟨hs, rfl, rfl, rfl, rfl, rfl⟩
  | error e =>
    rw [execWord_error hd, illegalCommand_rest hrest] at h
    cases h
    exact ⟨hs, rfl, rfl, rfl, rfl, rfl⟩

/-- Settles O35: the step is a reset, executes a word, or changes no element of the record. -/
theorem firstErrorRecordSurvives : Obligations.FirstErrorRecordSurvives := by
  intro s t hs h
  have same : SameFailure s s := ⟨hs, rfl, rfl, rfl, rfl, rfl⟩
  rcases step_cases h with ⟨-, rfl⟩ | ⟨e, rest, hbus, hcase⟩
  · exact .inr (.inr same)
  rcases hcase with rfl | ⟨v, rfl⟩ | ⟨rfl, rfl⟩ | ⟨v, rfl⟩ | ⟨v, -, rfl⟩ | ⟨k, v, -, -, rfl⟩ | ⟨v, rfl, hexec⟩
  · exact .inr (.inr same)
  · exact .inr (.inr same)
  · exact .inl ⟨rest, hbus⟩
  · exact .inr (.inr same)
  · exact .inr (.inr same)
  · rw [storeWord_frame]
    exact .inr (.inr same)
  · by_cases hw : decode (v ++ s.cmdA) = .ok .begin
    · exact .inr (.inl ⟨_, ⟨v, rest, hbus, rfl⟩, hw⟩)
    · exact .inr (.inr (execWord_sameFailure (s := { s with bus := rest }) hs hexec hw))

/-- Settles O7: the step looks at the event list alone. -/
theorem quietBlockHoldsItsState : Obligations.QuietBlockHoldsItsState := by
  intro s h
  simp only [step, h]

end Sys2Proof.Machine
end

section
/-! PROOF. Stale bytes of `OUT` (10_state.md R47): no command looks at them, so two sessions that differ only there keep to
that. -/

namespace Sys2Proof.Machine

/-! ### Changes that reading does not see -/

/-- The reader `r` commutes with the change `f` of the state. -/
def CommutesWith {α : Type} (f : State → State) (r : State → Attempt α) : Prop := ∀ s, r (f s) = (r s).mapState f

/-- A change that reading neither looks at nor undoes. -/
structure Unread (f : State → State) : Prop where
  used : ∀ s, (f s).used = s.used
  unit : ∀ s, (f s).unit = s.unit
  bitOrd : ∀ s, (f s).bitOrd = s.bitOrd
  hwidth : ∀ s, (f s).hwidth = s.hwidth
  params : ∀ s, (f s).params = s.params
  refill : CommutesWith f refill
  takeBit : CommutesWith f takeBit

section
variable {f : State → State}

theorem CommutesWith.andThen {α β : Type} {r : State → Attempt α} {g : α → State → Attempt β} (hr : CommutesWith f r)
    (hg : ∀ v, CommutesWith f (g v)) : CommutesWith f fun s => (r s).andThen g := by
  intro s
  dsimp only
  rw [hr s]
  exact Attempt.andThen_mapState hg _

/-- A choice between two readers that does not see the change. -/
theorem CommutesWith.ite {α : Type} {p : State → Prop} [DecidablePred p] {r r' : State → Attempt α}
    (hp : ∀ s, p (f s) ↔ p s) (hr : CommutesWith f r) (hr' : CommutesWith f r') :
    CommutesWith f fun s => if p s then r s else r' s := by
  intro s
  dsimp only
  rw [if_congr (hp s) (hr s) (hr' s), apply_ite (Attempt.mapState f)]

theorem Unread.readBit (h : Unread f) : CommutesWith f readBit :=
  .ite (p := fun s => s.used = s.unit.bits) (fun s => by rw [h.used, h.unit]) (h.refill.andThen fun _ => h.takeBit)
    h.takeBit

theorem Unread.readBitsFrom (h : Unread f) (n : Nat) : ∀ (i : Nat) (v : Word),
    CommutesWith f (readBitsFrom n i v) := by
  induction n with
  | zero => exact fun _ _ _ => rfl
  | succ n ih => exact fun i v => h.readBit.andThen fun b t => by rw [h.bitOrd]; exact ih ..

theorem Unread.readBits (h : Unread f) (c : Nat) : CommutesWith f (readBits c) := h.readBitsFrom c 0 0

theorem Unread.buildNode (h : Unread f) (levels : Nat) : ∀ count : Nat, CommutesWith f (buildNode levels count) := by
  induction levels with
  | zero => exact fun _ _ => rfl
  | succ levels ih =>
    have branch : ∀ count, CommutesWith f fun s => (Machine.buildNode levels (count + 1) s).andThen fun l u =>
        (Machine.buildNode levels l.2 u).andThen fun r v => .done (Trie.branch l.1 r.1, r.2) v := fun count =>
      (ih _).andThen fun _ => (ih _).andThen fun _ _ => rfl
    have leaf : ∀ count : Nat, CommutesWith f fun s => (Machine.readBits s.hwidth.toNat s).andThen fun v u =>
        .done (Trie.leaf v, count + 1) u := fun count s => by
      dsimp only
      rw [h.hwidth]
      exact (h.readBits s.hwidth.toNat).andThen (fun _ _ => rfl) s
    exact fun count => .ite (p := fun s => count = s.params.hufNodesMax) (fun s => by rw [h.params]) (fun _ => rfl)
      (h.readBit.andThen fun b => .ite (p := fun _ => b = true) (fun _ => Iff.rfl) (branch count) (leaf count))

theorem Unread.walk (h : Unread f) (t : Trie) : CommutesWith f (walk t) := by
  induction t with
  | leaf v => exact fun _ => rfl
  | branch l r hl hr =>
    exact h.readBit.andThen fun b => .ite (p := fun _ => b = true) (fun _ => Iff.rfl) hr hl

/-- A command that concludes an attempt which commutes with the change, where its raise and its finish do. -/
theorem conclude_mapState {α : Type} {o : Opcode} {start start' : State} {r r' : Attempt α}
    {finish : α → State → State} (hr : r' = r.mapState f)
    (hraise : ∀ k s, raiseError o.code start' k 0 (f s) = f (raiseError o.code start k 0 s))
    (hfinish : ∀ v s, finish v (f s) = f (finish v s)) :
    conclude o start' r' finish = f (conclude o start r finish) := by
  subst hr
  cases r with
  | done v s => exact hfinish v s
  | raised k s => exact hraise k s

/-- A check that does not see the change chooses between two changed branches. -/
theorem ite_eq_map {p : Prop} [Decidable p] {a a' b b' : State} (ha : a' = f a) (hb : b' = f b) :
    (if p then a' else b') = f (if p then a else b) := by
  split <;> assumption

end

/-! ### Stale bytes of `OUT` -/

/-- `s` with other contents of the output memory. -/
def State.withOut (m : Memory) (s : State) : State := { s with outMem := m }

/-- `t` is `s` but for bytes of `OUT` that the session has not produced (10_state.md R47). -/
abbrev StaleOnly (s t : State) : Prop :=
  t = { s with outMem := t.outMem } ∧ ∀ i, i < s.outLen.toNat → t.outByte i = s.outByte i

theorem withOut_unread (m : Memory) : Unread (State.withOut m) where
  used _ := rfl
  unit _ := rfl
  bitOrd _ := rfl
  hwidth _ := rfl
  params _ := rfl
  refill := .ite (p := fun s => s.available s.unit.bytes = true) (fun _ => Iff.rfl) (fun _ => rfl) fun _ => rfl
  takeBit _ := rfl

theorem StaleOnly.exists_withOut {s t : State} (h : StaleOnly s t) : ∃ m, t = s.withOut m := ⟨_, h.1⟩

/-- The same change in both states, of elements other than the bytes of `OUT`, that does not lengthen the output. -/
theorem StaleOnly.of_kept {m : Memory} {s u : State} (h : StaleOnly s (s.withOut m)) (hmem : u.outMem = s.outMem)
    (hstamp : u.memStamp = s.memStamp) (hlen : u.outLen.toNat ≤ s.outLen.toNat) : StaleOnly u (u.withOut m) := by
  refine ⟨rfl, fun i hi => ?_⟩
  have hbyte := h.2 i (hi.trans_le hlen)
  simp only [State.outByte, State.withOut] at hbyte ⊢
  rw [hmem, hstamp, hbyte]

theorem StaleOnly.ite {p : Prop} [Decidable p] {a a' b b' : State} (ha : StaleOnly a a') (hb : StaleOnly b b') :
    StaleOnly (if p then a else b) (if p then a' else b') := by
  split <;> assumption

theorem StaleOnly.raiseError {m : Memory} {s : State} (h : StaleOnly s (s.withOut m)) (opc : Byte) (k : ErrorKind)
    (d : Word) : StaleOnly (raiseError opc s k d s) (raiseError opc (s.withOut m) k d (s.withOut m)) :=
  h.of_kept (u := Machine.raiseError opc s k d s) rfl rfl (Nat.le_refl _)

theorem StaleOnly.illegalCommand {m : Memory} {s : State} (h : StaleOnly s (s.withOut m)) (opc : Byte) :
    StaleOnly (illegalCommand opc s) (illegalCommand opc (s.withOut m)) :=
  .ite (h.of_kept rfl rfl (Nat.le_refl _)) (h.raiseError ..)

/-- `Emit` produces the same byte at the same place. -/
theorem StaleOnly.emit {s t : State} (h : StaleOnly s t) (hs : s.outMem.wf none) (ht : t.outMem.wf none) (b : Byte) :
    StaleOnly (emit b s) (emit b t) := by
  obtain ⟨m, rfl⟩ := h.exists_withOut
  refine ⟨rfl, fun i hi => ?_⟩
  rw [outByte_emit b _ i ht, outByte_emit b s i hs]
  refine ite_congr rfl (fun _ => rfl) fun hne => h.2 i ?_
  have hlen : (s.outLen + 1).toNat ≤ s.outLen.toNat + 1 := by
    rw [BitVec.toNat_add]; exact Nat.mod_le _ _
  rw [emit_outLen] at hi
  change i ≠ s.outLen.toNat at hne
  omega

theorem StaleOnly.copyBytes (d n : Nat) : ∀ {s t : State}, StaleOnly s t → s.outMem.wf none → t.outMem.wf none →
    StaleOnly (copyBytes d n s) (copyBytes d n t) := by
  induction n with
  | zero => exact fun h _ _ => h
  | succ n ih =>
    intro s t h hs ht
    have hemit := h.emit hs ht (s.winByte (s.sourceIndex d))
    obtain ⟨m, rfl⟩ := h.exists_withOut
    exact ih hemit (Memory.write_wf _ _ hs) (Memory.write_wf _ _ ht)

/-- The commands that do not append see nothing of `OUT`. -/
theorem effect_withOut {i : Instr} (hi : i.op ∉ [.liti, .litr, .litb, .copy]) (m : Memory) (s : State) :
    effect i (s.withOut m) = (effect i s).withOut m := by
  have h := withOut_unread m
  have illegal : ∀ opc, illegalCommand opc (s.withOut m) = (illegalCommand opc s).withOut m := fun _ =>
    ite_eq_map rfl rfl
  cases i with
  | liti _ | litr | litb | copy _ _ => simp [Instr.op] at hi
  | nop | finish | cfgwin _ _ _ | cfglen _ | align => rfl
  | begin | start | rdbytes _ | seek _ | getbyte => exact ite_eq_map rfl rfl
  | magic _ _ => exact ite_eq_map (ite_eq_map rfl rfl) rfl
  | fail kind _ =>
    simp only [effect]; split
    · rfl
    · exact illegal _
  | cfgbits _ _ c =>
    simp only [effect]; split
    · exact ite_eq_map rfl rfl
    · exact illegal _
  | getbit => exact conclude_mapState (h.readBit s) (fun _ _ => rfl) fun _ _ => rfl
  | getbits c => exact conclude_mapState (h.readBits c.toNat s) (fun _ _ => rfl) fun _ _ => rfl
  | hbuild w => exact conclude_mapState (h.buildNode _ 0 (s.withHwidth w)) (fun _ _ => rfl) fun _ _ => rfl
  | hwalk =>
    have htree : (s.withOut m).tree = s.tree := rfl
    simp only [effect, htree]; split
    · exact conclude_mapState (h.walk _ s) (fun _ _ => rfl) fun _ _ => rfl
    · exact illegal _

/-- The commands that do not append keep `OUT` and do not lengthen the output. -/
theorem effect_output {i : Instr} {s : State} (hl : legal i s = true) (hi : i.op ∉ [.liti, .litr, .litb, .copy]) :
    (effect i s).outMem = s.outMem ∧ (effect i s).memStamp = s.memStamp ∧
    (effect i s).outLen.toNat ≤ s.outLen.toNat := by
  by_cases hb : i = .begin
  · subst hb
    simp only [effect]
    split <;> exact ⟨rfl, rfl, Nat.zero_le _⟩
  · rw [effect_recordOnly hl]
    cases i with
    | begin => exact absurd rfl hb
    | liti _ | litr | litb | copy _ _ => simp [Instr.op] at hi
    | _ => exact ⟨rfl, rfl, Nat.le_refl _⟩

/-- A legal command of two sessions that differ in stale bytes of `OUT` leaves two that do. -/
theorem StaleOnly.effect {i : Instr} {s t : State} (h : StaleOnly s t) (hs : s.outMem.wf none) (ht : t.outMem.wf none)
    (hl : legal i s = true) : StaleOnly (effect i s) (effect i t) := by
  obtain ⟨m, rfl⟩ := h.exists_withOut
  by_cases hi : i.op ∉ [.liti, .litr, .litb, .copy]
  · obtain ⟨hmem, hstamp, hlen⟩ := effect_output hl hi
    rw [effect_withOut hi]
    exact h.of_kept hmem hstamp hlen
  cases i with
  | liti _ | litr => exact .ite (h.emit hs ht _) (h.raiseError ..)
  | litb =>
    have hread : StaleOnly ((s.advance 1).setRes ((s.inByte s.inPos.toNat).setWidth 32))
        (((s.withOut m).advance 1).setRes ((s.inByte s.inPos.toNat).setWidth 32)) := h.of_kept rfl rfl (Nat.le_refl _)
    exact .ite (.ite (hread.emit hs ht _) (h.raiseError ..)) (h.raiseError ..)
  | copy d len => exact .ite (.ite (h.copyBytes _ _ hs ht) (h.raiseError ..)) (h.raiseError ..)
  | _ => simp [Instr.op] at hi

end Sys2Proof.Machine
end

section
/-! PROOF. A failed session leaks nothing (60_exceptions.md R266, R269; 10_state.md R42): states that differ only in hidden
data read alike, and a step of both leaves such states. -/

namespace Sys2Proof.Machine

/-! ### The session data of Failed -/

/-- `s` with the session data of `d` (60_exceptions.md R266). -/
def State.withSession (s d : State) : State :=
  { s with
    res := d.res
    inPos := d.inPos
    buf := d.buf
    used := d.used
    win := d.win
    winFill := d.winFill
    wptr := d.wptr
    outMem := d.outMem
    outLen := d.outLen
    tree := d.tree
    hnodes := d.hnodes
    hwidth := d.hwidth }

theorem Indistinct.of_failed {s : State} (h : s.state = .failed) (d : State) : Indistinct s (s.withSession d) where
  same := rfl
  live hs := absurd h hs

theorem StaleOnly.indistinct {s t : State} (h : StaleOnly s t) : Indistinct s t where
  same := by obtain ⟨m, rfl⟩ := h.exists_withOut; rfl
  live _ := h

theorem Indistinct.refl (s : State) : Indistinct s s := StaleOnly.indistinct ⟨rfl, fun _ _ => rfl⟩

theorem Indistinct.ite {p : Prop} [Decidable p] {a a' b b' : State} (ha : Indistinct a a') (hb : Indistinct b b') :
    Indistinct (if p then a else b) (if p then a' else b') := by
  split <;> assumption

/-- Two indistinct states differ in the session data in Failed, or elsewhere in stale bytes of `OUT`. -/
theorem Indistinct.cases {s t : State} (h : Indistinct s t) :
    (s.state = .failed ∧ ∃ d, t = s.withSession d) ∨ (s.state ≠ .failed ∧ StaleOnly s t) := by
  by_cases hs : s.state = .failed
  · exact .inl ⟨hs, t, h.same⟩
  · exact .inr ⟨hs, h.live hs⟩

theorem not_inSession_of_failed {s : State} (h : s.state = .failed) : ¬ s.InSession := by
  rw [State.InSession, h]; decide

/-- In Failed the trie decides about no command: those that look at it are not allowed (46_dispatch.md R238). -/
theorem legal_withSession {s : State} (h : s.state = .failed) (i : Instr) (d : State) :
    legal i (s.withSession d) = legal i s := by
  have hfailed : ∀ t : State, t.state = .failed → legal i t = (i.legalValues && Opcode.allowedIn i.op .failed) := by
    intro t ht
    rw [legal, ht]
    cases i <;> simp [Opcode.allowedIn, Opcode.trieOk, Instr.op]
  exact (hfailed (s.withSession d) h).trans (hfailed _ h).symm

/-- A command that is legal in Failed uses none of the session data that `BEGIN` does not overwrite. -/
theorem indistinct_effect_failed {i : Instr} {s : State} (h : s.state = .failed) (hl : legal i s = true) (d : State) :
    Indistinct (effect i s) (effect i (s.withSession d)) := by
  have hrest := not_inSession_of_failed h
  obtain ⟨hv, hallowed, -⟩ := (legal_iff i s).1 hl
  cases i with
  | nop => exact .of_failed h d
  | cfgwin cap prebuf fill => exact .of_failed (s := { s with cap := cap, prebuf := prebuf, fill := fill }) h d
  | cfglen n => exact .of_failed (s := { s with declen := n }) h d
  | begin =>
    have hfresh : StaleOnly (newSession s) (newSession (s.withSession d)) :=
      ⟨rfl, fun i hi => absurd hi (Nat.not_lt_zero i)⟩
    exact .ite hfresh.indistinct (.of_failed (s := raiseError ..) rfl _)
  | cfgbits b y c =>
    obtain ⟨u, hu⟩ := Option.ne_none_iff_exists'.1 (ofUcode_of_legal hv)
    have hpending := (not_or.1 hrest).1
    have heffect : ∀ t : State, t.state ≠ .headerPending → effect (.cfgbits b y c) t =
        { t with bitOrd := b, byteOrd := y, unit := u } := fun t ht => by simp only [effect, hu, setBitConfig, if_neg ht]
    rw [heffect s hpending, heffect (s.withSession d) hpending]
    exact .of_failed (s := { s with bitOrd := b, byteOrd := y, unit := u }) h d
  | _ => exact absurd (inSession_of_allowedIn hallowed (by simp [Instr.op])) hrest

/-! ### What the host can read -/

section
variable {s t : State} (h : Indistinct s t)
include h

theorem Indistinct.state : t.state = s.state := by rw [h.same]
theorem Indistinct.params : t.params = s.params := by rw [h.same]
theorem Indistinct.inMem : t.inMem = s.inMem := by rw [h.same]
theorem Indistinct.cmdA : t.cmdA = s.cmdA := by rw [h.same]
theorem Indistinct.bus : t.bus = s.bus := by rw [h.same]
theorem Indistinct.inLen : t.inLen = s.inLen := by rw [h.same]
theorem Indistinct.rdata : t.rdata = s.rdata := by rw [h.same]

end

/-- In Failed `STATUS` shows `STATE` and `IGN` alone (10_state.md R25, R27). -/
theorem status_failed {s : State} (h : s.state = .failed) :
    s.status = 0#27 ++ BitVec.ofBool s.ign ++ 0#1 ++ SessionState.code .failed := by
  have hlen : s.lenReached = false := by simp [State.lenReached, h]
  have htrie : s.trieBit = false := by simp [State.trieBit, h]
  rw [State.status, hlen, htrie, h]
  rfl

/-- In Failed a register outside the data path shows nothing of the session data (10_state.md R42). -/
theorem regValue_withSession {s : State} (h : s.state = .failed) {r : Reg} (hr : r.hiddenInFailed = false) (d : State) :
    regValue (s.withSession d) r = regValue s r := by
  cases r with
  | status => exact (status_failed (s := s.withSession d) h).trans (status_failed h).symm
  | res | inPos | remain | outLen | wptr | bstate | buf | hnodes | hwidth => cases hr
  | _ => rfl

theorem Indistinct.readReg_eq {s t : State} (h : Indistinct s t) (r : Reg) : readReg t r = readReg s r := by
  rcases h.cases with ⟨hs, d, rfl⟩ | ⟨-, hstale⟩
  · cases hr : r.hiddenInFailed with
    | true => rw [readReg_hidden hr hs, readReg_hidden (s := s.withSession d) hr hs]
    | false => rw [readReg_shown hr, readReg_shown hr, regValue_withSession hs hr]
  · obtain ⟨m, rfl⟩ := hstale.exists_withOut
    rfl

theorem Indistinct.inWindowByte_eq {s t : State} (h : Indistinct s t) : t.inWindowByte = s.inWindowByte := by
  rw [h.same]; rfl

/-- The OUT window shows only bytes of a completed session below `OUTLEN` (20_memory.md R65). -/
theorem Indistinct.outWindowByte_eq {s t : State} (h : Indistinct s t) : t.outWindowByte = s.outWindowByte := by
  funext i
  by_cases hc : s.state = .complete
  · have hstale : StaleOnly s t := h.live (by rw [hc]; decide)
    have hbyte := hstale.2 i
    obtain ⟨m, rfl⟩ := hstale.exists_withOut
    exact ite_congr rfl (fun ⟨_, hlt, _⟩ => hbyte hlt) fun _ => rfl
  · rw [outWindowByte_eq_zero hc, outWindowByte_eq_zero (h.state ▸ hc)]

theorem Indistinct.hostRead_eq {s t : State} (h : Indistinct s t) (off bits : Nat) :
    hostRead t off bits = hostRead s off bits := by
  simp only [hostRead, h.params, h.readReg_eq, h.inWindowByte_eq, h.outWindowByte_eq]

/-! ### Steps -/

/-- Where `r` answers a state, `r'` answers one that a host cannot tell from it. -/
def Matched (r r' : Host.Outcome State Fault Refusal) : Prop :=
  ∀ s', r = .next s' → ∃ t', r' = .next t' ∧ Indistinct s' t'

theorem Indistinct.matched {s t : State} (h : Indistinct s t) : Matched (.next s) (.next t) := by
  rintro _ ⟨⟩; exact ⟨t, rfl, h⟩

theorem Indistinct.legal_eq {s t : State} (h : Indistinct s t) (i : Instr) : legal i t = legal i s := by
  rcases h.cases with ⟨hs, d, rfl⟩ | ⟨-, hstale⟩
  · exact legal_withSession hs i d
  · obtain ⟨m, rfl⟩ := hstale.exists_withOut
    rfl

theorem Indistinct.illegalCommand {s t : State} (h : Indistinct s t) (opc : Byte) :
    Indistinct (illegalCommand opc s) (illegalCommand opc t) := by
  rcases h.cases with ⟨hs, d, rfl⟩ | ⟨-, hstale⟩
  · have hrest := not_inSession_of_failed hs
    rw [illegalCommand_rest hrest, illegalCommand_rest (s := s.withSession d) hrest]
    exact .of_failed (s := { s with ign := true }) hs d
  · obtain ⟨m, rfl⟩ := hstale.exists_withOut
    exact (hstale.illegalCommand opc).indistinct

/-- Elements of the host's own changed alike in both states. -/
theorem Indistinct.hostFields {s t : State} (h : Indistinct s t) {a a' n n' r r' : Word} {m m' : Memory}
    {b b' : List HostEvent} (ha : a' = a) (hn : n' = n) (hr : r' = r) (hm : m' = m) (hb : b' = b) :
    Indistinct { s with cmdA := a, inLen := n, rdata := r, inMem := m, bus := b }
      { t with cmdA := a', inLen := n', rdata := r', inMem := m', bus := b' } := by
  subst ha hn hr hm hb
  rcases h.cases with ⟨hs, d, rfl⟩ | ⟨-, hstale⟩
  · exact .of_failed (s := { s with cmdA := a', inLen := n', rdata := r', inMem := m', bus := b' }) hs d
  · obtain ⟨_, rfl⟩ := hstale.exists_withOut
    exact (hstale.of_kept (u := { s with cmdA := a', inLen := n', rdata := r', inMem := m', bus := b' }) rfl rfl
      (Nat.le_refl _)).indistinct

theorem Indistinct.withBus {s t : State} (h : Indistinct s t) (rest : List HostEvent) :
    Indistinct { s with bus := rest } { t with bus := rest } := h.hostFields h.cmdA h.inLen h.rdata h.inMem rfl

theorem Indistinct.storeLane {s t : State} (h : Indistinct s t) (k : Nat) (v : Word) (j : Nat) :
    Indistinct (storeLane k v j s) (storeLane k v j t) := by
  have hbound : 4 * k + j < t.params.inMax ↔ 4 * k + j < s.params.inMax := by rw [h.params]
  simp only [Machine.storeLane, hbound]
  exact .ite (h.hostFields h.cmdA h.inLen h.rdata (by rw [h.inMem]) h.bus) h

theorem Indistinct.storeWord {s t : State} (h : Indistinct s t) (k : Nat) (v : Word) :
    Indistinct (storeWord k v s) (storeWord k v t) :=
  (((h.storeLane k v 0).storeLane k v 1).storeLane k v 2).storeLane k v 3

theorem Indistinct.platformReset {s t : State} (h : Indistinct s t) :
    Indistinct (platformReset s) (platformReset t) := by
  have heq : Machine.platformReset t = Machine.platformReset s := by rw [h.same]; rfl
  rw [heq]
  exact .refl _

/-- A legal command of two indistinct states leaves two indistinct ones. -/
theorem Indistinct.effect {i : Instr} {s t : State} (h : Indistinct s t) (hs : s.Inv) (ht : t.Inv)
    (hl : legal i s = true) : Indistinct (effect i s) (effect i t) := by
  rcases h.cases with ⟨hf, d, rfl⟩ | ⟨-, hstale⟩
  · exact indistinct_effect_failed hf hl d
  · exact (hstale.effect hs.outWf.1 ht.outWf.1 hl).indistinct

theorem Indistinct.execWord {s t : State} (h : Indistinct s t) (hs : s.Inv) (ht : t.Inv) (w : CmdWord) :
    Matched (execWord w s) (execWord w t) := by
  intro s' hexec
  rcases execWord_cases hexec with ⟨i, hd, hl, rfl⟩ | ⟨hill, rfl⟩
  · exact ⟨_, (execWord_ok hd t).trans (exec_of_legal ((h.legal_eq i).trans hl)), h.effect hs ht hl⟩
  · exact ⟨_, execWord_of_illegal fun i hd => (h.legal_eq i).trans (hill i hd), h.illegalCommand _⟩

theorem Matched.ite {p : Prop} [Decidable p] {r r' q q' : Host.Outcome State Fault Refusal} (hr : Matched r r')
    (hq : Matched q q') : Matched (if p then r else q) (if p then r' else q') := by
  split <;> assumption

/-- A write to a register: only `CMD_OP` does more than store (20_memory.md R68). -/
theorem Indistinct.writeReg {s t : State} (h : Indistinct s t) (hs : s.Inv) (ht : t.Inv) (r : Reg) (v : Word) :
    Matched (writeReg r v s) (writeReg r v t) := by
  cases r with
  | cmdA => exact (h.hostFields rfl h.inLen h.rdata h.inMem h.bus).matched
  | cmdOp =>
    simp only [Machine.writeReg, h.cmdA]
    exact h.execWord hs ht _
  | inLen =>
    have hrest : t.state.isRest = s.state.isRest := by rw [h.state]
    simp only [Machine.writeReg, hrest]
    exact (Indistinct.ite (h.hostFields h.cmdA rfl h.rdata h.inMem h.bus) h).matched
  | _ => exact h.matched

theorem Indistinct.hostWrite {s t : State} (h : Indistinct s t) (hs : s.Inv) (ht : t.Inv) (off bits : Nat) (v : Word) :
    Matched (hostWrite off bits v s) (hostWrite off bits v t) := by
  have hregion : regionOf t.params off = regionOf s.params off := by rw [h.params]
  have hrest : t.state.isRest = s.state.isRest := by rw [h.state]
  simp only [Machine.hostWrite, hregion, hrest]
  refine Matched.ite ?_ h.matched
  cases regionOf s.params off with
  | reg r => exact h.writeReg hs ht r v
  | inWord k => exact (Indistinct.ite (h.storeWord k v) h).matched
  | outWord k => exact h.matched
  | reserved => exact h.matched

theorem Indistinct.serve {s t : State} (h : Indistinct s t) (hs : s.Inv) (ht : t.Inv) (e : HostEvent) :
    Matched (serve e s) (serve e t) := by
  have hoff : ∀ addr, localOffset t.params addr = localOffset s.params addr := fun _ => by rw [h.params]
  cases e with
  | read addr bits =>
    simp only [Machine.serve, hoff]
    cases localOffset s.params addr with
    | some off => exact (h.hostFields h.cmdA h.inLen (h.hostRead_eq off bits) h.inMem h.bus).matched
    | none => exact h.matched
  | write addr bits v =>
    simp only [Machine.serve, hoff]
    cases localOffset s.params addr with
    | some off => exact h.hostWrite hs ht off bits v
    | none => exact h.matched
  | reset => exact h.platformReset.matched
  | resetDuringAccess => rintro _ ⟨⟩

theorem step_of_cons {s : State} {e : HostEvent} {rest : List HostEvent} (h : s.bus = e :: rest) :
    step s = serve e { s with bus := rest } := by
  simp only [step, h]

/-- Settles O21: indistinct states read alike, and the step of both serves the same event. -/
theorem failedSessionLeaksNothing : Obligations.FailedSessionLeaksNothing := by
  refine fun s t hs ht h => ⟨fun off bits => (h.hostRead_eq off bits).symm, ?_⟩
  change Matched (step s) (step t)
  cases hbus : s.bus with
  | nil =>
    rw [quietBlockHoldsItsState s hbus, quietBlockHoldsItsState t (h.bus.trans hbus)]
    exact h.matched
  | cons e rest =>
    rw [step_of_cons hbus, step_of_cons (h.bus.trans hbus)]
    exact (h.withBus rest).serve (hs.hostFields s.cmdA s.ign rest s.rdata) (ht.hostFields t.cmdA t.ign rest t.rdata) e

end Sys2Proof.Machine
end
